-- ==== Sys2Proof/Word.lean ====
section
/-! DEFINITION. The word types of TRE and the closed sets of names its spec uses: the timers, the timer modes, the
timer-or-counter selector, the tick unit, the eleven opcodes, the register cells, and the events (one per agent step). -/

namespace Sys2Proof

/-- One byte cell, or one operand byte of a command word (10_state.md R20, 30_encoding.md R61). -/
abbrev Byte := BitVec 8

/-- A 16-bit count or reload value (00_scope.md R5, `COUNT_W`, `PRV_W`). -/
abbrev Half := BitVec 16

/-- A command word, a response, or the tick counter seen whole (30_encoding.md R60, 00_scope.md R15, R5 `TICK_W`). -/
abbrev Word := BitVec 32

/-- Timer identity: "one of exactly two values" (00_scope.md R5, 60_exceptions.md R100). -/
inductive Timer where
  | t0
  | t1
  deriving DecidableEq, Repr, Inhabited

/-- The other timer. -/
def Timer.other : Timer → Timer
  | .t0 => .t1
  | .t1 => .t0

/-- The mode selector `M`, in the order the spec numbers its values 0, 1, 2, 3 (10_state.md R22). -/
inductive TimerMode where
  | free13
  | bit16
  | auto8
  | split8
  deriving DecidableEq, Repr

/-- The selector `CT`: Timer = 0, Counter = 1 (10_state.md R23). -/
inductive CtSel where
  | timer
  | counter
  deriving DecidableEq, Repr

/-- The tick unit: Milliseconds = 0, Microseconds = 1 (30_encoding.md R64). -/
inductive TickUnit where
  | ms
  | us
  deriving DecidableEq, Repr

/-- The eleven defined opcode values (30_encoding.md R65). -/
inductive Opcode where
  | cfgmode
  | loadcnt
  | start
  | stop
  | rdovf
  | irqmodeOff
  | irqmodeOn
  | inittick
  | rdtick
  | delayus
  | delayms
  deriving DecidableEq, Repr

/-- The eleven byte cells of the register space (10_state.md R33, 20_memory.md R45). -/
inductive ByteCell where
  | mode
  | cl (t : Timer)
  | ch (t : Timer)
  | prvL
  | prvH
  | tick (i : Fin 4)
  deriving DecidableEq, Repr

/-- The seven bit cells of the register space (10_state.md R33, 20_memory.md R45). -/
inductive BitCell where
  | run (t : Timer)
  | ovf (t : Timer)
  | ien (t : Timer)
  | gie
  deriving DecidableEq, Repr

/-- One step of one agent (00_scope.md R7, R9). `countHigh` exists only under `OTHER_MODE_COUNT = mcs51`: the second
8-bit counter of Timer 0 in mode 3 (93_implementation_defined.md G3). -/
inductive Event where
  | issue
  | fgStep
  | count (t : Timer)
  | countHigh
  | dispatch (t : Timer)
  | hStep
  | reset
  deriving DecidableEq, Repr, Inhabited

end Sys2Proof
end

