-- ==== Sys2Proof/Syntax.lean ====
section
/-! DEFINITION. The syntax of TRE's commands: one constructor per row of spec/opcode_table.json, holding the operand
bytes its format uses (30_encoding.md R62, R65) as the raw unsigned fields the spec takes from the word (R63).
A field a format does not use is ignored on decode (R66) and is no operand. -/

namespace Sys2Proof

/-- TRE's eleven commands. `a`, `b`, `c` are the operand bytes `A`, `B`, `C` of the word and `imm` is `IMM = {B, C}`
(30_encoding.md R61). The selectors are whole bytes so that an invalid selector can be written down (R64). -/
inductive Instr where
  /-- `CFGMODE`, format `TM`: `a` timer, `b` timer-or-counter selector, `c` mode (40_register_primitives.md R76). -/
  | cfgmode (a b c : Byte)
  /-- `LOADCNT`, format `TV`: `a` timer, `imm` value (R77). -/
  | loadcnt (a : Byte) (imm : Half)
  /-- `START`, format `T`: `a` timer (R78). -/
  | start (a : Byte)
  /-- `STOP`, format `T`: `a` timer (R79). -/
  | stop (a : Byte)
  /-- `RDOVF`, format `T`: `a` timer (R80). -/
  | rdovf (a : Byte)
  /-- `IRQMODE.OFF`, format `TV` with `IMM` ignored: `a` timer (41_interrupt_tick.md R87). -/
  | irqmodeOff (a : Byte)
  /-- `IRQMODE.ON`, format `TV`: `a` timer, `imm` reload value (R86). -/
  | irqmodeOn (a : Byte) (imm : Half)
  /-- `INITTICK`, format `TU`: `a` timer, `c` unit (R88). -/
  | inittick (a c : Byte)
  /-- `RDTICK`, format `N` (R89). -/
  | rdtick
  /-- `DELAYUS`, format `V`: `imm` count (42_delay.md R96). -/
  | delayus (imm : Half)
  /-- `DELAYMS`, format `V`: `imm` count (R97). -/
  | delayms (imm : Half)
  deriving DecidableEq, Repr

end Sys2Proof
end

