-- ==== Sys2Proof/WellFormed.lean ====
section
/-! DEFINITION. Well-formed commands: every selector operand holds one of its valid values (30_encoding.md R64).
A command with an invalid selector still has a meaning, the no-op of 40_register_primitives.md R75. -/

namespace Sys2Proof

/-- Timer identity: 0 or 1 (30_encoding.md R64; `valid_timer` of 00_scope.md R19). -/
def validTimer (a : Byte) : Bool := a.toNat < 2

/-- Timer-or-counter selector: 0 or 1 (30_encoding.md R64). -/
def validCtSel (b : Byte) : Bool := b.toNat < 2

/-- Mode: 0 to 3 (30_encoding.md R64). -/
def validMode (c : Byte) : Bool := c.toNat < 4

/-- Unit: 0 or 1 (30_encoding.md R64). -/
def validUnit (c : Byte) : Bool := c.toNat < 2

/-- Every selector of the command is valid (30_encoding.md R64; "Valid when" in each operation's rule). -/
def Instr.wellFormed : Instr → Bool
  | .cfgmode a b c => validTimer a && validCtSel b && validMode c
  | .loadcnt a _ => validTimer a
  | .start a => validTimer a
  | .stop a => validTimer a
  | .rdovf a => validTimer a
  | .irqmodeOff a => validTimer a
  | .irqmodeOn a _ => validTimer a
  | .inittick a c => validTimer a && validUnit c
  | .rdtick => true
  | .delayus _ => true
  | .delayms _ => true

end Sys2Proof
end

