-- ==== Sys2Proof/Decode.lean ====
section
/-! DEFINITION. Decoding a 32-bit command word, total and rejecting the reserved opcodes by name, and after it the
encoder written from the same table (30_encoding.md R60 to R68). -/

namespace Sys2Proof

/-- Why the decoder gives no command: the opcode byte is reserved (30_encoding.md R67). -/
inductive DecodeError where
  | reservedOpcode (op : Byte)
  deriving DecidableEq, Repr

/-- `OP = W[31:24]` (30_encoding.md R61). -/
def fieldOp (w : Word) : Byte := w.extractLsb' 24 8

/-- `A = W[23:16]` (30_encoding.md R61). -/
def fieldA (w : Word) : Byte := w.extractLsb' 16 8

/-- `B = W[15:8]` (30_encoding.md R61). -/
def fieldB (w : Word) : Byte := w.extractLsb' 8 8

/-- `C = W[7:0]` (30_encoding.md R61). -/
def fieldC (w : Word) : Byte := w.extractLsb' 0 8

/-- `IMM = {B, C}` (30_encoding.md R61). -/
def immOf (b c : Byte) : Half := b ++ c

/-- The opcode map (30_encoding.md R65): every value it does not list is reserved (R67). -/
def opcodeOfByte (op : Byte) : Option Opcode :=
  match op.toNat with
  | 0x01 => some .cfgmode
  | 0x02 => some .loadcnt
  | 0x03 => some .start
  | 0x04 => some .stop
  | 0x05 => some .rdovf
  | 0x06 => some .irqmodeOff
  | 0x07 => some .irqmodeOn
  | 0x08 => some .inittick
  | 0x09 => some .rdtick
  | 0x0A => some .delayus
  | 0x0B => some .delayms
  | _ => none

/-- The command an opcode makes of the operand bytes `A`, `B`, `C`: each format takes the fields it uses and ignores
the others (30_encoding.md R62, R66). The decoder applies it to the word's fields and the foreground sequencer to its
operand latches (10_state.md R38). -/
def instrOfFields (op : Opcode) (a b c : Byte) : Instr :=
  match op with
  | .cfgmode => .cfgmode a b c
  | .loadcnt => .loadcnt a (immOf b c)
  | .start => .start a
  | .stop => .stop a
  | .rdovf => .rdovf a
  | .irqmodeOff => .irqmodeOff a
  | .irqmodeOn => .irqmodeOn a (immOf b c)
  | .inittick => .inittick a c
  | .rdtick => .rdtick
  | .delayus => .delayus (immOf b c)
  | .delayms => .delayms (immOf b c)

/-- Decoding looks at the opcode byte and nothing else to choose the operation, and never fails but on a reserved
opcode (30_encoding.md R65, R68). -/
def decode (w : Word) : Except DecodeError Instr :=
  match opcodeOfByte (fieldOp w) with
  | some op => .ok (instrOfFields op (fieldA w) (fieldB w) (fieldC w))
  | none => .error (.reservedOpcode (fieldOp w))

/-- The opcode of a command (30_encoding.md R65). -/
def Instr.opcode : Instr → Opcode
  | .cfgmode _ _ _ => .cfgmode
  | .loadcnt _ _ => .loadcnt
  | .start _ => .start
  | .stop _ => .stop
  | .rdovf _ => .rdovf
  | .irqmodeOff _ => .irqmodeOff
  | .irqmodeOn _ _ => .irqmodeOn
  | .inittick _ _ => .inittick
  | .rdtick => .rdtick
  | .delayus _ => .delayus
  | .delayms _ => .delayms

/-- The opcode byte of an opcode (30_encoding.md R65; `OP = 0x06 | enable` for `IRQMODE`). -/
def opcodeByte : Opcode → Byte
  | .cfgmode => 0x01
  | .loadcnt => 0x02
  | .start => 0x03
  | .stop => 0x04
  | .rdovf => 0x05
  | .irqmodeOff => 0x06
  | .irqmodeOn => 0x07
  | .inittick => 0x08
  | .rdtick => 0x09
  | .delayus => 0x0A
  | .delayms => 0x0B

/-- The command word `{OP, A, IMM}` (30_encoding.md R61). -/
def wordOfFields (op a : Byte) (imm : Half) : Word := (op ++ a : BitVec 16) ++ imm

/-- The word an assembler writes: ignored fields are 0 (30_encoding.md R66, R69). -/
def encode : Instr → Word
  | .cfgmode a b c => wordOfFields 0x01 a (immOf b c)
  | .loadcnt a imm => wordOfFields 0x02 a imm
  | .start a => wordOfFields 0x03 a 0
  | .stop a => wordOfFields 0x04 a 0
  | .rdovf a => wordOfFields 0x05 a 0
  | .irqmodeOff a => wordOfFields 0x06 a 0
  | .irqmodeOn a imm => wordOfFields 0x07 a imm
  | .inittick a c => wordOfFields 0x08 a (immOf 0 c)
  | .rdtick => wordOfFields 0x09 0 0
  | .delayus imm => wordOfFields 0x0A 0 imm
  | .delayms imm => wordOfFields 0x0B 0 imm

/-- The command word whose bits are `w`, numbered as the opcode table numbers them; a bit at or above `nbits` is 0.
The word is a value and never a byte sequence (30_encoding.md R60), so there is no byte order to lay out (log 20). -/
def tableWord (nbits w : Nat) : Word := BitVec.ofNat 32 (w % 2 ^ nbits)

/-- The command this decoder reads from an opcode-table word. -/
def decodeTableWord (nbits w : Nat) : Option Instr :=
  match decode (tableWord nbits w) with
  | .ok i => some i
  | .error _ => none

end Sys2Proof
end

