-- ==== Sys2Proof/Config.lean ====
section
/-! DEFINITION. The implementation parameters of 00_scope.md R6, and the free values the spec leaves unconstrained.
A parameter the spec leaves OPEN, and every free value, is a constant without a body: nothing can be proved of it. -/

namespace Sys2Proof.Config

/-- `NESTING`: whether one timer's handler may preempt the other's (60_exceptions.md R118). -/
inductive Nesting where
  | none
  | cross
  deriving DecidableEq, Repr, Inhabited

/-- `RELOAD_CLAMP` (41_interrupt_tick.md R85, 93_implementation_defined.md U9). -/
inductive ReloadClamp where
  | truncate
  | saturate
  deriving DecidableEq, Repr

/-- `DISPATCH_ORDER` (60_exceptions.md R108, 93_implementation_defined.md U11). -/
inductive DispatchOrder where
  | free
  | t0First
  deriving DecidableEq, Repr

/-- `OTHER_MODE_COUNT` (60_exceptions.md R104, 93_implementation_defined.md U6, G3). -/
inductive OtherModeCount where
  | refuse
  | any
  | mcs51
  deriving DecidableEq, Repr

/-- `GIE_RESTORE` (41_interrupt_tick.md R89, 93_implementation_defined.md U10). -/
inductive GieRestore where
  | set
  | saved
  deriving DecidableEq, Repr

/-- The parameters one machine is built with. They stand in `State` as plain data that no step writes, so that a
statement about every state is a statement about every value of every parameter. -/
structure Params where
  oscHz          : Nat
  nesting        : Nesting
  reloadClamp    : ReloadClamp
  dispatchOrder  : DispatchOrder
  otherModeCount : OtherModeCount
  gieRestore     : GieRestore
  deriving DecidableEq, Repr

/-- `OSC_HZ` is OPEN, "a positive integer" (00_scope.md R6, D20): this constant is its predecessor. -/
opaque oscHzPred : Nat

/-- `OSC_HZ`, positive. -/
def oscHz : Nat := oscHzPred + 1

/-- `NESTING` is OPEN (00_scope.md R6, D15). -/
opaque nesting : Nesting

/-- The parameters right after reset: the two OPEN ones without a value anyone can see, the others at the value the
normative table of 00_scope.md R6 takes. -/
def params : Params where
  oscHz          := oscHz
  nesting        := nesting
  reloadClamp    := .truncate
  dispatchOrder  := .free
  otherModeCount := .refuse
  gieRestore     := .set

/-- `draw_1` (00_scope.md R19). DESIGN CHOICE (log 3): the free value is this constant applied to `State.draws`. -/
opaque freeBit : Nat → Bool

/-- `draw_8` (00_scope.md R19; log 3). -/
opaque freeByte : Nat → BitVec 8

/-- A free 16-bit value: what a 16-bit working latch without a value reads as (10_state.md R38; log 4). -/
opaque freeHalf : Nat → BitVec 16

/-- `draw_32` (00_scope.md R19, 60_exceptions.md R116; log 3). -/
opaque freeWord : Nat → BitVec 32

/-- Which agent steps next when the schedule in `State` is used up (00_scope.md R8; log 2). -/
opaque freeEvent : Nat → Event

end Sys2Proof.Config
end

