-- ==== Sys2Proof/Machine/State.lean ====
section
/-! DEFINITION. The state of TRE as plain data, the reasons a step can stop, and the state right after reset
(10_state.md R20 to R41, 70_reset_and_hazards.md R130). -/

namespace Sys2Proof.Machine

open Sys2Proof

/-- The eighteen register cells (10_state.md R20, R33): eleven byte cells and seven bit cells. `cl0` is `CL[0]`, and
so on. `TICK` is held as its four byte cells and `PRV` as its two; a bit cell is a Bool (log 17). -/
structure Regs where
  mode  : Byte
  cl0   : Byte
  cl1   : Byte
  ch0   : Byte
  ch1   : Byte
  prvL  : Byte
  prvH  : Byte
  tick0 : Byte
  tick1 : Byte
  tick2 : Byte
  tick3 : Byte
  run0  : Bool
  run1  : Bool
  ovf0  : Bool
  ovf1  : Bool
  ien0  : Bool
  ien1  : Bool
  gie   : Bool
  deriving DecidableEq, Repr

/-- The foreground sequencer `FG` (10_state.md R38). `upc = k` is the step label `Sk` (R35; log 17). A working latch is
`none` while it holds no value, which is the spec's own state of it (R38, R40); `SNAP` is filled byte by byte
(41_interrupt_tick.md R89 `S2` to `S5`), so each of its four bytes is held apart. -/
structure Fg where
  busy  : Bool
  op    : Option Opcode
  a     : Byte
  b     : Byte
  c     : Byte
  upc   : Nat
  t     : Option Byte
  f     : Option Bool
  r     : Option Half
  loop  : Option Half
  snap0 : Option Byte
  snap1 : Option Byte
  snap2 : Option Byte
  snap3 : Option Byte
  g     : Option Bool
  deriving DecidableEq, Repr

/-- The step labels of the reload handler (10_state.md R39, 60_exceptions.md R112). -/
inductive HLabel where
  | h1
  | h2
  | h3
  | h4
  deriving DecidableEq, Repr

/-- One frame of the in-service stack `HS` (10_state.md R39). -/
structure Frame where
  t        : Timer
  upc      : HLabel
  tt       : Option Word
  tickread : Bool
  raced    : Bool
  deriving DecidableEq, Repr

/-- The state of TRE. `regs`, `fg` and `hs` (top frame first) are the spec's (10_state.md R20, R38, R39). The others
are the model's own, said in INVENTORY.md and in the log: `cfg` the parameters of 00_scope.md R6 that no step writes
(log 1), `sched` the steps the agents take next, in order (log 2), `commands` the words the host has still to issue
(log 5), `responses` the `Complete` events so far, newest first (log 5), `draws` the number of free values drawn so
far (log 3). -/
structure State where
  regs      : Regs
  fg        : Fg
  hs        : List Frame
  cfg       : Config.Params
  sched     : List Event
  commands  : List Word
  responses : List Word
  draws     : Nat
  deriving DecidableEq, Repr

/-- TRE has no fault: "There is no **fault** outcome" (00_scope.md R12), so there is no reason for one. No step raises
one, and the type says so. -/
inductive Fault where
  deriving DecidableEq, Repr

/-- The reasons a step is refused. -/
inductive Refusal where
  /-- Raised only by an arm of `exec` for a command that has no meaning yet; no arm is such. Safe. -/
  | notModelled (mnemonic : String)
  /-- Raised by a count event of timer `t` while its mode `m` is not mode 1 and `OTHER_MODE_COUNT = refuse`, the spec's
  own outcome for that step (60_exceptions.md R104, 00_scope.md R12; log 10). Safe: it errs toward unprovable. -/
  | otherModeCount (t : Timer) (m : TimerMode)
  /-- Raised by a foreground step whose label names no step of the current operation, or without a current operation:
  no run reaches it (log 6). Safe. -/
  | noSuchStep
  deriving DecidableEq, Repr

/-- The register cells after reset: every one 0 (10_state.md R40). -/
def Regs.reset : Regs where
  mode  := 0x00
  cl0   := 0x00
  cl1   := 0x00
  ch0   := 0x00
  ch1   := 0x00
  prvL  := 0x00
  prvH  := 0x00
  tick0 := 0x00
  tick1 := 0x00
  tick2 := 0x00
  tick3 := 0x00
  run0  := false
  run1  := false
  ovf0  := false
  ovf1  := false
  ien0  := false
  ien1  := false
  gie   := false

/-- The foreground sequencer after reset: idle, no operation, every working latch without a value (10_state.md R40,
70_reset_and_hazards.md R130). DESIGN CHOICE (log 7): the spec states no value there for the operand latches and the
step label; they are 0. -/
def Fg.reset : Fg where
  busy  := false
  op    := none
  a     := 0x00
  b     := 0x00
  c     := 0x00
  upc   := 0
  t     := none
  f     := none
  r     := none
  loop  := none
  snap0 := none
  snap1 := none
  snap2 := none
  snap3 := none
  g     := none

/-- The machine right after reset (10_state.md R40, 70_reset_and_hazards.md R130, R131). Nothing is scheduled, no
command waits, nothing has been answered and nothing drawn (log 7). -/
def State.reset : State where
  regs      := Regs.reset
  fg        := Fg.reset
  hs        := []
  cfg       := Config.params
  sched     := []
  commands  := []
  responses := []
  draws     := 0

end Sys2Proof.Machine
end

