-- ==== Sys2Proof/Machine/Operands.lean ====
section
/-! DEFINITION. Every operand form of TRE: the selectors, the composition of a mode field and its place in `MODE`, the
halves of a 16-bit value, the bytes of a 32-bit value, zero extension (30_encoding.md R63, R64; 40_register_primitives.md
R76, R81; 00_scope.md R19). -/

namespace Sys2Proof.Machine

open Sys2Proof

/-- The timer a selector byte names; `none` is an invalid selector (30_encoding.md R64). -/
def timerOf (a : Byte) : Option Timer :=
  match a.toNat with
  | 0 => some .t0
  | 1 => some .t1
  | _ => none

/-- The timer-or-counter selector a byte names (30_encoding.md R64). -/
def ctSelOf (b : Byte) : Option CtSel :=
  match b.toNat with
  | 0 => some .timer
  | 1 => some .counter
  | _ => none

/-- The mode a byte names (30_encoding.md R64, 10_state.md R22). -/
def modeSelOf (c : Byte) : Option TimerMode :=
  match c.toNat with
  | 0 => some .free13
  | 1 => some .bit16
  | 2 => some .auto8
  | 3 => some .split8
  | _ => none

/-- The unit a byte names (30_encoding.md R64). -/
def unitOf (c : Byte) : Option TickUnit :=
  match c.toNat with
  | 0 => some .ms
  | 1 => some .us
  | _ => none

/-- The number of a mode (10_state.md R22). -/
def modeBits : TimerMode → Byte
  | .free13 => 0
  | .bit16 => 1
  | .auto8 => 2
  | .split8 => 3

/-- The number of a timer-or-counter selector (10_state.md R23). -/
def ctBits : CtSel → Byte
  | .timer => 0
  | .counter => 1

/-- The field written into `MODE`, `f = C | (B << 2)` (40_register_primitives.md R76, R81 (a)). -/
def modeField (m : TimerMode) (ct : CtSel) : Byte := modeBits m ||| (ctBits ct <<< 2)

/-- `NibbleMask(t)` (00_scope.md R19). -/
def nibbleMask : Timer → Byte
  | .t0 => 0x0F
  | .t1 => 0xF0

/-- `k = 4 * A`, the place of timer `t`'s nibble (40_register_primitives.md R76). -/
def nibbleShift : Timer → Nat
  | .t0 => 0
  | .t1 => 4

/-- A `MODE` byte with timer `t`'s nibble cleared (40_register_primitives.md R76 `S2`). -/
def clearNibble (t : Timer) (v : Byte) : Byte := v &&& ~~~(nibbleMask t)

/-- A `MODE` byte with a field ORed into timer `t`'s nibble (40_register_primitives.md R76 `S4`). -/
def orNibble (t : Timer) (f v : Byte) : Byte := v ||| (f <<< nibbleShift t)

/-- Timer `t`'s four-bit field of a `MODE` byte, at the low end (10_state.md R21). -/
def nibbleOf (t : Timer) (v : Byte) : Byte := (v >>> nibbleShift t) &&& 0x0F

/-- The mode `M = f[1:0]` of timer `t` in a `MODE` byte (10_state.md R21, R22). -/
def modeIn (t : Timer) (v : Byte) : TimerMode :=
  match (nibbleOf t v &&& 0x03).toNat with
  | 0 => .free13
  | 1 => .bit16
  | 2 => .auto8
  | _ => .split8

/-- The selector `CT = f[2]` of timer `t` in a `MODE` byte (10_state.md R21, R23). -/
def ctIn (t : Timer) (v : Byte) : CtSel := if (nibbleOf t v &&& 0x04) = 0 then .timer else .counter

/-- `v[7:0]`, the low half of a 16-bit value (20_memory.md R53). -/
def loByte (v : Half) : Byte := v.extractLsb' 0 8

/-- `v[15:8]`, the high half of a 16-bit value (20_memory.md R53). -/
def hiByte (v : Half) : Byte := v.extractLsb' 8 8

/-- `{hi, lo}` (00_scope.md R19). -/
def joinHalf (hi lo : Byte) : Half := hi ++ lo

/-- `v[8i+7:8i]` of a 32-bit value (20_memory.md R53). -/
def wordByte (v : Word) (i : Fin 4) : Byte := v.extractLsb' (8 * i.val) 8

/-- `{b3, b2, b1, b0}` (20_memory.md R53). -/
def joinWord (b3 b2 b1 b0 : Byte) : Word := joinHalf b3 b2 ++ joinHalf b1 b0

/-- `zext_32` of one bit (00_scope.md R15, R19). -/
def zextBit (f : Bool) : Word := if f then 1 else 0

/-- The command in the foreground sequencer's latches: the opcode with the operand latches (10_state.md R38). -/
def Fg.instr (fg : Fg) : Option Instr :=
  match fg.op with
  | some op => some (instrOfFields op fg.a fg.b fg.c)
  | none => none

end Sys2Proof.Machine
end

