-- ==== Sys2Proof/Machine/Ops.lean ====
section
/-! DEFINITION. The named operations every step is built from: the single accesses to the register cells
(20_memory.md R49, R50), the sequencer of the foreground's micro-programs (00_scope.md R8, R9), taking a timer interrupt
and returning from its handler (60_exceptions.md R110, R111, R117). -/

namespace Sys2Proof.Machine

open Sys2Proof

/-! ## Single accesses -/

/-- The number of a byte cell in the register space (10_state.md R33). -/
def byteCellNumber : ByteCell → Nat
  | .mode => 0
  | .cl .t0 => 1
  | .cl .t1 => 2
  | .ch .t0 => 3
  | .ch .t1 => 4
  | .prvL => 5
  | .prvH => 6
  | .tick i => 7 + i.val

/-- The number of a bit cell in the register space (10_state.md R33). -/
def bitCellNumber : BitCell → Nat
  | .run .t0 => 0
  | .run .t1 => 1
  | .ovf .t0 => 2
  | .ovf .t1 => 3
  | .ien .t0 => 4
  | .ien .t1 => 5
  | .gie => 6

/-- The byte cell with a number; numbers outside 0..10 do not exist (20_memory.md R47). -/
def byteCellOf : Nat → Option ByteCell
  | 0 => some .mode
  | 1 => some (.cl .t0)
  | 2 => some (.cl .t1)
  | 3 => some (.ch .t0)
  | 4 => some (.ch .t1)
  | 5 => some .prvL
  | 6 => some .prvH
  | 7 => some (.tick 0)
  | 8 => some (.tick 1)
  | 9 => some (.tick 2)
  | 10 => some (.tick 3)
  | _ => none

/-- The bit cell with a number; numbers outside 0..6 do not exist (20_memory.md R47). -/
def bitCellOf : Nat → Option BitCell
  | 0 => some (.run .t0)
  | 1 => some (.run .t1)
  | 2 => some (.ovf .t0)
  | 3 => some (.ovf .t1)
  | 4 => some (.ien .t0)
  | 5 => some (.ien .t1)
  | 6 => some .gie
  | _ => none

/-- `MemRead(c, 1)` on the cells (00_scope.md R19, 20_memory.md R49). -/
def Regs.readByte (c : ByteCell) (r : Regs) : Byte :=
  match c with
  | .mode => r.mode
  | .cl .t0 => r.cl0
  | .cl .t1 => r.cl1
  | .ch .t0 => r.ch0
  | .ch .t1 => r.ch1
  | .prvL => r.prvL
  | .prvH => r.prvH
  | .tick 0 => r.tick0
  | .tick 1 => r.tick1
  | .tick 2 => r.tick2
  | .tick 3 => r.tick3

/-- `MemWrite(c, 1, v)` on the cells (00_scope.md R19, 20_memory.md R49). -/
def Regs.writeByte (c : ByteCell) (v : Byte) (r : Regs) : Regs :=
  match c with
  | .mode => { r with mode := v }
  | .cl .t0 => { r with cl0 := v }
  | .cl .t1 => { r with cl1 := v }
  | .ch .t0 => { r with ch0 := v }
  | .ch .t1 => { r with ch1 := v }
  | .prvL => { r with prvL := v }
  | .prvH => { r with prvH := v }
  | .tick 0 => { r with tick0 := v }
  | .tick 1 => { r with tick1 := v }
  | .tick 2 => { r with tick2 := v }
  | .tick 3 => { r with tick3 := v }

/-- `BitRead(b)` on the cells (00_scope.md R19, 20_memory.md R49). -/
def Regs.readBit (b : BitCell) (r : Regs) : Bool :=
  match b with
  | .run .t0 => r.run0
  | .run .t1 => r.run1
  | .ovf .t0 => r.ovf0
  | .ovf .t1 => r.ovf1
  | .ien .t0 => r.ien0
  | .ien .t1 => r.ien1
  | .gie => r.gie

/-- `BitWrite(b, v)` on the cells (00_scope.md R19, 20_memory.md R49). -/
def Regs.writeBit (b : BitCell) (v : Bool) (r : Regs) : Regs :=
  match b with
  | .run .t0 => { r with run0 := v }
  | .run .t1 => { r with run1 := v }
  | .ovf .t0 => { r with ovf0 := v }
  | .ovf .t1 => { r with ovf1 := v }
  | .ien .t0 => { r with ien0 := v }
  | .ien .t1 => { r with ien1 := v }
  | .gie => { r with gie := v }

/-- Read one byte cell: one access, no side effect (20_memory.md R52). -/
def readByte (c : ByteCell) (s : State) : Byte := s.regs.readByte c

/-- Write one byte cell: one access, at once (20_memory.md R50). -/
def writeByte (c : ByteCell) (v : Byte) (s : State) : State := { s with regs := s.regs.writeByte c v }

/-- Read one bit cell: one access, no side effect (20_memory.md R52). -/
def readBit (b : BitCell) (s : State) : Bool := s.regs.readBit b

/-- Write one bit cell: one access, at once (20_memory.md R50). -/
def writeBit (b : BitCell) (v : Bool) (s : State) : State := { s with regs := s.regs.writeBit b v }

/-! ## Wide views, for the steps that move a wide value at once -/

/-- Timer `t`'s count `{CH[t], CL[t]}` (10_state.md R30). -/
def countOf (t : Timer) (s : State) : Half := joinHalf (readByte (.ch t) s) (readByte (.cl t) s)

/-- Write timer `t`'s count pair at once; only the counting hardware does (20_memory.md R51). -/
def setCount (t : Timer) (v : Half) (s : State) : State :=
  writeByte (.ch t) (hiByte v) (writeByte (.cl t) (loByte v) s)

/-- The pending reload value `{PRV.H, PRV.L}` (10_state.md R32). -/
def prvOf (s : State) : Half := joinHalf (readByte .prvH s) (readByte .prvL s)

/-- The tick counter seen whole (10_state.md R31). -/
def tickOf (s : State) : Word :=
  joinWord (readByte (.tick 3) s) (readByte (.tick 2) s) (readByte (.tick 1) s) (readByte (.tick 0) s)

/-- Write the tick counter whole; only the handler's `H4` does (60_exceptions.md R115). -/
def setTick (v : Word) (s : State) : State :=
  writeByte (.tick 3) (wordByte v 3) (writeByte (.tick 2) (wordByte v 2)
    (writeByte (.tick 1) (wordByte v 1) (writeByte (.tick 0) (wordByte v 0) s)))

/-! ## The foreground's working latches -/

/-- Apply a change to the foreground sequencer's latches: private computation, no access (00_scope.md R8). -/
def onFg (f : Fg → Fg) (s : State) : State := { s with fg := f s.fg }

/-- Latch `T` (10_state.md R38). A latch without a value reads as a free value (log 4); no rule reads one so. -/
def latchT (s : State) : Byte := s.fg.t.getD (Config.freeByte s.draws)

/-- Latch `R` (10_state.md R38; log 4). -/
def latchR (s : State) : Half := s.fg.r.getD (Config.freeHalf s.draws)

/-- Latch `LOOP` (10_state.md R38; log 4). -/
def latchLoop (s : State) : Half := s.fg.loop.getD (Config.freeHalf s.draws)

/-- Latch `F` (10_state.md R38; log 4). -/
def latchF (s : State) : Bool := s.fg.f.getD (Config.freeBit s.draws)

/-- Latch `G` (10_state.md R38; log 4). -/
def latchG (s : State) : Bool := s.fg.g.getD (Config.freeBit s.draws)

/-- Latch `SNAP`, all four bytes (10_state.md R38; log 4). -/
def latchSnap (s : State) : Word :=
  joinWord (s.fg.snap3.getD (Config.freeByte s.draws)) (s.fg.snap2.getD (Config.freeByte s.draws))
    (s.fg.snap1.getD (Config.freeByte s.draws)) (s.fg.snap0.getD (Config.freeByte s.draws))

/-! ## The foreground sequencer -/

/-- Where a foreground step leaves the sequencer: at the next label, at the label its rule names (`upc <- Sk`), or
done, with the response of `Complete` (10_state.md R35, 00_scope.md R19). -/
inductive Seq where
  | next
  | goto (k : Nat)
  | done (rsp : Word)
  deriving DecidableEq, Repr

/-- One step of a micro-program: one access, with any computation on latches, and where the sequencer goes
(00_scope.md R8). -/
abbrev Micro := State → State × Seq

/-- `Complete(v)`: emit the response and go idle (00_scope.md R15, R19). The other latches stay (log 9). -/
def complete (v : Word) (s : State) : State :=
  { s with responses := v :: s.responses, fg := { s.fg with busy := false } }

/-- The sequencer's move after a step (10_state.md R35). -/
def advance (r : State × Seq) : State :=
  match r.2 with
  | .next => onFg (fun fg => { fg with upc := fg.upc + 1 }) r.1
  | .goto k => onFg (fun fg => { fg with upc := k }) r.1
  | .done v => complete v r.1

/-- A straight-line micro-program: each access is followed by the next, the last one by `Complete` with the response
`result` gives (40_register_primitives.md, template of every rule). -/
def straight (result : State → Word) : List (State → State) → List Micro
  | [] => []
  | [e] => [fun s => (e s, .done (result (e s)))]
  | e :: rest => (fun s => (e s, .next)) :: straight result rest

/-- The step of a micro-program at label `k`, where the program's first label is `base` (10_state.md R35). -/
def microAt (base : Nat) (prog : List Micro) (k : Nat) : Option Micro :=
  if k < base then none else prog[k - base]?

/-- Begin an operation (`Issue` of a command that has access steps): the foreground is busy at the first label, and no
working latch holds a value but those `prep` computes first (00_scope.md R9, 10_state.md R38). -/
def begin (op : Opcode) (base : Nat) (prep : Fg → Fg) (s : State) : State :=
  onFg (fun fg => prep { fg with
    busy := true, op := some op, upc := base, t := none, f := none, r := none, loop := none,
    snap0 := none, snap1 := none, snap2 := none, snap3 := none, g := none }) s

/-- An operation with access steps: issued when the foreground is idle, else its step at the current label
(00_scope.md R9). -/
def operate (op : Opcode) (base : Nat) (prep : Fg → Fg) (prog : List Micro) (s : State) :
    Host.Outcome State Fault Refusal :=
  if s.fg.busy then
    match microAt base prog s.fg.upc with
    | some m => .next (advance (m s))
    | none => .refused .noSuchStep
  else .next (begin op base prep s)

/-- A no-op: no register access, no change of state, `RSP = 0` at once (40_register_primitives.md R75, 30_encoding.md
R67, 42_delay.md R95; log 9). -/
def noOp (s : State) : Host.Outcome State Fault Refusal := .next (complete 0 s)

/-! ## Taking a timer interrupt, and returning from its handler -/

/-- Timer `t`'s source is pending and enabled (60_exceptions.md R107). -/
def pendingEnabled (t : Timer) (s : State) : Bool := readBit (.ovf t) s && readBit (.ien t) s && readBit .gie s

/-- The condition of `Dispatch(t)` without the order of two simultaneous ones (60_exceptions.md R110). -/
def dispatchReady (t : Timer) (s : State) : Bool :=
  pendingEnabled t s && s.hs.all (fun f => f.t != t) && (s.hs.isEmpty || s.cfg.nesting == .cross)

/-- `Dispatch(t)` is enabled (60_exceptions.md R110), and under `DISPATCH_ORDER = t0_first` Timer 0 goes first
(R108; log 18). -/
def dispatchEnabled (t : Timer) (s : State) : Bool :=
  dispatchReady t s && (s.cfg.dispatchOrder == .free || t == .t0 || !dispatchReady .t0 s)

/-- TAKING AN EXCEPTION: `Dispatch(t)` clears the overflow flag and enters the handler at `H1` (60_exceptions.md R111).
It saves nothing else and changes no mask; there is no vector, no mode and no privilege. -/
def takeInterrupt (t : Timer) (s : State) : State :=
  let s' := writeBit (.ovf t) false s
  { s' with hs := { t := t, upc := .h1, tt := none, tickread := false, raced := false } :: s'.hs }

/-- RETURN FROM THE HANDLER: pop the top frame; nothing is restored because nothing was saved (60_exceptions.md
R117). -/
def returnFromHandler (s : State) : State := { s with hs := s.hs.tail }

end Sys2Proof.Machine
end

