-- ==== Sys2Proof/Machine/Flags.lean ====
section
/-! DEFINITION. The one status flag TRE has, the overflow flag: when a count wraps, and how the flag is raised
(10_state.md R26, 60_exceptions.md R102; 93_implementation_defined.md G3 for the modes of `mcs51`). -/

namespace Sys2Proof.Machine

open Sys2Proof

/-- The 16-bit increment and whether it wrapped (60_exceptions.md R102, 40_register_primitives.md R81 (c)). -/
def inc16 (v : Half) : Half × Bool := (v + 1, v + 1 == 0)

/-- The 8-bit increment and whether it wrapped (93_implementation_defined.md G3, modes 2 and 3). -/
def inc8 (v : Byte) : Byte × Bool := (v + 1, v + 1 == 0)

/-- The 13-bit increment, 8 bits of `ch` above the low 5 bits of `cl`, and whether the 13 bits wrapped
(93_implementation_defined.md G3, mode 0). The upper 3 bits of `cl` are no part of the count and stay. -/
def inc13 (ch cl : Byte) : (Byte × Byte) × Bool :=
  let low := (cl &&& 0x1F) + 1
  let carry := low == 0x20
  let cl' := (cl &&& 0xE0) ||| (low &&& 0x1F)
  let ch' := if carry then ch + 1 else ch
  ((ch', cl'), carry && ch' == 0)

/-- Raise `OVF[t]` when a count wrapped: set, never toggled, never cleared here (60_exceptions.md R102). -/
def raiseOvf (t : Timer) (wrapped : Bool) (s : State) : State :=
  if wrapped then writeBit (.ovf t) true s else s

end Sys2Proof.Machine
end

