-- ==== Sys2Proof/Machine/Counting.lean ====
section
/-! DEFINITION. The counting hardware: one count event of a timer (60_exceptions.md R101 to R104), with the two
alternatives of `OTHER_MODE_COUNT` (`any`, R104; `mcs51`, 93_implementation_defined.md G3). -/

namespace Sys2Proof.Machine

open Sys2Proof

/-- Timer `t`'s mode at this instant (60_exceptions.md R102, 10_state.md R21). -/
def timerMode (t : Timer) (s : State) : TimerMode := modeIn t (readByte .mode s)

/-- Timer `t`'s selector at this instant (60_exceptions.md R101, 10_state.md R21). -/
def timerCt (t : Timer) (s : State) : CtSel := ctIn t (readByte .mode s)

/-- `Count(t)` in mode 1: increment, wrap, raise the flag on a wrap, no reload (60_exceptions.md R102). -/
def count16 (t : Timer) (s : State) : State :=
  let n := inc16 (countOf t s)
  raiseOvf t n.2 (setCount t n.1 s)

/-- `Count(t)` in another mode under `any`: both count registers drawn, the flag set or left by a draw
(60_exceptions.md R104; log 11). -/
def countAny (t : Timer) (s : State) : State :=
  let s' := raiseOvf t (Config.freeBit s.draws)
    (writeByte (.ch t) (Config.freeByte (s.draws + 1)) (writeByte (.cl t) (Config.freeByte s.draws) s))
  { s' with draws := s.draws + 2 }

/-- The 8-bit counter in one byte cell, setting `OVF[t]` when it wraps (93_implementation_defined.md G3). -/
def count8 (c : ByteCell) (t : Timer) (s : State) : State :=
  let n := inc8 (readByte c s)
  raiseOvf t n.2 (writeByte c n.1 s)

/-- `Count(t)` in mode 0 under `mcs51` (93_implementation_defined.md G3). -/
def count13 (t : Timer) (s : State) : State :=
  let n := inc13 (readByte (.ch t) s) (readByte (.cl t) s)
  raiseOvf t n.2 (writeByte (.ch t) n.1.1 (writeByte (.cl t) n.1.2 s))

/-- `Count(t)` in mode 2 under `mcs51`: on a wrap `CL[t]` is reloaded from `CH[t]` (93_implementation_defined.md G3). -/
def countAuto8 (t : Timer) (s : State) : State :=
  let n := inc8 (readByte (.cl t) s)
  raiseOvf t n.2 (writeByte (.cl t) (if n.2 then readByte (.ch t) s else n.1) s)

/-- `Count(t)` in mode 3 under `mcs51`: `CL[0]` is an 8-bit counter, Timer 1 holds its count
(93_implementation_defined.md G3). -/
def countSplit8 (t : Timer) (s : State) : State :=
  match t with
  | .t0 => count8 (.cl .t0) .t0 s
  | .t1 => s

/-- `Count(t)` under `mcs51` (93_implementation_defined.md G3; PRESUMED, log 12). -/
def countMcs51 (t : Timer) (m : TimerMode) (s : State) : State :=
  match m with
  | .free13 => count13 t s
  | .bit16 => count16 t s
  | .auto8 => countAuto8 t s
  | .split8 => countSplit8 t s

/-- One count event of timer `t` (60_exceptions.md R102, R104). Under `refuse` the event itself is refused (log 10). -/
def countStep (t : Timer) (s : State) : Host.Outcome State Fault Refusal :=
  match timerMode t s with
  | .bit16 => .next (count16 t s)
  | m =>
    match s.cfg.otherModeCount with
    | .refuse => .refused (.otherModeCount t m)
    | .any => .next (countAny t s)
    | .mcs51 => .next (countMcs51 t m s)

/-- `Count(t)` is enabled (60_exceptions.md R101). -/
def countEnabled (t : Timer) (s : State) : Bool := readBit (.run t) s

/-- The event of Timer 0's second 8-bit counter is enabled: `mcs51`, Timer 0 in mode 3, `RUN[1] = 1`
(93_implementation_defined.md G3). -/
def countHighEnabled (s : State) : Bool :=
  s.cfg.otherModeCount == .mcs51 && timerMode .t0 s == .split8 && readBit (.run .t1) s

/-- The event of Timer 0's second 8-bit counter: `CH[0]` counts and sets `OVF[1]` (93_implementation_defined.md G3). -/
def countHigh (s : State) : State := count8 (.ch .t0) .t1 s

end Sys2Proof.Machine
end

