-- ==== Sys2Proof/Machine/RegisterPrimitives.lean ====
section
/-! DEFINITION. The register primitives CFGMODE, LOADCNT, START, STOP, RDOVF (40_register_primitives.md R75 to R80),
and the access sequences the other families reuse. In every list the k-th entry is step `Sk`. -/

namespace Sys2Proof.Machine

open Sys2Proof

/-- `S1` to `S4` of CFGMODE: clear timer `t`'s nibble of `MODE` and OR the field `f` in, as two separate
read-modify-writes (40_register_primitives.md R76). -/
def configAccesses (t : Timer) (f : Byte) : List (State → State) :=
  [ fun s => onFg (fun fg => { fg with t := some (readByte .mode s) }) s,
    fun s => writeByte .mode (clearNibble t (latchT s)) s,
    fun s => onFg (fun fg => { fg with t := some (readByte .mode s) }) s,
    fun s => writeByte .mode (orNibble t f (latchT s)) s ]

/-- `S1`, `S2` of LOADCNT: the low byte first, then the high byte (40_register_primitives.md R77, 20_memory.md R54).
`v` says where the value comes from: the immediate, or the latch `R`. -/
def loadAccesses (t : Timer) (v : State → Half) : List (State → State) :=
  [ fun s => writeByte (.cl t) (loByte (v s)) s,
    fun s => writeByte (.ch t) (hiByte (v s)) s ]

/-- The steps of STOP: the run bit first, then the flag (40_register_primitives.md R79). -/
def stopAccesses (t : Timer) : List (State → State) :=
  [ writeBit (.run t) false, writeBit (.ovf t) false ]

/-- `CFGMODE t, m, s` (40_register_primitives.md R76). -/
def execCfgmode (a b c : Byte) (s : State) : Host.Outcome State Fault Refusal :=
  match timerOf a, ctSelOf b, modeSelOf c with
  | some t, some ct, some m =>
    operate .cfgmode 1 id (straight (fun _ => 0) (configAccesses t (modeField m ct))) s
  | _, _, _ => noOp s

/-- `LOADCNT t, v` (40_register_primitives.md R77). -/
def execLoadcnt (a : Byte) (imm : Half) (s : State) : Host.Outcome State Fault Refusal :=
  match timerOf a with
  | some t => operate .loadcnt 1 id (straight (fun _ => 0) (loadAccesses t (fun _ => imm))) s
  | none => noOp s

/-- `START t` (40_register_primitives.md R78). -/
def execStart (a : Byte) (s : State) : Host.Outcome State Fault Refusal :=
  match timerOf a with
  | some t => operate .start 1 id (straight (fun _ => 0) [writeBit (.run t) true]) s
  | none => noOp s

/-- `STOP t` (40_register_primitives.md R79). -/
def execStop (a : Byte) (s : State) : Host.Outcome State Fault Refusal :=
  match timerOf a with
  | some t => operate .stop 1 id (straight (fun _ => 0) (stopAccesses t)) s
  | none => noOp s

/-- `RDOVF t`: a non-destructive read, answered zero-extended (40_register_primitives.md R80). -/
def execRdovf (a : Byte) (s : State) : Host.Outcome State Fault Refusal :=
  match timerOf a with
  | some t =>
    operate .rdovf 1 id (straight (fun s' => zextBit (latchF s'))
      [fun s' => onFg (fun fg => { fg with f := some (readBit (.ovf t) s') }) s']) s
  | none => noOp s

end Sys2Proof.Machine
end

