-- ==== Sys2Proof/Machine/Reload.lean ====
section
/-! DEFINITION. The reload function (41_interrupt_tick.md R85): naturals of unbounded width, floor division, then the
clamp to 16 bits. -/

namespace Sys2Proof.Machine

open Sys2Proof

/-- `CLOCKS_PER_COUNT` (00_scope.md R5). -/
def clocksPerCount : Nat := 12

/-- `UNIT_DIV(u)` (00_scope.md R5, R6; log 19). -/
def unitDiv : TickUnit → Nat
  | .ms => 1000
  | .us => 1000000

/-- `ticks(u)` (41_interrupt_tick.md R85). -/
def ticksPerUnit (oscHz : Nat) (u : TickUnit) : Nat := oscHz / (unitDiv u * clocksPerCount)

/-- `Reload(u)` (41_interrupt_tick.md R85). Under `truncate` the difference is taken modulo 65536, in the integers;
under `saturate` it is held between 0 and 65535. -/
def reload (p : Config.Params) (u : TickUnit) : Half :=
  match p.reloadClamp with
  | .truncate => BitVec.ofInt 16 (65536 - (ticksPerUnit p.oscHz u : Int))
  | .saturate => BitVec.ofNat 16 (min 65535 (65536 - ticksPerUnit p.oscHz u))

end Sys2Proof.Machine
end

