-- ==== Sys2Proof/Machine/InterruptTick.lean ====
section
/-! DEFINITION. The interrupt-tick operations IRQMODE.ON, IRQMODE.OFF, INITTICK, RDTICK (41_interrupt_tick.md R86 to
R89). In every list the entries stand in the order of the rule's steps. -/

namespace Sys2Proof.Machine

open Sys2Proof

/-- `S1` to `S9` of IRQMODE.ON: 16-bit mode, load, unmask the line, start, global unmask (41_interrupt_tick.md R86). -/
def irqOnAccesses (t : Timer) (v : State → Half) : List (State → State) :=
  configAccesses t (modeField .bit16 .timer) ++ loadAccesses t v ++
    [ writeBit (.ien t) true, writeBit (.run t) true, writeBit .gie true ]

/-- `S1`, `S2` of INITTICK: cache the latch `R` in `PRV`, the low byte first (41_interrupt_tick.md R88). -/
def cacheAccesses : List (State → State) :=
  [ fun s => writeByte .prvL (loByte (latchR s)) s,
    fun s => writeByte .prvH (hiByte (latchR s)) s ]

/-- `S2` to `S5` of RDTICK: the four byte reads, `TICK.B0` first (41_interrupt_tick.md R89, 20_memory.md R54). -/
def snapAccesses : List (State → State) :=
  [ fun s => onFg (fun fg => { fg with snap0 := some (readByte (.tick 0) s) }) s,
    fun s => onFg (fun fg => { fg with snap1 := some (readByte (.tick 1) s) }) s,
    fun s => onFg (fun fg => { fg with snap2 := some (readByte (.tick 2) s) }) s,
    fun s => onFg (fun fg => { fg with snap3 := some (readByte (.tick 3) s) }) s ]

/-- RDTICK under `GIE_RESTORE = set`, `S1` to `S6` (41_interrupt_tick.md R89). -/
def rdtickSetAccesses : List (State → State) :=
  [writeBit .gie false] ++ snapAccesses ++ [writeBit .gie true]

/-- RDTICK under `GIE_RESTORE = saved`, `S0` to `S6` (41_interrupt_tick.md R89). -/
def rdtickSavedAccesses : List (State → State) :=
  [fun s => onFg (fun fg => { fg with g := some (readBit .gie s) }) s, writeBit .gie false] ++ snapAccesses ++
    [fun s => writeBit .gie (latchG s) s]

/-- `IRQMODE t, v, 0` (41_interrupt_tick.md R87). -/
def execIrqmodeOff (a : Byte) (s : State) : Host.Outcome State Fault Refusal :=
  match timerOf a with
  | some t =>
    operate .irqmodeOff 1 id (straight (fun _ => 0) [writeBit (.ien t) false, writeBit .gie false]) s
  | none => noOp s

/-- `IRQMODE t, v, 1` (41_interrupt_tick.md R86). -/
def execIrqmodeOn (a : Byte) (imm : Half) (s : State) : Host.Outcome State Fault Refusal :=
  match timerOf a with
  | some t => operate .irqmodeOn 1 id (straight (fun _ => 0) (irqOnAccesses t (fun _ => imm))) s
  | none => noOp s

/-- `INITTICK t, u`: `R <- Reload(u)` on latches first, then eleven steps (41_interrupt_tick.md R88). -/
def execInittick (a c : Byte) (s : State) : Host.Outcome State Fault Refusal :=
  match timerOf a, unitOf c with
  | some t, some u =>
    operate .inittick 1 (fun fg => { fg with r := some (reload s.cfg u) })
      (straight (fun _ => 0) (cacheAccesses ++ irqOnAccesses t latchR)) s
  | _, _ => noOp s

/-- `RDTICK` (41_interrupt_tick.md R89). -/
def execRdtick (s : State) : Host.Outcome State Fault Refusal :=
  match s.cfg.gieRestore with
  | .set => operate .rdtick 1 id (straight latchSnap rdtickSetAccesses) s
  | .saved => operate .rdtick 0 id (straight latchSnap rdtickSavedAccesses) s

end Sys2Proof.Machine
end

