-- ==== Sys2Proof/Machine/Delay.lean ====
section
/-! DEFINITION. The busy-wait delays DELAYUS, DELAYMS (42_delay.md R95 to R97). -/

namespace Sys2Proof.Machine

open Sys2Proof

/-- `S8`: one poll of `OVF[0]`; the sequencer leaves it only after reading a 1 (42_delay.md R95). -/
def delayPoll : Micro := fun s =>
  (onFg (fun fg => { fg with f := some (readBit (.ovf .t0) s) }) s,
    if readBit (.ovf .t0) s then .next else .goto 8)

/-- `S10`: clear the flag, count the iteration, go round again or complete (42_delay.md R95). -/
def delayClear : Micro := fun s =>
  (onFg (fun fg => { fg with loop := some (latchLoop s - 1) }) (writeBit (.ovf .t0) false s),
    if latchLoop s - 1 = 0 then .done 0 else .goto 5)

/-- `S1` to `S10` (42_delay.md R95). -/
def delayProgram : List Micro :=
  (configAccesses .t0 (modeField .bit16 .timer) ++ loadAccesses .t0 latchR ++ [writeBit (.run .t0) true]).map
    (fun e => fun s => (e s, Seq.next)) ++
  [delayPoll, fun s => (writeBit (.run .t0) false s, Seq.next), delayClear]

/-- `Delay(u, n)`, with `R <- Reload(u)` and `LOOP <- n` on latches first; `n = 0` is a no-op (42_delay.md R95). -/
def delay (op : Opcode) (u : TickUnit) (n : Half) (s : State) : Host.Outcome State Fault Refusal :=
  if n = 0 then noOp s
  else operate op 1 (fun fg => { fg with r := some (reload s.cfg u), loop := some n }) delayProgram s

/-- `DELAYUS n` (42_delay.md R96). -/
def execDelayus (imm : Half) (s : State) : Host.Outcome State Fault Refusal := delay .delayus .us imm s

/-- `DELAYMS n` (42_delay.md R97). -/
def execDelayms (imm : Half) (s : State) : Host.Outcome State Fault Refusal := delay .delayms .ms imm s

end Sys2Proof.Machine
end

