-- ==== Sys2Proof/Machine/Dispatch.lean ====
section
/-! DEFINITION. One arm per command: what the foreground does with the command `i` in the state `s`. With the
foreground idle this is the command's issue; with the foreground busy it is the command's step at the current label
(00_scope.md R9; log 21). `step` calls it only when the spec enables that step. -/

namespace Sys2Proof.Machine

open Sys2Proof

def exec (i : Instr) (s : State) : Host.Outcome State Fault Refusal :=
  match i with
  | .cfgmode a b c => Sys2Proof.Machine.execCfgmode a b c s
  | .loadcnt a imm => Sys2Proof.Machine.execLoadcnt a imm s
  | .start a => Sys2Proof.Machine.execStart a s
  | .stop a => Sys2Proof.Machine.execStop a s
  | .rdovf a => Sys2Proof.Machine.execRdovf a s
  | .irqmodeOff a => Sys2Proof.Machine.execIrqmodeOff a s
  | .irqmodeOn a imm => Sys2Proof.Machine.execIrqmodeOn a imm s
  | .inittick a c => Sys2Proof.Machine.execInittick a c s
  | .rdtick => Sys2Proof.Machine.execRdtick s
  | .delayus imm => Sys2Proof.Machine.execDelayus imm s
  | .delayms imm => Sys2Proof.Machine.execDelayms imm s

end Sys2Proof.Machine
end

