-- ==== Sys2Proof/Machine/Handler.lean ====
section
/-! DEFINITION. The reload handler, one step at a time (60_exceptions.md R112 to R117). -/

namespace Sys2Proof.Machine

open Sys2Proof

/-- Move the top frame to the next label, with any change to its latches (60_exceptions.md R112). -/
def setTop (f : Frame) (s : State) : State := { s with hs := f :: s.hs.tail }

/-- `H1`: reload the low byte (60_exceptions.md R112). -/
def handlerH1 (f : Frame) (s : State) : State :=
  setTop { f with upc := .h2 } (writeByte (.cl f.t) (readByte .prvL s) s)

/-- `H2`: reload the high byte (60_exceptions.md R112). -/
def handlerH2 (f : Frame) (s : State) : State :=
  setTop { f with upc := .h3 } (writeByte (.ch f.t) (readByte .prvH s) s)

/-- `H3`: read the tick counter whole (60_exceptions.md R112, R115; log 15). -/
def handlerH3 (f : Frame) (s : State) : State :=
  setTop { f with upc := .h4, tt := some (tickOf s), tickread := true } s

/-- The value `H4` writes: the latch plus one modulo `2^32`, or a draw when the frame was raced (60_exceptions.md R115,
R116). The latch without a value is free (log 4). -/
def tickWritten (f : Frame) (s : State) : Word :=
  if f.raced then Config.freeWord s.draws else f.tt.getD (Config.freeWord s.draws) + 1

/-- Every frame that has read `TICK` and not written it back becomes raced (60_exceptions.md R116). -/
def markRaced (f : Frame) : Frame := { f with raced := f.raced || f.tickread }

/-- `H4`: write the tick counter back, mark the frames whose copy is now stale, return (60_exceptions.md R115 to R117).
A raced frame uses up one draw. -/
def handlerH4 (f : Frame) (s : State) : State :=
  let s' := returnFromHandler (setTick (tickWritten f s) s)
  { s' with hs := s'.hs.map markRaced, draws := if f.raced then s.draws + 1 else s.draws }

/-- `HStep`: the step of the top frame (00_scope.md R9, 60_exceptions.md R112). -/
def handlerStep (f : Frame) (s : State) : State :=
  match f.upc with
  | .h1 => handlerH1 f s
  | .h2 => handlerH2 f s
  | .h3 => handlerH3 f s
  | .h4 => handlerH4 f s

end Sys2Proof.Machine
end

