-- ==== Sys2Proof/Machine/Agents.lean ====
section
/-! DEFINITION. The agents' steps: when each is enabled, and what it does (00_scope.md R7 to R10), and which one comes
next. -/

namespace Sys2Proof.Machine

open Sys2Proof

/-- The step table of 00_scope.md R9: when each step is enabled. -/
def enabled (e : Event) (s : State) : Bool :=
  match e with
  | .issue => !s.fg.busy && s.hs.isEmpty && !s.commands.isEmpty
  | .fgStep => s.fg.busy && s.hs.isEmpty
  | .count t => countEnabled t s
  | .countHigh => countHighEnabled s
  | .dispatch t => dispatchEnabled t s
  | .hStep => !s.hs.isEmpty
  | .reset => true

/-- `Issue(W)` takes the word off the host's list and loads the operand latches (00_scope.md R9, R14, 10_state.md
R38). -/
def fetched (w : Word) (rest : List Word) (s : State) : State :=
  { s with commands := rest, fg := { s.fg with a := fieldA w, b := fieldB w, c := fieldC w } }

/-- `Issue(W)`: decode, and begin the command; a reserved opcode is a no-op (00_scope.md R9, 30_encoding.md R67). -/
def issueStep (s : State) : Host.Outcome State Fault Refusal :=
  match s.commands with
  | [] => .next s
  | w :: rest =>
    match decode w with
    | .ok i => exec i (fetched w rest s)
    | .error _ => noOp (fetched w rest s)

/-- `FgStep`: the step at `FG.upc` of the current operation (00_scope.md R9). -/
def fgStep (s : State) : Host.Outcome State Fault Refusal :=
  match s.fg.instr with
  | some i => exec i s
  | none => .refused .noSuchStep

/-- `HStep`: the step of the frame on top of `HS` (00_scope.md R9). -/
def hStep (s : State) : State :=
  match s.hs with
  | [] => s
  | f :: _ => handlerStep f s

/-- `Reset`: every cell and both sequencers at their reset values, at any time, with no `Complete` for abandoned work
(70_reset_and_hazards.md R130, R132). What is not TRE's stays: the parameters, the host's lists, the schedule, the count
of draws (log 8). -/
def resetStep (s : State) : State :=
  { s with regs := Regs.reset, fg := Fg.reset, hs := [] }

/-- What an enabled step does (00_scope.md R9). -/
def effect (e : Event) (s : State) : Host.Outcome State Fault Refusal :=
  match e with
  | .issue => issueStep s
  | .fgStep => fgStep s
  | .count t => countStep t s
  | .countHigh => .next (countHigh s)
  | .dispatch t => .next (takeInterrupt t s)
  | .hStep => .next (hStep s)
  | .reset => .next (resetStep s)

/-- One step of one agent; a step that is not enabled is not taken and the state is as it was (log 2). -/
def runEvent (e : Event) (s : State) : Host.Outcome State Fault Refusal :=
  if enabled e s then effect e s else .next s

/-- Which step comes next: the head of the schedule, or a free choice once the schedule is used up (log 2). The spec
fixes no order between enabled steps of different agents (00_scope.md R8). -/
def nextEvent (s : State) : Event × State :=
  match s.sched with
  | e :: rest => (e, { s with sched := rest })
  | [] => (Config.freeEvent s.draws, { s with draws := s.draws + 1 })

/-- Where the next instruction comes from: the word is the host's next command, the host's `Issue` is the next step,
and what `Issue` needs holds, the foreground idle and no handler in service (00_scope.md R9, R14; log 5). -/
def placeCommand (w : Word) (s : State) : State :=
  { s with sched := .issue :: s.sched, commands := w :: s.commands, hs := [], fg := { s.fg with busy := false } }

end Sys2Proof.Machine
end

