-- ==== Sys2Proof/Machine/Step.lean ====
section
/-! DEFINITION. One step of TRE: one step of the agent whose turn it is (00_scope.md R8, R9). -/

namespace Sys2Proof.Machine

open Sys2Proof

/-- One step: the agent whose turn it is takes its step, if that is enabled. -/
def step (s : State) : Host.Outcome State Fault Refusal :=
  runEvent (nextEvent s).1 (nextEvent s).2

/-- The state whose very next step issues the command word `w` of the opcode table. -/
def State.withFetchWord (s : State) (nbits w : Nat) : State := placeCommand (tableWord nbits w) s

end Sys2Proof.Machine
end

