-- ==== Sys2Proof/Safety.lean ====
section
/-! DEFINITION. The terms in which claims about TRE are stated: finite and infinite runs, fairness, the shape of each
operation's micro-program, what holds of the machine in every reachable state, and what the spec asks of a caller. -/

namespace Sys2Proof.Machine

open Sys2Proof

/-! ## Runs -/

/-- The run whose steps are `es`, in order (00_scope.md R8): the events are given, not read from the schedule. -/
def runOn : List Event → State → Host.Outcome State Fault Refusal
  | [], s => .next s
  | e :: es, s =>
    match runEvent e s with
    | .next s' => runOn es s'
    | .fault r => .fault r
    | .refused r => .refused r

/-- `n` steps of the foreground on the command `i` with no other agent in between. -/
def execTimes : Nat → Instr → State → Host.Outcome State Fault Refusal
  | 0, _, s => .next s
  | n + 1, i, s =>
    match exec i s with
    | .next s' => execTimes n i s'
    | .fault r => .fault r
    | .refused r => .refused r

/-- How many enabled steps of the run `es` from `s` are of the kind `p`. -/
def countTaken (p : Event → Bool) : List Event → State → Nat
  | [], _ => 0
  | e :: es, s =>
    (if p e && enabled e s then 1 else 0) +
      match runEvent e s with
      | .next s' => countTaken p es s'
      | .fault _ => 0
      | .refused _ => 0

/-- An infinite run: state `σ n` takes the step `ε n` (00_scope.md R8, R11). -/
def IsRun (σ : Nat → State) (ε : Nat → Event) : Prop := ∀ n, runEvent (ε n) (σ n) = .next (σ (n + 1))

/-- Weak fairness of a step: if it stays enabled from some point on, it is eventually taken (00_scope.md R11). -/
def WeaklyFair (e : Event) (σ : Nat → State) (ε : Nat → Event) : Prop :=
  ∀ n, (∀ m, n ≤ m → enabled e (σ m) = true) → ∃ m, n ≤ m ∧ ε m = e

/-- Weak fairness of timer `t`'s count events: only while its selector is Timer; the edges of an external input may
never come (00_scope.md R11). -/
def FairCount (t : Timer) (σ : Nat → State) (ε : Nat → Event) : Prop :=
  ∀ n, (∀ m, n ≤ m → enabled (.count t) (σ m) = true ∧ timerCt t (σ m) = .timer) → ∃ m, n ≤ m ∧ ε m = .count t

/-- How many commands the host still awaits an answer for: the words not issued, and the one in progress (00_scope.md
R14, R15; log 22). -/
def awaited (s : State) : Nat := s.commands.length + (if s.fg.busy then 1 else 0)

/-- In `s'`, reached from `s`, every command awaited in `s` has been issued and completed, the foreground is idle and no
handler is in service (00_scope.md R13). There is one `Complete` for each command completed (R15) and none for one that
a `Reset` abandons (70_reset_and_hazards.md R132), so the answers are counted (log 22). -/
def AllCompleted (s s' : State) : Prop :=
  s'.commands = [] ∧ s'.responses.length = s.responses.length + awaited s ∧ s'.fg.busy = false ∧ s'.hs = []

/-- The run `es` of the commands awaited in `s` is finished at its last state: that is the first state of the run in
which they have all completed (00_scope.md R13). -/
def Finished (es : List Event) (s : State) : Prop :=
  (∃ s', runOn es s = .next s' ∧ AllCompleted s s') ∧
  ∀ k, k < es.length → ∀ u, runOn (es.take k) s = .next u → ¬ AllCompleted s u

/-! ## The formats -/

/-- The bits of a command word an operation's format uses: the opcode and the fields R62 lists (30_encoding.md R62). -/
def usedFields : Opcode → Word
  | .cfgmode => 0xFFFFFFFF
  | .loadcnt => 0xFFFFFFFF
  | .start => 0xFFFF0000
  | .stop => 0xFFFF0000
  | .rdovf => 0xFFFF0000
  | .irqmodeOff => 0xFFFF0000
  | .irqmodeOn => 0xFFFFFFFF
  | .inittick => 0xFFFF00FF
  | .rdtick => 0xFF000000
  | .delayus => 0xFF00FFFF
  | .delayms => 0xFF00FFFF

/-! ## The shape of the micro-programs -/

/-- The command has access steps: its selectors are valid, and a delay's count is not 0 (40_register_primitives.md R75,
42_delay.md R95). -/
def hasSteps (i : Instr) : Bool :=
  match i with
  | .delayus n => n != 0
  | .delayms n => n != 0
  | i => i.wellFormed

/-- The label of the first step: `S1`, but `S0` of RDTICK under `GIE_RESTORE = saved` (41_interrupt_tick.md R89). -/
def firstLabel (p : Config.Params) (i : Instr) : Nat :=
  match i with
  | .rdtick => if p.gieRestore = .saved then 0 else 1
  | _ => 1

/-- How many labels the micro-program has (70_reset_and_hazards.md R156; for a delay `S1` to `S10`). -/
def labelCount (p : Config.Params) (i : Instr) : Nat :=
  match i with
  | .cfgmode _ _ _ => 4
  | .loadcnt _ _ => 2
  | .start _ => 1
  | .stop _ => 2
  | .rdovf _ => 1
  | .irqmodeOff _ => 2
  | .irqmodeOn _ _ => 9
  | .inittick _ _ => 11
  | .rdtick => if p.gieRestore = .saved then 7 else 6
  | .delayus _ => 10
  | .delayms _ => 10

/-- The command is a delay, the one operation with a loop (42_delay.md R98). -/
def isDelay : Instr → Bool
  | .delayus _ => true
  | .delayms _ => true
  | _ => false

/-- The state with the foreground's next label set, `upc <- Sk` (00_scope.md R19). -/
def atLabel (k : Nat) (s : State) : State := onFg (fun fg => { fg with upc := k }) s

/-- The label names a step of the command's micro-program. -/
def labelOf (p : Config.Params) (i : Instr) (k : Nat) : Prop :=
  firstLabel p i ≤ k ∧ k < firstLabel p i + labelCount p i

/-- At this label the next step writes `MODE` from the latch `T` read one step before (40_register_primitives.md R76
`S2`, `S4`, and the places of that sequence in R86, R88, R95). -/
def writesModeNext (i : Instr) (k : Nat) : Bool :=
  match i with
  | .cfgmode _ _ _ => k == 2 || k == 4
  | .irqmodeOn _ _ => k == 2 || k == 4
  | .inittick _ _ => k == 4 || k == 6
  | .delayus _ => k == 2 || k == 4
  | .delayms _ => k == 2 || k == 4
  | _ => false

/-- The latches beside `T` that a command's micro-program still has to read hold values: `R` of INITTICK, `R` and a
`LOOP` not used up of the delays, and the bytes of `SNAP` that RDTICK has read (10_state.md R38). -/
def valuesReady (i : Instr) (fg : Fg) : Prop :=
  match i with
  | .cfgmode _ _ _ => True
  | .loadcnt _ _ => True
  | .start _ => True
  | .stop _ => True
  | .rdovf _ => True
  | .irqmodeOff _ => True
  | .irqmodeOn _ _ => True
  | .inittick _ _ => fg.r.isSome = true
  | .rdtick =>
    (3 ≤ fg.upc → fg.snap0.isSome = true) ∧ (4 ≤ fg.upc → fg.snap1.isSome = true) ∧
    (5 ≤ fg.upc → fg.snap2.isSome = true) ∧ (6 ≤ fg.upc → fg.snap3.isSome = true)
  | .delayus _ => fg.r.isSome = true ∧ fg.loop.isSome = true ∧ fg.loop ≠ some 0
  | .delayms _ => fg.r.isSome = true ∧ fg.loop.isSome = true ∧ fg.loop ≠ some 0

/-- Every working latch the rest of the micro-program reads before writing holds a value (10_state.md R38: "no rule
reads one before writing it"). -/
def latchesReady (i : Instr) (fg : Fg) : Prop :=
  (writesModeNext i fg.upc = true → fg.t.isSome = true) ∧ valuesReady i fg

/-! ## What each command may write -/

/-- The byte cells a command's steps may write (40_register_primitives.md R76 to R82, 41_interrupt_tick.md R86 to R89,
42_delay.md R95). -/
def mayWriteByte (i : Instr) (c : ByteCell) : Prop :=
  match i with
  | .cfgmode _ _ _ => c = .mode
  | .loadcnt a _ => ∃ t, timerOf a = some t ∧ (c = .cl t ∨ c = .ch t)
  | .start _ => False
  | .stop _ => False
  | .rdovf _ => False
  | .irqmodeOff _ => False
  | .irqmodeOn a _ => ∃ t, timerOf a = some t ∧ (c = .mode ∨ c = .cl t ∨ c = .ch t)
  | .inittick a _ => ∃ t, timerOf a = some t ∧ (c = .prvL ∨ c = .prvH ∨ c = .mode ∨ c = .cl t ∨ c = .ch t)
  | .rdtick => False
  | .delayus _ => c = .mode ∨ c = .cl .t0 ∨ c = .ch .t0
  | .delayms _ => c = .mode ∨ c = .cl .t0 ∨ c = .ch .t0

/-- The bit cells a command's steps may write (same rules). -/
def mayWriteBit (i : Instr) (b : BitCell) : Prop :=
  match i with
  | .cfgmode _ _ _ => False
  | .loadcnt _ _ => False
  | .start a => ∃ t, timerOf a = some t ∧ b = .run t
  | .stop a => ∃ t, timerOf a = some t ∧ (b = .run t ∨ b = .ovf t)
  | .rdovf _ => False
  | .irqmodeOff a => ∃ t, timerOf a = some t ∧ (b = .ien t ∨ b = .gie)
  | .irqmodeOn a _ => ∃ t, timerOf a = some t ∧ (b = .ien t ∨ b = .run t ∨ b = .gie)
  | .inittick a _ => ∃ t, timerOf a = some t ∧ (b = .ien t ∨ b = .run t ∨ b = .gie)
  | .rdtick => b = .gie
  | .delayus _ => b = .run .t0 ∨ b = .ovf .t0
  | .delayms _ => b = .run .t0 ∨ b = .ovf .t0

/-- A command's frame: cells it may not write read as before, the handlers, the parameters, the schedule, the host's
list and the draws are as before, and at most one response is added. -/
def ExecFrame (i : Instr) (s s' : State) : Prop :=
  (∀ c, ¬ mayWriteByte i c → readByte c s' = readByte c s) ∧
  (∀ b, ¬ mayWriteBit i b → readBit b s' = readBit b s) ∧
  s'.hs = s.hs ∧ s'.cfg = s.cfg ∧ s'.sched = s.sched ∧ s'.commands = s.commands ∧ s'.draws = s.draws ∧
  (s'.responses = s.responses ∨ ∃ v, s'.responses = v :: s.responses)

/-! ## What holds in every reachable state -/

/-- Bit 3 of each mode field is 0 (10_state.md R24). -/
def ModeBit3Clear (s : State) : Prop := readByte .mode s &&& 0x88 = 0

/-- The in-service stack: at most one frame per timer, and at most one frame when handlers do not nest (10_state.md
R39); a frame is past `H3` exactly when it holds a read of the tick counter, and only such a frame is raced (R39,
60_exceptions.md R116). -/
def FramesOk (s : State) : Prop :=
  (s.hs.map Frame.t).Nodup ∧
  (s.cfg.nesting = .none → s.hs.length ≤ 1) ∧
  ∀ f ∈ s.hs, (f.tickread = true ↔ f.upc = .h4) ∧ (f.tickread = true → f.tt.isSome = true) ∧
    (f.raced = true → f.tickread = true)

/-- The foreground sequencer while busy: a current command with steps, at one of its labels, its latches ready; where
the next step writes `MODE` from `T`, `T` is still what `MODE` holds; and the saved `GIE` is held where it will be put
back (10_state.md R35, R38, R34). -/
def ForegroundOk (s : State) : Prop :=
  s.fg.busy = true → ∃ i, s.fg.instr = some i ∧ hasSteps i = true ∧ labelOf s.cfg i s.fg.upc ∧ latchesReady i s.fg ∧
    (writesModeNext i s.fg.upc = true → s.fg.t = some (readByte .mode s)) ∧
    (i = .rdtick → s.cfg.gieRestore = .saved → 1 ≤ s.fg.upc → s.fg.g.isSome = true)

/-- The machine's invariant. -/
structure Inv (s : State) : Prop where
  oscPos     : 0 < s.cfg.oscHz
  bit3       : ModeBit3Clear s
  frames     : FramesOk s
  foreground : ForegroundOk s

/-! ## What the spec asks of a caller -/

/-- The admitted subset of 60_exceptions.md R104: no timer runs in a mode other than 1. -/
def Admitted (s : State) : Prop := ∀ t, readBit (.run t) s = true → timerMode t s = .bit16

/-- The precondition of both delays at one instant: Timer 0 is not in interrupt-tick use (42_delay.md R99). -/
def DelayPrecondition (s : State) : Prop := readBit (.ien .t0) s = false ∨ readBit .gie s = false

/-- Neither timer's interrupt can be dispatched. -/
def InterruptsOff (s : State) : Prop := ∀ t, readBit (.ien t) s = false ∨ readBit .gie s = false

end Sys2Proof.Machine
end

