-- ==== Sys2Proof/Certificates/Slice0/Obligations.lean ====
section
/-! DEFINITION. The statements for the provers. Each docstring says which rule of spec/ the statement formalises.

Three of the model's own choices stand in many of them. `responses` is the model's record of the `Complete` events and
`commands` its list of the words the host has still to issue (log 5). `sched` says who steps next, and a step that is
not enabled leaves the state as it was (log 2). `draws` counts the free values drawn (log 3). -/

open Sys2Proof Sys2Proof.Machine

/-! ## Encoding -/

/-- 30_encoding.md R61, R62, R65, R66: decoding the encoding of a command gives the command back, for every command and
every operand value, valid selectors or not. -/
def Obligations.DecodeOfEncodeIsTheCommand : Prop := ∀ i : Instr, decode (encode i) = .ok i

/-- 30_encoding.md R66: "A field that the operation's format does not use is ignored on decode: any value is accepted
and has no effect", and "An assembler writes ignored fields as 0". The mask keeps the opcode and the fields the format
uses (R62). -/
def Obligations.IgnoredFieldsHaveNoEffect : Prop :=
  (∀ (w : Word) (op : Opcode), opcodeOfByte (fieldOp w) = some op → decode w = decode (w &&& usedFields op)) ∧
  (∀ i : Instr, encode i &&& usedFields i.opcode = encode i) ∧
  ∀ op : Opcode, usedFields op = (match op with
    | .cfgmode | .loadcnt | .irqmodeOn => 0xFFFFFFFF
    | .start | .stop | .rdovf | .irqmodeOff => 0xFFFF0000
    | .inittick => 0xFFFF00FF
    | .rdtick => 0xFF000000
    | .delayus | .delayms => 0xFF00FFFF)

/-- 30_encoding.md R67, R68: decoding rejects the reserved opcodes `0x00` and `0x0C` to `0xFF` by name and gives a
command on every other word. -/
def Obligations.DecodeRejectsExactlyReserved : Prop := ∀ w : Word,
  ((fieldOp w = 0x00 ∨ 0x0C ≤ (fieldOp w).toNat) → decode w = .error (.reservedOpcode (fieldOp w))) ∧
  (¬ (fieldOp w = 0x00 ∨ 0x0C ≤ (fieldOp w).toNat) →
    ∃ i, decode w = .ok i ∧ encode i &&& 0xFF000000 = w &&& 0xFF000000)

/-- 95_test_vectors.md V1 to V12f: the spec's own command words decode to the commands they stand for. -/
def Obligations.SpecWordsDecode : Prop :=
  decode 0x01000001 = .ok (.cfgmode 0 0 1) ∧ decode 0x01010102 = .ok (.cfgmode 1 1 2) ∧
  decode 0x0200FC18 = .ok (.loadcnt 0 0xFC18) ∧ decode 0x03010000 = .ok (.start 1) ∧
  decode 0x04000000 = .ok (.stop 0) ∧ decode 0x05010000 = .ok (.rdovf 1) ∧
  decode 0x0700FC18 = .ok (.irqmodeOn 0 0xFC18) ∧ decode 0x06010000 = .ok (.irqmodeOff 1) ∧
  decode 0x08010001 = .ok (.inittick 1 1) ∧ decode 0x09ABCDEF = .ok .rdtick ∧
  decode 0x0AFF0003 = .ok (.delayus 3) ∧ decode 0x0B000002 = .ok (.delayms 2) ∧
  decode 0x00000000 = .error (.reservedOpcode 0x00) ∧ decode 0x0C000000 = .error (.reservedOpcode 0x0C) ∧
  decode 0xFFFFFFFF = .error (.reservedOpcode 0xFF)

/-- 30_encoding.md R64: the valid values of each selector and what each stands for, and no other value is valid. -/
def Obligations.SelectorValues : Prop :=
  (∀ a, timerOf a = if a = 0 then some .t0 else if a = 1 then some .t1 else none) ∧
  (∀ b, ctSelOf b = if b = 0 then some .timer else if b = 1 then some .counter else none) ∧
  (∀ c, modeSelOf c = if c = 0 then some .free13 else if c = 1 then some .bit16 else if c = 2 then some .auto8
    else if c = 3 then some .split8 else none) ∧
  (∀ c, unitOf c = if c = 0 then some .ms else if c = 1 then some .us else none) ∧
  (∀ a, validTimer a = (timerOf a).isSome) ∧ (∀ b, validCtSel b = (ctSelOf b).isSome) ∧
  (∀ c, validMode c = (modeSelOf c).isSome) ∧ (∀ c, validUnit c = (unitOf c).isSome)

/-! ## The register space -/

/-- 20_memory.md R50: "A read returns the value of the most recent write to that cell by any agent", and a write to one
cell leaves every other cell alone. -/
def Obligations.ReadReturnsTheLastWrite : Prop := ∀ s : State,
  (∀ c c' v, readByte c (writeByte c' v s) = if c = c' then v else readByte c s) ∧
  (∀ b b' v, readBit b (writeBit b' v s) = if b = b' then v else readBit b s) ∧
  (∀ c b v, readByte c (writeBit b v s) = readByte c s) ∧
  (∀ b c v, readBit b (writeByte c v s) = readBit b s)

/-- 10_state.md R33, 20_memory.md R46, R47: the byte cells are numbered 0 to 10 and the bit cells 0 to 6, one number
each, and no other number names a cell. -/
def Obligations.CellNumbersNameTheCells : Prop :=
  (∀ c n, byteCellOf n = some c ↔ byteCellNumber c = n) ∧ (∀ n, (byteCellOf n).isSome = true ↔ n ≤ 10) ∧
  (∀ b n, bitCellOf n = some b ↔ bitCellNumber b = n) ∧ (∀ n, (bitCellOf n).isSome = true ↔ n ≤ 6)

/-- 20_memory.md R53: where the bytes of a 16-bit and of a 32-bit value are. -/
def Obligations.HalvesAndBytesOfWideCells : Prop := ∀ (s : State) (t : Timer),
  countOf t s = readByte (.ch t) s ++ readByte (.cl t) s ∧
  loByte (countOf t s) = readByte (.cl t) s ∧ hiByte (countOf t s) = readByte (.ch t) s ∧
  loByte (prvOf s) = readByte .prvL s ∧ hiByte (prvOf s) = readByte .prvH s ∧
  ∀ i : Fin 4, (tickOf s).extractLsb' (8 * i.val) 8 = readByte (.tick i) s

/-! ## Issue -/

/-- 40_register_primitives.md R75: a command with an invalid selector performs no access, changes no state and
completes with `RSP = 0` inside its `Issue` step. -/
def Obligations.InvalidSelectorIsNoOp : Prop := ∀ (i : Instr) (s : State),
  i.wellFormed = false → s.fg.busy = false → exec i s = .next { s with responses := 0 :: s.responses }

/-- 30_encoding.md R67: a word with a reserved opcode, issued, performs no access, changes no state and completes with
`RSP = 0`; it does not trap. The word has left the host's list and its bytes stand in the operand latches (00_scope.md
R9; the model's reading, log 9). -/
def Obligations.ReservedWordIsNoOp : Prop := ∀ (w : Word) (rest : List Word) (s : State),
  (fieldOp w = 0x00 ∨ 0x0C ≤ (fieldOp w).toNat) → s.fg.busy = false → s.hs = [] → s.commands = w :: rest →
  runEvent .issue s = .next { s with
    commands := rest, responses := 0 :: s.responses,
    fg := { s.fg with a := w.extractLsb' 16 8, b := w.extractLsb' 8 8, c := w.extractLsb' 0 8 } }

/-- 00_scope.md R9 (`Issue`), 10_state.md R38: a command with access steps, issued to an idle foreground, makes it busy
at its first label; no cell changes, nothing is answered, and no working latch holds a value but those the command
computes first (`R` of INITTICK and the delays, `LOOP` of the delays). -/
def Obligations.IssueBeginsTheOperation : Prop := ∀ (i : Instr) (s : State),
  hasSteps i = true → s.fg.busy = false →
  ∃ t, exec i s = .next t ∧ t.regs = s.regs ∧ t.hs = s.hs ∧ t.cfg = s.cfg ∧ t.sched = s.sched ∧
    t.commands = s.commands ∧ t.responses = s.responses ∧ t.draws = s.draws ∧
    t.fg.busy = true ∧ t.fg.op = some i.opcode ∧ t.fg.upc = firstLabel s.cfg i ∧
    t.fg.a = s.fg.a ∧ t.fg.b = s.fg.b ∧ t.fg.c = s.fg.c ∧ t.fg.t = none ∧ t.fg.f = none ∧ t.fg.g = none ∧
    t.fg.snap0 = none ∧ t.fg.snap1 = none ∧ t.fg.snap2 = none ∧ t.fg.snap3 = none ∧
    t.fg.r = (match i with
      | .inittick _ c => some (reload s.cfg (if c = 0 then .ms else .us))
      | .delayus _ => some (reload s.cfg .us)
      | .delayms _ => some (reload s.cfg .ms)
      | _ => none) ∧
    t.fg.loop = (match i with
      | .delayus n => some n
      | .delayms n => some n
      | _ => none)

/-- 00_scope.md R8, R9: when the schedule's next event is the host's `Issue` and the foreground can take it, `step` is
`exec` of the decoded command, in the state where the word has left the host's list and its bytes stand in the operand
latches. The schedule and the list are the model's (log 2, log 5). -/
def Obligations.StepIssuesTheDecodedCommand : Prop :=
  ∀ (w : Word) (i : Instr) (rest : List Word) (es : List Event) (s : State),
  s.sched = .issue :: es → s.commands = w :: rest → s.fg.busy = false → s.hs = [] → decode w = .ok i →
  step s = exec i { s with sched := es, commands := rest,
                            fg := { s.fg with a := w.extractLsb' 16 8, b := w.extractLsb' 8 8, c := w.extractLsb' 0 8 } }

/-- 00_scope.md R8, R9: a step of the machine is the step of the agent at the head of the schedule; when that is a
foreground step and the foreground is busy with the command in its latches, `step` is `exec` of that command; and the
latches an issue leaves hold the command issued. The schedule and the list are the model's (log 2, log 5). -/
def Obligations.StepRunsTheCommandInTheLatches : Prop :=
  (∀ (e : Event) (es : List Event) (s : State), s.sched = e :: es → step s = runEvent e { s with sched := es }) ∧
  (∀ (i : Instr) (es : List Event) (s : State),
    s.sched = .fgStep :: es → s.fg.busy = true → s.hs = [] → s.fg.instr = some i →
    step s = exec i { s with sched := es }) ∧
  ∀ (w : Word) (i : Instr) (rest : List Word) (s s' : State),
    s.commands = w :: rest → s.fg.busy = false → s.hs = [] → decode w = .ok i → runEvent .issue s = .next s' →
    s'.fg.busy = true → s'.fg.instr = some i

/-- 00_scope.md R9, R10: the guards of the step table: when a foreground step, an `Issue`, a handler step and a `Reset`
are enabled; "While any handler is in service (`HS` not empty) the foreground takes no step and no command is issued",
while the count agents and the handler go on; an `Issue` is not taken from a busy foreground, and an idle foreground
takes no step. That a step not enabled leaves the state as it was, and that an `Issue` needs a word on the host's list,
are the model's choices (log 2, log 5). -/
def Obligations.HandlerHoldsTheForeground : Prop := ∀ s : State,
  (s.hs ≠ [] → runEvent .fgStep s = .next s ∧ runEvent .issue s = .next s) ∧
  (s.hs ≠ [] → enabled .hStep s = true) ∧
  (s.hs = [] → runEvent .hStep s = .next s) ∧
  (s.fg.busy = true → runEvent .issue s = .next s) ∧
  (s.fg.busy = false → runEvent .fgStep s = .next s) ∧
  (enabled .fgStep s = true ↔ s.fg.busy = true ∧ s.hs = []) ∧
  (enabled .issue s = true ↔ s.fg.busy = false ∧ s.hs = [] ∧ s.commands ≠ []) ∧
  enabled .reset s = true ∧
  (∀ e, enabled e s = false → runEvent e s = .next s) ∧
  ∀ (t : Timer) (f : Frame), enabled (.count t) { s with hs := f :: s.hs } = enabled (.count t) s

/-! ## The operations, step by step -/

/-- 40_register_primitives.md R76: CFGMODE's encoding, when it is valid, and its four steps. -/
def Obligations.CfgmodeSteps : Prop :=
  (∀ w : Word, w.extractLsb' 24 8 = 0x01 →
    decode w = .ok (.cfgmode (w.extractLsb' 16 8) (w.extractLsb' 8 8) (w.extractLsb' 0 8))) ∧
  ∀ (a b c : Byte) (s : State),
  ((2 ≤ a.toNat ∨ 2 ≤ b.toNat ∨ 4 ≤ c.toNat) → s.fg.busy = false →
    exec (.cfgmode a b c) s = .next { s with responses := 0 :: s.responses }) ∧
  (a.toNat < 2 → b.toNat < 2 → c.toNat < 4 →
    (s.fg.busy = false → exec (.cfgmode a b c) s = .next (begin .cfgmode 1 id s)) ∧
    (s.fg.busy = true →
      (s.fg.upc = 1 → exec (.cfgmode a b c) s =
        .next { s with fg := { s.fg with upc := 2, t := some (readByte .mode s) } }) ∧
      (∀ v, s.fg.upc = 2 → s.fg.t = some v → exec (.cfgmode a b c) s =
        .next (atLabel 3 (writeByte .mode (v &&& ~~~(if a = 0 then 0x0F else 0xF0 : Byte)) s))) ∧
      (s.fg.upc = 3 → exec (.cfgmode a b c) s =
        .next { s with fg := { s.fg with upc := 4, t := some (readByte .mode s) } }) ∧
      (∀ v, s.fg.upc = 4 → s.fg.t = some v → exec (.cfgmode a b c) s =
        .next (complete 0 (writeByte .mode (v ||| ((c ||| (b <<< 2)) <<< (4 * a.toNat))) s)))))

/-- 40_register_primitives.md R77: LOADCNT's encoding, when it is valid, and its two steps. -/
def Obligations.LoadcntSteps : Prop :=
  (∀ w : Word, w.extractLsb' 24 8 = 0x02 → decode w = .ok (.loadcnt (w.extractLsb' 16 8) (w.extractLsb' 0 16))) ∧
  ∀ (a : Byte) (imm : Half) (s : State),
  (2 ≤ a.toNat → s.fg.busy = false → exec (.loadcnt a imm) s = .next { s with responses := 0 :: s.responses }) ∧
  ∀ t, (a = 0 ∧ t = .t0 ∨ a = 1 ∧ t = .t1) →
    (s.fg.busy = false → exec (.loadcnt a imm) s = .next (begin .loadcnt 1 id s)) ∧
    (s.fg.busy = true →
      (s.fg.upc = 1 →
        exec (.loadcnt a imm) s = .next (atLabel 2 (writeByte (.cl t) (imm.extractLsb' 0 8) s))) ∧
      (s.fg.upc = 2 →
        exec (.loadcnt a imm) s = .next (complete 0 (writeByte (.ch t) (imm.extractLsb' 8 8) s))))

/-- 40_register_primitives.md R78: START's encoding, when it is valid, and its one step. -/
def Obligations.StartStep : Prop :=
  (∀ w : Word, w.extractLsb' 24 8 = 0x03 → decode w = .ok (.start (w.extractLsb' 16 8))) ∧
  ∀ (a : Byte) (s : State),
  (2 ≤ a.toNat → s.fg.busy = false → exec (.start a) s = .next { s with responses := 0 :: s.responses }) ∧
  ∀ t, (a = 0 ∧ t = .t0 ∨ a = 1 ∧ t = .t1) →
    (s.fg.busy = false → exec (.start a) s = .next (begin .start 1 id s)) ∧
    (s.fg.busy = true → s.fg.upc = 1 → exec (.start a) s = .next (complete 0 (writeBit (.run t) true s)))

/-- 40_register_primitives.md R79: STOP's encoding, when it is valid, and its two steps. -/
def Obligations.StopSteps : Prop :=
  (∀ w : Word, w.extractLsb' 24 8 = 0x04 → decode w = .ok (.stop (w.extractLsb' 16 8))) ∧
  ∀ (a : Byte) (s : State),
  (2 ≤ a.toNat → s.fg.busy = false → exec (.stop a) s = .next { s with responses := 0 :: s.responses }) ∧
  ∀ t, (a = 0 ∧ t = .t0 ∨ a = 1 ∧ t = .t1) →
    (s.fg.busy = false → exec (.stop a) s = .next (begin .stop 1 id s)) ∧
    (s.fg.busy = true →
      (s.fg.upc = 1 → exec (.stop a) s = .next (atLabel 2 (writeBit (.run t) false s))) ∧
      (s.fg.upc = 2 → exec (.stop a) s = .next (complete 0 (writeBit (.ovf t) false s))))

/-- 40_register_primitives.md R80: RDOVF's encoding, when it is valid, and its one step: the flag is answered
zero-extended and no cell changes. -/
def Obligations.RdovfStep : Prop :=
  (∀ w : Word, w.extractLsb' 24 8 = 0x05 → decode w = .ok (.rdovf (w.extractLsb' 16 8))) ∧
  ∀ (a : Byte) (s : State),
  (2 ≤ a.toNat → s.fg.busy = false → exec (.rdovf a) s = .next { s with responses := 0 :: s.responses }) ∧
  ∀ t, (a = 0 ∧ t = .t0 ∨ a = 1 ∧ t = .t1) →
    (s.fg.busy = false → exec (.rdovf a) s = .next (begin .rdovf 1 id s)) ∧
    (s.fg.busy = true → s.fg.upc = 1 → exec (.rdovf a) s =
      .next { s with
        responses := (if readBit (.ovf t) s = true then 1 else 0) :: s.responses,
        fg := { s.fg with busy := false, f := some (readBit (.ovf t) s) } })

/-- 41_interrupt_tick.md R87: IRQMODE.OFF's encoding, when it is valid, and its two steps. -/
def Obligations.IrqmodeOffSteps : Prop :=
  (∀ w : Word, w.extractLsb' 24 8 = 0x06 → decode w = .ok (.irqmodeOff (w.extractLsb' 16 8))) ∧
  ∀ (a : Byte) (s : State),
  (2 ≤ a.toNat → s.fg.busy = false → exec (.irqmodeOff a) s = .next { s with responses := 0 :: s.responses }) ∧
  ∀ t, (a = 0 ∧ t = .t0 ∨ a = 1 ∧ t = .t1) →
    (s.fg.busy = false → exec (.irqmodeOff a) s = .next (begin .irqmodeOff 1 id s)) ∧
    (s.fg.busy = true →
      (s.fg.upc = 1 → exec (.irqmodeOff a) s = .next (atLabel 2 (writeBit (.ien t) false s))) ∧
      (s.fg.upc = 2 → exec (.irqmodeOff a) s = .next (complete 0 (writeBit .gie false s))))

/-- 41_interrupt_tick.md R86: IRQMODE.ON's encoding, when it is valid, and its nine steps. -/
def Obligations.IrqmodeOnSteps : Prop :=
  (∀ w : Word, w.extractLsb' 24 8 = 0x07 → decode w = .ok (.irqmodeOn (w.extractLsb' 16 8) (w.extractLsb' 0 16))) ∧
  ∀ (a : Byte) (imm : Half) (s : State),
  (2 ≤ a.toNat → s.fg.busy = false → exec (.irqmodeOn a imm) s = .next { s with responses := 0 :: s.responses }) ∧
  ∀ t, (a = 0 ∧ t = .t0 ∨ a = 1 ∧ t = .t1) →
    (s.fg.busy = false → exec (.irqmodeOn a imm) s = .next (begin .irqmodeOn 1 id s)) ∧
    (s.fg.busy = true →
      (s.fg.upc = 1 → exec (.irqmodeOn a imm) s =
        .next { s with fg := { s.fg with upc := 2, t := some (readByte .mode s) } }) ∧
      (∀ v, s.fg.upc = 2 → s.fg.t = some v → exec (.irqmodeOn a imm) s =
        .next (atLabel 3 (writeByte .mode (v &&& ~~~(if a = 0 then 0x0F else 0xF0 : Byte)) s))) ∧
      (s.fg.upc = 3 → exec (.irqmodeOn a imm) s =
        .next { s with fg := { s.fg with upc := 4, t := some (readByte .mode s) } }) ∧
      (∀ v, s.fg.upc = 4 → s.fg.t = some v → exec (.irqmodeOn a imm) s =
        .next (atLabel 5 (writeByte .mode (v ||| ((0x01 : Byte) <<< (4 * a.toNat))) s))) ∧
      (s.fg.upc = 5 → exec (.irqmodeOn a imm) s =
        .next (atLabel 6 (writeByte (.cl t) (imm.extractLsb' 0 8) s))) ∧
      (s.fg.upc = 6 → exec (.irqmodeOn a imm) s =
        .next (atLabel 7 (writeByte (.ch t) (imm.extractLsb' 8 8) s))) ∧
      (s.fg.upc = 7 → exec (.irqmodeOn a imm) s = .next (atLabel 8 (writeBit (.ien t) true s))) ∧
      (s.fg.upc = 8 → exec (.irqmodeOn a imm) s = .next (atLabel 9 (writeBit (.run t) true s))) ∧
      (s.fg.upc = 9 → exec (.irqmodeOn a imm) s = .next (complete 0 (writeBit .gie true s))))

/-- 41_interrupt_tick.md R88: INITTICK's encoding, when it is valid, the reload value computed at its issue, and its
eleven steps, the last nine those of IRQMODE.ON on the latch `R`. -/
def Obligations.InittickSteps : Prop :=
  (∀ w : Word, w.extractLsb' 24 8 = 0x08 → decode w = .ok (.inittick (w.extractLsb' 16 8) (w.extractLsb' 0 8))) ∧
  ∀ (a c : Byte) (s : State),
  ((2 ≤ a.toNat ∨ 2 ≤ c.toNat) → s.fg.busy = false →
    exec (.inittick a c) s = .next { s with responses := 0 :: s.responses }) ∧
  ∀ t u, (a = 0 ∧ t = .t0 ∨ a = 1 ∧ t = .t1) → (c = 0 ∧ u = .ms ∨ c = 1 ∧ u = .us) →
    (s.fg.busy = false → exec (.inittick a c) s =
      .next (begin .inittick 1 (fun fg => { fg with r := some (reload s.cfg u) }) s)) ∧
    ∀ r, s.fg.busy = true → s.fg.r = some r →
      (s.fg.upc = 1 → exec (.inittick a c) s = .next (atLabel 2 (writeByte .prvL (r.extractLsb' 0 8) s))) ∧
      (s.fg.upc = 2 → exec (.inittick a c) s = .next (atLabel 3 (writeByte .prvH (r.extractLsb' 8 8) s))) ∧
      (s.fg.upc = 3 → exec (.inittick a c) s =
        .next { s with fg := { s.fg with upc := 4, t := some (readByte .mode s) } }) ∧
      (∀ v, s.fg.upc = 4 → s.fg.t = some v → exec (.inittick a c) s =
        .next (atLabel 5 (writeByte .mode (v &&& ~~~(if a = 0 then 0x0F else 0xF0 : Byte)) s))) ∧
      (s.fg.upc = 5 → exec (.inittick a c) s =
        .next { s with fg := { s.fg with upc := 6, t := some (readByte .mode s) } }) ∧
      (∀ v, s.fg.upc = 6 → s.fg.t = some v → exec (.inittick a c) s =
        .next (atLabel 7 (writeByte .mode (v ||| ((0x01 : Byte) <<< (4 * a.toNat))) s))) ∧
      (s.fg.upc = 7 → exec (.inittick a c) s = .next (atLabel 8 (writeByte (.cl t) (r.extractLsb' 0 8) s))) ∧
      (s.fg.upc = 8 → exec (.inittick a c) s = .next (atLabel 9 (writeByte (.ch t) (r.extractLsb' 8 8) s))) ∧
      (s.fg.upc = 9 → exec (.inittick a c) s = .next (atLabel 10 (writeBit (.ien t) true s))) ∧
      (s.fg.upc = 10 → exec (.inittick a c) s = .next (atLabel 11 (writeBit (.run t) true s))) ∧
      (s.fg.upc = 11 → exec (.inittick a c) s = .next (complete 0 (writeBit .gie true s)))

/-- 41_interrupt_tick.md R89: RDTICK's encoding and its steps, under both values of `GIE_RESTORE`: `S0` exists only
under `saved`, and `S6` puts back 1 under `set` and the latch `G` under `saved`. -/
def Obligations.RdtickSteps : Prop :=
  (∀ w : Word, w.extractLsb' 24 8 = 0x09 → decode w = .ok .rdtick) ∧
  ∀ s : State,
  (s.fg.busy = false → s.cfg.gieRestore = .set → exec .rdtick s = .next (begin .rdtick 1 id s)) ∧
  (s.fg.busy = false → s.cfg.gieRestore = .saved → exec .rdtick s = .next (begin .rdtick 0 id s)) ∧
  (s.fg.busy = true →
    (s.fg.upc = 0 → s.cfg.gieRestore = .saved → exec .rdtick s =
      .next { s with fg := { s.fg with upc := 1, g := some (readBit .gie s) } }) ∧
    (s.fg.upc = 1 → exec .rdtick s = .next (atLabel 2 (writeBit .gie false s))) ∧
    (s.fg.upc = 2 → exec .rdtick s =
      .next { s with fg := { s.fg with upc := 3, snap0 := some (readByte (.tick 0) s) } }) ∧
    (s.fg.upc = 3 → exec .rdtick s =
      .next { s with fg := { s.fg with upc := 4, snap1 := some (readByte (.tick 1) s) } }) ∧
    (s.fg.upc = 4 → exec .rdtick s =
      .next { s with fg := { s.fg with upc := 5, snap2 := some (readByte (.tick 2) s) } }) ∧
    (s.fg.upc = 5 → exec .rdtick s =
      .next { s with fg := { s.fg with upc := 6, snap3 := some (readByte (.tick 3) s) } }) ∧
    ∀ b0 b1 b2 b3 : Byte, s.fg.upc = 6 →
      s.fg.snap0 = some b0 → s.fg.snap1 = some b1 → s.fg.snap2 = some b2 → s.fg.snap3 = some b3 →
      (s.cfg.gieRestore = .set → exec .rdtick s =
        .next (complete ((b3 ++ b2 : Half) ++ (b1 ++ b0 : Half)) (writeBit .gie true s))) ∧
      ∀ g, s.fg.g = some g → s.cfg.gieRestore = .saved → exec .rdtick s =
        .next (complete ((b3 ++ b2 : Half) ++ (b1 ++ b0 : Half)) (writeBit .gie g s)))

/-- 42_delay.md R95, R96, R97: the delays' encodings, the no-op of a zero count, what an issue computes, and the ten
steps, the same for both units: the poll goes on only when the flag reads 1, and the last step goes round again while
the count is not used up. -/
def Obligations.DelaySteps : Prop :=
  (∀ w : Word, w.extractLsb' 24 8 = 0x0A → decode w = .ok (.delayus (w.extractLsb' 0 16))) ∧
  (∀ w : Word, w.extractLsb' 24 8 = 0x0B → decode w = .ok (.delayms (w.extractLsb' 0 16))) ∧
  ∀ (i : Instr) (op : Opcode) (u : TickUnit) (n : Half) (s : State),
  (i = .delayus n ∧ op = .delayus ∧ u = .us ∨ i = .delayms n ∧ op = .delayms ∧ u = .ms) →
  (n = 0 → s.fg.busy = false → exec i s = .next { s with responses := 0 :: s.responses }) ∧
  (n ≠ 0 →
    (s.fg.busy = false → exec i s =
      .next (begin op 1 (fun fg => { fg with r := some (reload s.cfg u), loop := some n }) s)) ∧
    ∀ r k, s.fg.busy = true → s.fg.r = some r → s.fg.loop = some k →
      (s.fg.upc = 1 → exec i s = .next { s with fg := { s.fg with upc := 2, t := some (readByte .mode s) } }) ∧
      (∀ v, s.fg.upc = 2 → s.fg.t = some v → exec i s = .next (atLabel 3 (writeByte .mode (v &&& 0xF0) s))) ∧
      (s.fg.upc = 3 → exec i s = .next { s with fg := { s.fg with upc := 4, t := some (readByte .mode s) } }) ∧
      (∀ v, s.fg.upc = 4 → s.fg.t = some v → exec i s = .next (atLabel 5 (writeByte .mode (v ||| 0x01) s))) ∧
      (s.fg.upc = 5 → exec i s = .next (atLabel 6 (writeByte (.cl .t0) (r.extractLsb' 0 8) s))) ∧
      (s.fg.upc = 6 → exec i s = .next (atLabel 7 (writeByte (.ch .t0) (r.extractLsb' 8 8) s))) ∧
      (s.fg.upc = 7 → exec i s = .next (atLabel 8 (writeBit (.run .t0) true s))) ∧
      (s.fg.upc = 8 → exec i s = .next { s with
        fg := { s.fg with upc := (if readBit (.ovf .t0) s = true then 9 else 8), f := some (readBit (.ovf .t0) s) } }) ∧
      (s.fg.upc = 9 → exec i s = .next (atLabel 10 (writeBit (.run .t0) false s))) ∧
      (s.fg.upc = 10 → k ≠ 1 → exec i s =
        .next (atLabel 5 (onFg (fun fg => { fg with loop := some (k - 1) }) (writeBit (.ovf .t0) false s)))) ∧
      (s.fg.upc = 10 → k = 1 → exec i s =
        .next (complete 0 (onFg (fun fg => { fg with loop := some 0 }) (writeBit (.ovf .t0) false s)))))

/-- 70_reset_and_hazards.md R155: "`DELAYUS 0` and `DELAYMS 0` change no cell and complete at once", issued as command
words through `step`, the schedule and the host's list being the model's (log 2, log 5). -/
def Obligations.ZeroDelayChangesNoCell : Prop := ∀ (w : Word) (rest : List Word) (es : List Event) (s : State),
  (w = 0x0A000000 ∨ w = 0x0B000000) → s.sched = .issue :: es → s.commands = w :: rest → s.fg.busy = false →
  s.hs = [] →
  ∃ t, step s = .next t ∧ t.regs = s.regs ∧ t.hs = s.hs ∧ t.fg.busy = false ∧ t.responses = 0 :: s.responses ∧
    t.commands = rest

/-! ## Frames -/

/-- 40_register_primitives.md R76 to R82: what CFGMODE, LOADCNT, START, STOP and RDOVF leave unchanged in each of their
steps: every cell they may not write, the handlers, and everything beside the foreground. -/
def Obligations.RegisterPrimitivesFrame : Prop := ∀ (i : Instr) (s s' : State),
  (i.opcode = .cfgmode ∨ i.opcode = .loadcnt ∨ i.opcode = .start ∨ i.opcode = .stop ∨ i.opcode = .rdovf) →
  exec i s = .next s' → ExecFrame i s s'

/-- 41_interrupt_tick.md R86 to R89: what IRQMODE.OFF, IRQMODE.ON, INITTICK and RDTICK leave unchanged in each of their
steps; none of them writes `TICK`, and only INITTICK writes `PRV`. -/
def Obligations.InterruptTickFrame : Prop := ∀ (i : Instr) (s s' : State),
  (i.opcode = .irqmodeOff ∨ i.opcode = .irqmodeOn ∨ i.opcode = .inittick ∨ i.opcode = .rdtick) →
  exec i s = .next s' → ExecFrame i s s'

/-- 42_delay.md R95: what the delays leave unchanged in each of their steps: Timer 1's cells, `IEN`, `GIE`, `PRV` and
`TICK`; and Timer 1's nibble of `MODE` too wherever the latch `T` holds what `MODE` holds. -/
def Obligations.DelayFrame : Prop := ∀ (i : Instr) (s s' : State),
  (i.opcode = .delayus ∨ i.opcode = .delayms) → exec i s = .next s' →
  ExecFrame i s s' ∧
  ((writesModeNext i s.fg.upc = true → s.fg.t = some (readByte .mode s)) →
    readByte .mode s' &&& 0xF0 = readByte .mode s &&& 0xF0)

/-! ## The operations as wholes, no other agent stepping in between -/

/-- 70_reset_and_hazards.md R156: an operation without a loop completes after exactly its number of steps: it is busy
after its issue and after each step but the last, and the last answers the host. -/
def Obligations.StraightOperationTakesItsSteps : Prop := ∀ (i : Instr) (s : State),
  hasSteps i = true → isDelay i = false → s.fg.busy = false →
  (∀ m, m < labelCount s.cfg i →
    ∃ t, execTimes (1 + m) i s = .next t ∧ t.fg.busy = true ∧ t.responses = s.responses) ∧
  ∃ t v, execTimes (1 + labelCount s.cfg i) i s = .next t ∧ t.fg.busy = false ∧ t.responses = v :: s.responses

/-- 40_register_primitives.md R77, 70_reset_and_hazards.md R154 (a): LOADCNT as a whole leaves the timer's count equal
to the value and every other cell, `OVF` among them, as it was. -/
def Obligations.LoadcntWhole : Prop := ∀ (a : Byte) (imm : Half) (t : Timer) (s : State),
  (a = 0 ∧ t = .t0 ∨ a = 1 ∧ t = .t1) → s.fg.busy = false →
  ∃ s', execTimes 3 (.loadcnt a imm) s = .next s' ∧ s'.fg.busy = false ∧ s'.responses = 0 :: s.responses ∧
    countOf t s' = imm ∧ (∀ b, readBit b s' = readBit b s) ∧
    ∀ c, c ≠ .cl t → c ≠ .ch t → readByte c s' = readByte c s

/-- 70_reset_and_hazards.md R154 (b), 40_register_primitives.md R79, R80: after STOP completes the run bit and the flag
are 0, and RDOVF issued next answers 0. -/
def Obligations.StopThenRdovfAnswersZero : Prop := ∀ (a : Byte) (t : Timer) (s : State),
  (a = 0 ∧ t = .t0 ∨ a = 1 ∧ t = .t1) → s.fg.busy = false →
  ∃ s' s'', execTimes 3 (.stop a) s = .next s' ∧ s'.fg.busy = false ∧ readBit (.run t) s' = false ∧
    readBit (.ovf t) s' = false ∧ execTimes 2 (.rdovf a) s' = .next s'' ∧ s''.fg.busy = false ∧
    s''.responses = 0 :: 0 :: s.responses ∧ s''.regs = s'.regs

/-- 41_interrupt_tick.md R86: IRQMODE.ON as a whole: 16-bit mode in the timer's nibble, the value loaded, the line
unmasked, the timer running, interrupts globally unmasked, and nothing else changed, `PRV` and the flag least of all. -/
def Obligations.IrqmodeOnWhole : Prop := ∀ (a : Byte) (imm : Half) (t : Timer) (s : State),
  (a = 0 ∧ t = .t0 ∨ a = 1 ∧ t = .t1) → s.fg.busy = false →
  ∃ s', execTimes 10 (.irqmodeOn a imm) s = .next s' ∧ s'.fg.busy = false ∧ s'.responses = 0 :: s.responses ∧
    readByte .mode s' =
      (readByte .mode s &&& ~~~(if a = 0 then 0x0F else 0xF0 : Byte)) ||| ((0x01 : Byte) <<< (4 * a.toNat)) ∧
    countOf t s' = imm ∧ readBit (.ien t) s' = true ∧ readBit (.run t) s' = true ∧ readBit .gie s' = true ∧
    prvOf s' = prvOf s ∧ tickOf s' = tickOf s ∧ countOf t.other s' = countOf t.other s ∧
    readBit (.ien t.other) s' = readBit (.ien t.other) s ∧ readBit (.run t.other) s' = readBit (.run t.other) s ∧
    ∀ u, readBit (.ovf u) s' = readBit (.ovf u) s

/-- 41_interrupt_tick.md R88: INITTICK as a whole caches the reload value in `PRV` and does what IRQMODE.ON does with
it; `TICK` goes on from its value. -/
def Obligations.InittickWhole : Prop := ∀ (a c : Byte) (t : Timer) (u : TickUnit) (s : State),
  (a = 0 ∧ t = .t0 ∨ a = 1 ∧ t = .t1) → (c = 0 ∧ u = .ms ∨ c = 1 ∧ u = .us) → s.fg.busy = false →
  ∃ s', execTimes 12 (.inittick a c) s = .next s' ∧ s'.fg.busy = false ∧ s'.responses = 0 :: s.responses ∧
    prvOf s' = reload s.cfg u ∧ countOf t s' = reload s.cfg u ∧
    readByte .mode s' =
      (readByte .mode s &&& ~~~(if a = 0 then 0x0F else 0xF0 : Byte)) ||| ((0x01 : Byte) <<< (4 * a.toNat)) ∧
    readBit (.ien t) s' = true ∧ readBit (.run t) s' = true ∧ readBit .gie s' = true ∧ tickOf s' = tickOf s ∧
    countOf t.other s' = countOf t.other s ∧ readBit (.ien t.other) s' = readBit (.ien t.other) s ∧
    readBit (.run t.other) s' = readBit (.run t.other) s ∧ ∀ v, readBit (.ovf v) s' = readBit (.ovf v) s

/-- 41_interrupt_tick.md R89, 92_eei_decisions.md D18: RDTICK as a whole answers the tick counter, and leaves `GIE` at 1
under `GIE_RESTORE = set` and at what it was under `saved`; every other cell is as it was. -/
def Obligations.RdtickWhole : Prop := ∀ s : State, s.fg.busy = false →
  ∃ s', execTimes (1 + labelCount s.cfg .rdtick) .rdtick s = .next s' ∧ s'.fg.busy = false ∧
    s'.responses = tickOf s :: s.responses ∧
    s'.regs = { s.regs with gie := if s.cfg.gieRestore = .saved then s.regs.gie else true }

/-! ## The operations in every run -/

/-- 40_register_primitives.md R76, 70_reset_and_hazards.md R152: in every run, whatever the other agents do, a CFGMODE
that has just been answered has left `(MODE_before & ~NibbleMask(A)) | (f << k)`. -/
def Obligations.CfgmodeInEveryRun : Prop :=
  ∀ (a b c : Byte) (es : List Event) (r : Word) (s s' : State),
  a.toNat < 2 → b.toNat < 2 → c.toNat < 4 →
  s.fg.busy = true → s.fg.instr = some (.cfgmode a b c) → s.fg.upc = 1 →
  (∀ e ∈ es, e ≠ .reset) → runOn es s = .next s' → s'.responses = r :: s.responses → s'.fg.busy = false →
  r = 0 ∧ readByte .mode s' =
    (readByte .mode s &&& ~~~(if a = 0 then 0x0F else 0xF0 : Byte)) ||| ((c ||| (b <<< 2)) <<< (4 * a.toNat))

/-- 70_reset_and_hazards.md R152: nibble isolation in every step of every state that keeps the invariant: no step but
`Reset` changes a nibble of `MODE` other than the one of the timer the current command names, and with no command for
timer `t` in progress timer `t`'s nibble stays. -/
def Obligations.NibbleOfTheOtherTimerStays : Prop := ∀ (e : Event) (t : Timer) (s s' : State),
  Inv s → e ≠ .reset → runEvent e s = .next s' →
  (∀ i, s.fg.instr = some i → e = .fgStep → match i with
    | .cfgmode a _ _ => timerOf a = some t.other
    | .irqmodeOn a _ => timerOf a = some t.other
    | .inittick a _ => timerOf a = some t.other
    | .delayus _ => t = .t1
    | .delayms _ => t = .t1
    | _ => True) →
  readByte .mode s' &&& nibbleMask t = readByte .mode s &&& nibbleMask t

/-- 41_interrupt_tick.md R90: the atomicity law. In every run that begins with `S1` of RDTICK, under either value of
`GIE_RESTORE` and of `NESTING`: until the answer, no handler is entered and `TICK` stays what it was at `S1`; and the
first answer after it is that value. -/
def Obligations.RdtickIsAtomic : Prop := ∀ (es : List Event) (s s' : State),
  s.fg.busy = true → s.fg.instr = some .rdtick → s.fg.upc = 1 → s.hs = [] →
  (∀ e ∈ es, e ≠ .reset) → runOn (.fgStep :: es) s = .next s' →
  (s'.responses = s.responses ∧ tickOf s' = tickOf s ∧ s'.hs = [] ∧ readBit .gie s' = false) ∨
  ∃ later, s'.responses = later ++ tickOf s :: s.responses

/-- 42_delay.md R97 (e), R99, 95_test_vectors.md V47: the lower bound of a delay. From its issue, under R99's
precondition (`IEN[0] = 0` or `GIE = 0`), with no handler of Timer 0 in service, its flag clear and the timer stopped, a
delay is answered only after at least `n * N` count events of Timer 0, `N` being the count events from `Reload(u)` to the overflow. -/
def Obligations.DelayLastsAtLeastItsCounts : Prop :=
  ∀ (i : Instr) (u : TickUnit) (n : Half) (es : List Event) (s s' : State),
  (i = .delayus n ∧ u = .us ∨ i = .delayms n ∧ u = .ms) → n ≠ 0 →
  s.fg.busy = true → s.fg.instr = some i → s.fg.upc = 1 →
  s.fg.r = some (reload s.cfg u) → s.fg.loop = some n →
  DelayPrecondition s → (∀ f ∈ s.hs, f.t ≠ .t0) → readBit (.ovf .t0) s = false →
  readBit (.run .t0) s = false →
  (∀ e ∈ es, e ≠ .reset) → runOn es s = .next s' → s'.responses ≠ s.responses →
  n.toNat * (65536 - (reload s.cfg u).toNat) ≤ countTaken (fun e => e == .count .t0) es s

/-- 42_delay.md R98, R99, 00_scope.md R11: a delay in progress completes in every fair run in which no timer interrupt
can be dispatched: with `Count(0)`, while its selector is Timer, and the foreground's step weakly fair, the host is
answered. That neither timer's interrupt is enabled is asked for because a Timer 1 tick can starve the foreground
(70_reset_and_hazards.md R148; log 16). -/
def Obligations.DelayCompletesInFairRuns : Prop :=
  ∀ (i : Instr) (σ : Nat → State) (ε : Nat → Event),
  IsRun σ ε → WeaklyFair .fgStep σ ε → FairCount .t0 σ ε → (∀ n, ε n ≠ .reset) →
  Inv (σ 0) → InterruptsOff (σ 0) → (σ 0).hs = [] → (σ 0).fg.busy = true → (σ 0).fg.instr = some i →
  isDelay i = true → (σ 0).fg.upc = 1 →
  ∃ n, (σ n).fg.busy = false ∧ (σ n).responses = 0 :: (σ 0).responses

/-! ## The reload function -/

/-- 41_interrupt_tick.md R85: the reload function, both readings of `RELOAD_CLAMP`, over the naturals and integers. -/
def Obligations.ReloadFormula : Prop := ∀ (p : Config.Params) (u : TickUnit),
  let ticks := p.oscHz / ((match u with | .ms => 1000 | .us => 1000000) * 12)
  (p.reloadClamp = .truncate → ((reload p u).toNat : Int) = (65536 - (ticks : Int)) % 65536) ∧
  (p.reloadClamp = .saturate → ((reload p u).toNat : Int) = min 65535 (max 0 (65536 - (ticks : Int)))) ∧
  (1 ≤ ticks → ticks ≤ 65536 → (reload p u).toNat = 65536 - ticks)

/-! ## The counting hardware -/

/-- 60_exceptions.md R101: `Count(t)` is enabled exactly when `RUN[t] = 1`, whatever the selector and bit 3; a stopped
timer holds: its count event leaves the state as it was (log 2). -/
def Obligations.CountNeedsTheRunBit : Prop := ∀ (t : Timer) (s : State),
  (enabled (.count t) s = true ↔ readBit (.run t) s = true) ∧
  (readBit (.run t) s = false → runEvent (.count t) s = .next s)

/-- 60_exceptions.md R102: one count event in mode 1, for either selector: the count plus one modulo 65536, the flag
set exactly on a wrap and never cleared, nothing else written. -/
def Obligations.CountInMode1 : Prop := ∀ (t : Timer) (s : State),
  readBit (.run t) s = true → timerMode t s = .bit16 →
  ∃ s', runEvent (.count t) s = .next s' ∧ countOf t s' = countOf t s + 1 ∧
    readBit (.ovf t) s' = (readBit (.ovf t) s || countOf t s == 0xFFFF) ∧
    (∀ c, c ≠ .cl t → c ≠ .ch t → readByte c s' = readByte c s) ∧
    (∀ b, b ≠ .ovf t → readBit b s' = readBit b s) ∧ s' = { s with regs := s'.regs }

/-- 60_exceptions.md R103: the count-to-overflow law: from a clear flag, with no other step in between, the flag is set
by exactly the `N`-th count event, `N = 65536 - V`, or 65536 for `V = 0`. -/
def Obligations.CountToOverflow : Prop := ∀ (t : Timer) (s : State) (N : Nat),
  readBit (.run t) s = true → timerMode t s = .bit16 → readBit (.ovf t) s = false →
  N = (if countOf t s = 0 then 65536 else 65536 - (countOf t s).toNat) →
  (∀ k, k < N → ∃ u, runOn (List.replicate k (.count t)) s = .next u ∧ readBit (.ovf t) u = false ∧
    countOf t u = countOf t s + BitVec.ofNat 16 k) ∧
  ∃ u, runOn (List.replicate N (.count t)) s = .next u ∧ readBit (.ovf t) u = true ∧ countOf t u = 0

/-- 60_exceptions.md R104, 93_implementation_defined.md G3: a count event of a timer in mode 0, 2 or 3 by the value of
`OTHER_MODE_COUNT`: refused, or both count registers of that timer and its flag drawn (nothing is said of the values
drawn), or the 8051-family behaviour. How `mcs51` divides the events is the model's (log 12). -/
def Obligations.CountInOtherModes : Prop :=
  (∀ s : State, enabled .countHigh s = true ↔
    s.cfg.otherModeCount = .mcs51 ∧ timerMode .t0 s = .split8 ∧ readBit (.run .t1) s = true) ∧
  (∀ s : State, enabled .countHigh s = true → ∃ s', runEvent .countHigh s = .next s' ∧
    readByte (.ch .t0) s' = readByte (.ch .t0) s + 1 ∧
    readBit (.ovf .t1) s' = (readBit (.ovf .t1) s || readByte (.ch .t0) s == 0xFF) ∧
    (∀ c, c ≠ .ch .t0 → readByte c s' = readByte c s) ∧ ∀ b, b ≠ .ovf .t1 → readBit b s' = readBit b s) ∧
  ∀ (t : Timer) (s : State), readBit (.run t) s = true → timerMode t s ≠ .bit16 →
  (s.cfg.otherModeCount = .refuse → runEvent (.count t) s = .refused (.otherModeCount t (timerMode t s))) ∧
  (s.cfg.otherModeCount = .any → ∃ s', runEvent (.count t) s = .next s' ∧
    (readBit (.ovf t) s = true → readBit (.ovf t) s' = true) ∧
    (∀ c, c ≠ .cl t → c ≠ .ch t → readByte c s' = readByte c s) ∧
    (∀ b, b ≠ .ovf t → readBit b s' = readBit b s)) ∧
  (s.cfg.otherModeCount = .mcs51 → ∃ s', runEvent (.count t) s = .next s' ∧
    (timerMode t s = .free13 →
      (readByte (.ch t) s').toNat * 32 + (readByte (.cl t) s').toNat % 32 =
        ((readByte (.ch t) s).toNat * 32 + (readByte (.cl t) s).toNat % 32 + 1) % 8192 ∧
      (readByte (.cl t) s').toNat / 32 = (readByte (.cl t) s).toNat / 32 ∧
      readBit (.ovf t) s' =
        (readBit (.ovf t) s || (readByte (.ch t) s == 0xFF && readByte (.cl t) s &&& 0x1F == 0x1F))) ∧
    (timerMode t s = .auto8 →
      readByte (.cl t) s' =
        (if readByte (.cl t) s = 0xFF then readByte (.ch t) s else readByte (.cl t) s + 1) ∧
      readByte (.ch t) s' = readByte (.ch t) s ∧
      readBit (.ovf t) s' = (readBit (.ovf t) s || readByte (.cl t) s == 0xFF)) ∧
    (timerMode t s = .split8 → t = .t1 → s' = s) ∧
    (timerMode t s = .split8 → t = .t0 →
      readByte (.cl .t0) s' = readByte (.cl .t0) s + 1 ∧ readByte (.ch .t0) s' = readByte (.ch .t0) s ∧
      readBit (.ovf .t0) s' = (readBit (.ovf .t0) s || readByte (.cl .t0) s == 0xFF)))

/-! ## Interrupts and the reload handler -/

/-- 60_exceptions.md R110, R108: when `Dispatch(t)` is enabled; under `DISPATCH_ORDER = t0_first`, when both could be
taken, Timer 1's is not (the reading of `t0_first` is the model's, log 18). -/
def Obligations.DispatchEnabledExactlyWhen : Prop := ∀ (s : State) (ready : Timer → Prop),
  (∀ t, ready t ↔
    readBit (.ovf t) s = true ∧ readBit (.ien t) s = true ∧ readBit .gie s = true ∧ (∀ f ∈ s.hs, f.t ≠ t) ∧
      (s.hs = [] ∨ s.cfg.nesting = .cross)) →
  (enabled (.dispatch .t0) s = true ↔ ready .t0) ∧
  (enabled (.dispatch .t1) s = true ↔ ready .t1 ∧ (s.cfg.dispatchOrder = .free ∨ ¬ ready .t0))

/-- 60_exceptions.md R111: what `Dispatch(t)` does: it clears the flag and pushes the frame at `H1`; nothing else
changes, no mask and nothing of the foreground. -/
def Obligations.DispatchEntersTheHandler : Prop := ∀ (t : Timer) (s : State), enabled (.dispatch t) s = true →
  runEvent (.dispatch t) s =
    .next { writeBit (.ovf t) false s with
      hs := { t := t, upc := .h1, tt := none, tickread := false, raced := false } :: s.hs }

/-- 60_exceptions.md R112, R115, R117: the four steps of the handler of the frame on top, for either timer: reload the
low byte, reload the high byte, read `TICK`, write it back plus one modulo `2^32` and return. -/
def Obligations.HandlerSteps : Prop := ∀ (f : Frame) (below : List Frame) (s : State), s.hs = f :: below →
  (f.upc = .h1 → runEvent .hStep s =
    .next { writeByte (.cl f.t) (readByte .prvL s) s with hs := { f with upc := .h2 } :: below }) ∧
  (f.upc = .h2 → runEvent .hStep s =
    .next { writeByte (.ch f.t) (readByte .prvH s) s with hs := { f with upc := .h3 } :: below }) ∧
  (f.upc = .h3 → runEvent .hStep s =
    .next { s with hs := { f with upc := .h4, tt := some (tickOf s), tickread := true } :: below }) ∧
  (∀ v, f.upc = .h4 → f.raced = false → f.tt = some v → ∃ s', runEvent .hStep s = .next s' ∧
    tickOf s' = v + 1 ∧ s'.hs = below.map markRaced ∧ s'.fg = s.fg ∧ s'.draws = s.draws ∧ s'.responses = s.responses ∧
    (∀ c, (∀ k, c ≠ .tick k) → readByte c s' = readByte c s) ∧ ∀ b, readBit b s' = readBit b s)

/-- 60_exceptions.md R112, R116, R117: every `H4`, of a raced frame too, pops its frame and makes raced every other frame
that has read `TICK` and not written it; it touches no cell but `TICK` and nothing of the foreground; and the `H4` of a
raced frame writes a drawn value. The draw is a constant nothing is known of, applied to the count of draws (log 3): the
statement holds whatever its values. -/
def Obligations.NestedRaceIsADraw : Prop := ∀ (f : Frame) (below : List Frame) (s : State),
  s.hs = f :: below → f.upc = .h4 →
  ∃ s', runEvent .hStep s = .next s' ∧ s'.hs = below.map markRaced ∧ s'.fg = s.fg ∧ s'.responses = s.responses ∧
    s'.commands = s.commands ∧
    (∀ g ∈ below, g.tickread = true → { g with raced := true } ∈ s'.hs) ∧
    (∀ g ∈ below, g.tickread = false → g ∈ s'.hs) ∧
    (∀ c, (∀ k, c ≠ .tick k) → readByte c s' = readByte c s) ∧ (∀ b, readBit b s' = readBit b s) ∧
    (f.raced = true → tickOf s' = Config.freeWord s.draws ∧ s'.draws = s.draws + 1)

/-- 60_exceptions.md R111 to R117, 95_test_vectors.md V33: a dispatch and its handler with no other step in between:
the flag is clear, the timer's count is `PRV`, `TICK` has advanced by one modulo `2^32`, nothing is in service, and
nothing else has changed. -/
def Obligations.DispatchedHandlerRunsThrough : Prop := ∀ (t : Timer) (s : State),
  enabled (.dispatch t) s = true → s.hs = [] →
  ∃ s', runOn [.dispatch t, .hStep, .hStep, .hStep, .hStep] s = .next s' ∧ s'.hs = [] ∧
    readBit (.ovf t) s' = false ∧ countOf t s' = prvOf s ∧ tickOf s' = tickOf s + 1 ∧
    (∀ b, b ≠ .ovf t → readBit b s' = readBit b s) ∧ readByte .mode s' = readByte .mode s ∧ prvOf s' = prvOf s ∧
    countOf t.other s' = countOf t.other s ∧ s'.fg = s.fg ∧ s'.responses = s.responses

/-- 70_reset_and_hazards.md R153, 60_exceptions.md R114, R115: where handlers do not nest, `TICK` advances, modulo
`2^32`, by exactly one for each dispatch taken whose handler has returned, in every run without a reset. -/
def Obligations.TickCountsTheServedDispatches : Prop := ∀ (es : List Event) (s s' : State),
  Inv s → s.cfg.nesting = .none → (∀ f ∈ s.hs, f.raced = false ∧ (f.tickread = true → f.tt = some (tickOf s))) →
  (∀ e ∈ es, e ≠ .reset) → runOn es s = .next s' →
  tickOf s' + BitVec.ofNat 32 s'.hs.length =
    tickOf s + BitVec.ofNat 32 s.hs.length +
      BitVec.ofNat 32 (countTaken (fun e => e == .dispatch .t0 || e == .dispatch .t1) es s)

/-! ## Reset -/

/-- 10_state.md R40: what `State.reset` holds: every cell 0, `FG.busy = 0`, no operation, `HS` empty, every working
latch without a value. -/
def Obligations.ResetValues : Prop :=
  (∀ c, readByte c State.reset = 0x00) ∧ (∀ b, readBit b State.reset = false) ∧ State.reset.fg.busy = false ∧
  State.reset.fg.op = none ∧ State.reset.hs = [] ∧ State.reset.fg.t = none ∧ State.reset.fg.f = none ∧
  State.reset.fg.r = none ∧ State.reset.fg.loop = none ∧ State.reset.fg.snap0 = none ∧
  State.reset.fg.snap1 = none ∧ State.reset.fg.snap2 = none ∧ State.reset.fg.snap3 = none ∧
  State.reset.fg.g = none

/-- 70_reset_and_hazards.md R130, R132: a `Reset`, taken at any time, puts every cell at its reset value, the foreground
idle with no operation, the handler stack empty and every working latch without a value, all as in the state right after
reset, and answers nothing. That the parameters stay (log 8), and the zeros of the operand latches and the label (log 7),
are the model's choices. -/
def Obligations.ResetAbandonsAll : Prop := ∀ s : State,
  ∃ t, runEvent .reset s = .next t ∧ (∀ c, readByte c t = 0x00) ∧ (∀ b, readBit b t = false) ∧ t.fg.busy = false ∧
    t.fg.op = none ∧ t.hs = [] ∧ t.fg.t = none ∧ t.fg.f = none ∧ t.fg.r = none ∧ t.fg.loop = none ∧
    t.fg.snap0 = none ∧ t.fg.snap1 = none ∧ t.fg.snap2 = none ∧ t.fg.snap3 = none ∧ t.fg.g = none ∧
    t.regs = State.reset.regs ∧ t.fg = State.reset.fg ∧ t.responses = s.responses ∧ t.cfg = s.cfg

/-- 10_state.md R41, 70_reset_and_hazards.md R131: right after reset no agent but the host has an enabled step. -/
def Obligations.AfterResetOnlyTheHostSteps : Prop := ∀ (e : Event) (s : State),
  s.regs = State.reset.regs → s.fg = State.reset.fg → s.hs = State.reset.hs → enabled e s = true →
  e = .issue ∨ e = .reset

/-! ## Whole-machine rules -/

/-- 10_state.md R34: the access matrix, as what a step of each agent may change: `MODE`, `RUN`, `IEN`, `GIE` and `PRV`
only by the foreground; the count registers by the foreground, that timer's handler and the counting hardware; `TICK`
only by a handler; a flag is set only by a count and cleared only by the foreground or that timer's dispatch. `Reset` is
the one other writer (70_reset_and_hazards.md R130). -/
def Obligations.OnlyTheMatrixWrites : Prop := ∀ (e : Event) (s s' : State),
  runEvent e s = .next s' → e ≠ .reset →
  (readByte .mode s' ≠ readByte .mode s → e = .fgStep) ∧
  (∀ t, readBit (.run t) s' ≠ readBit (.run t) s → e = .fgStep) ∧
  (∀ t, readBit (.ien t) s' ≠ readBit (.ien t) s → e = .fgStep) ∧
  (readBit .gie s' ≠ readBit .gie s → e = .fgStep) ∧
  (prvOf s' ≠ prvOf s → e = .fgStep) ∧
  (tickOf s' ≠ tickOf s → e = .hStep ∧ ∃ f below, s.hs = f :: below ∧ f.upc = .h4) ∧
  (∀ t, countOf t s' ≠ countOf t s → e = .fgStep ∨ e = .count t ∨ (e = .countHigh ∧ t = .t0) ∨
    e = .hStep ∧ ∃ f below, s.hs = f :: below ∧ f.t = t) ∧
  (∀ t, readBit (.ovf t) s = false → readBit (.ovf t) s' = true →
    e = .count t ∨ e = .countHigh ∧ t = .t1) ∧
  (∀ t, readBit (.ovf t) s = true → readBit (.ovf t) s' = false → e = .fgStep ∨ e = .dispatch t)

/-- 00_scope.md R14, R15, 70_reset_and_hazards.md R132: one answer for each command. In every step but `Reset` the
answers given, the words waiting and the command in progress add up to the same number, so a word taken turns into a
command in progress or an answer, and a command in progress ends only in an answer; a `Reset` drops the command in
progress without one. A step answers at most once, only from an `Issue` or a foreground step, and leaves the foreground
idle when it does; only an `Issue` takes a command from the host's list, one at a time. Both lists are the model's
(log 5). -/
def Obligations.OneAnswerPerCommand : Prop := ∀ (e : Event) (s s' : State), runEvent e s = .next s' →
  (e ≠ .reset → s'.responses.length + awaited s' = s.responses.length + awaited s) ∧
  (e = .reset → s'.responses = s.responses ∧ s'.commands = s.commands ∧ s'.fg.busy = false) ∧
  (s'.responses = s.responses ∨
    (∃ v, s'.responses = v :: s.responses) ∧ s'.fg.busy = false ∧ (e = .issue ∨ e = .fgStep)) ∧
  (s'.commands = s.commands ∨ e = .issue ∧ ∃ w, s.commands = w :: s'.commands)

/-- 00_scope.md R6 (the parameters are fixed for a machine), 70_reset_and_hazards.md R130: no step, `Reset` among them,
changes a parameter. The field is the model's own (log 1). -/
def Obligations.ParametersNeverChange : Prop := ∀ s s' : State, step s = .next s' → s'.cfg = s.cfg

/-- 10_state.md R24, R35, R38, R39: the machine's invariant holds right after reset. -/
def Obligations.InvariantHoldsAfterReset : Prop := Inv State.reset

/-- 10_state.md R24 (bit 3 of each mode field is 0), R35 and R38 (the foreground is at a label of its command, no
working latch is read before it is written), R39 (at most one frame per timer, at most one without nesting): every step
keeps the invariant. -/
def Obligations.EveryStepKeepsTheInvariant : Prop := ∀ s s' : State, Inv s → step s = .next s' → Inv s'

/-- 00_scope.md R12: no operation faults or traps: in every state that keeps the invariant a step answers a next state,
but for a count event of a running timer whose mode is not 1, refused under `OTHER_MODE_COUNT = refuse`
(60_exceptions.md R104). Refusing at the event, and going on after a step that is not enabled, are the model's choices
(log 10, log 2). -/
def Obligations.OnlyOtherModeCountsAreRefused : Prop := ∀ s : State, Inv s →
  (∃ s', step s = .next s') ∨
  ∃ t, (nextEvent s).1 = .count t ∧ readBit (.run t) s = true ∧ timerMode t s ≠ .bit16 ∧
    s.cfg.otherModeCount = .refuse ∧ step s = .refused (.otherModeCount t (timerMode t s))

/-- 00_scope.md R13, 70_reset_and_hazards.md R132: the end of a run. In a run without a reset the commands have all
completed as soon as none waits, the foreground is idle and no handler is in service; a run in which a `Reset` abandons
a command never comes to that; a run that comes to it is finished at one of its states, the first such; and from there
on, until a reset, the responses, the foreground, `MODE`, `RUN`, `IEN`, `GIE` and `PRV` stay as they are, whatever the
timers and the handlers still do. The host's list is the model's (log 5), and that a command in progress where the run
begins counts as one of its commands (log 22). -/
def Obligations.FinishedRun : Prop :=
  (∀ (es : List Event) (s s' : State), (∀ e ∈ es, e ≠ .reset) → runOn es s = .next s' →
    (AllCompleted s s' ↔ s'.commands = [] ∧ s'.fg.busy = false ∧ s'.hs = [])) ∧
  (∀ (es fs : List Event) (s u s' : State), runOn es s = .next u → u.fg.busy = true →
    runOn (.reset :: fs) u = .next s' → ¬ AllCompleted s s') ∧
  (∀ (es : List Event) (s s' : State), runOn es s = .next s' → AllCompleted s s' →
    ∃ k, k ≤ es.length ∧ Finished (es.take k) s ∧ ∀ j, j ≤ es.length → Finished (es.take j) s → j = k) ∧
  (∀ (es fs : List Event) (s s' t : State), runOn es s = .next s' → Finished es s → (∀ e ∈ fs, e ≠ .reset) →
    runOn fs s' = .next t →
    t.responses = s'.responses ∧ t.fg = s'.fg ∧ t.commands = [] ∧ readByte .mode t = readByte .mode s' ∧
    (∀ u, readBit (.run u) t = readBit (.run u) s') ∧ (∀ u, readBit (.ien u) t = readBit (.ien u) s') ∧
    readBit .gie t = readBit .gie s' ∧ prvOf t = prvOf s')
end

