-- ==== Sys2Proof/Laws/State.lean ====
section
/-! SUPPORT. One lemma per field of `State` per shared operation: what the operation leaves in it. -/

namespace Sys2Proof.Machine

open Sys2Proof

@[simp] theorem writeByte_regs (c : ByteCell) (v : Byte) (s : State) :
    (writeByte c v s).regs = s.regs.writeByte c v := rfl

@[simp] theorem writeByte_fg (c : ByteCell) (v : Byte) (s : State) :
    (writeByte c v s).fg = s.fg := rfl

@[simp] theorem writeByte_hs (c : ByteCell) (v : Byte) (s : State) :
    (writeByte c v s).hs = s.hs := rfl

@[simp] theorem writeByte_cfg (c : ByteCell) (v : Byte) (s : State) :
    (writeByte c v s).cfg = s.cfg := rfl

@[simp] theorem writeByte_sched (c : ByteCell) (v : Byte) (s : State) :
    (writeByte c v s).sched = s.sched := rfl

@[simp] theorem writeByte_commands (c : ByteCell) (v : Byte) (s : State) :
    (writeByte c v s).commands = s.commands := rfl

@[simp] theorem writeByte_responses (c : ByteCell) (v : Byte) (s : State) :
    (writeByte c v s).responses = s.responses := rfl

@[simp] theorem writeByte_draws (c : ByteCell) (v : Byte) (s : State) :
    (writeByte c v s).draws = s.draws := rfl

@[simp] theorem writeBit_regs (b : BitCell) (v : Bool) (s : State) :
    (writeBit b v s).regs = s.regs.writeBit b v := rfl

@[simp] theorem writeBit_fg (b : BitCell) (v : Bool) (s : State) :
    (writeBit b v s).fg = s.fg := rfl

@[simp] theorem writeBit_hs (b : BitCell) (v : Bool) (s : State) :
    (writeBit b v s).hs = s.hs := rfl

@[simp] theorem writeBit_cfg (b : BitCell) (v : Bool) (s : State) :
    (writeBit b v s).cfg = s.cfg := rfl

@[simp] theorem writeBit_sched (b : BitCell) (v : Bool) (s : State) :
    (writeBit b v s).sched = s.sched := rfl

@[simp] theorem writeBit_commands (b : BitCell) (v : Bool) (s : State) :
    (writeBit b v s).commands = s.commands := rfl

@[simp] theorem writeBit_responses (b : BitCell) (v : Bool) (s : State) :
    (writeBit b v s).responses = s.responses := rfl

@[simp] theorem writeBit_draws (b : BitCell) (v : Bool) (s : State) :
    (writeBit b v s).draws = s.draws := rfl

@[simp] theorem onFg_regs (f : Fg → Fg) (s : State) :
    (onFg f s).regs = s.regs := rfl

@[simp] theorem onFg_fg (f : Fg → Fg) (s : State) :
    (onFg f s).fg = f s.fg := rfl

@[simp] theorem onFg_hs (f : Fg → Fg) (s : State) :
    (onFg f s).hs = s.hs := rfl

@[simp] theorem onFg_cfg (f : Fg → Fg) (s : State) :
    (onFg f s).cfg = s.cfg := rfl

@[simp] theorem onFg_sched (f : Fg → Fg) (s : State) :
    (onFg f s).sched = s.sched := rfl

@[simp] theorem onFg_commands (f : Fg → Fg) (s : State) :
    (onFg f s).commands = s.commands := rfl

@[simp] theorem onFg_responses (f : Fg → Fg) (s : State) :
    (onFg f s).responses = s.responses := rfl

@[simp] theorem onFg_draws (f : Fg → Fg) (s : State) :
    (onFg f s).draws = s.draws := rfl

@[simp] theorem complete_regs (v : Word) (s : State) :
    (complete v s).regs = s.regs := rfl

@[simp] theorem complete_fg (v : Word) (s : State) :
    (complete v s).fg = { s.fg with busy := false } := rfl

@[simp] theorem complete_hs (v : Word) (s : State) :
    (complete v s).hs = s.hs := rfl

@[simp] theorem complete_cfg (v : Word) (s : State) :
    (complete v s).cfg = s.cfg := rfl

@[simp] theorem complete_sched (v : Word) (s : State) :
    (complete v s).sched = s.sched := rfl

@[simp] theorem complete_commands (v : Word) (s : State) :
    (complete v s).commands = s.commands := rfl

@[simp] theorem complete_responses (v : Word) (s : State) :
    (complete v s).responses = v :: s.responses := rfl

@[simp] theorem complete_draws (v : Word) (s : State) :
    (complete v s).draws = s.draws := rfl

@[simp] theorem setTop_regs (f : Frame) (s : State) :
    (setTop f s).regs = s.regs := rfl

@[simp] theorem setTop_fg (f : Frame) (s : State) :
    (setTop f s).fg = s.fg := rfl

@[simp] theorem setTop_hs (f : Frame) (s : State) :
    (setTop f s).hs = f :: s.hs.tail := rfl

@[simp] theorem setTop_cfg (f : Frame) (s : State) :
    (setTop f s).cfg = s.cfg := rfl

@[simp] theorem setTop_sched (f : Frame) (s : State) :
    (setTop f s).sched = s.sched := rfl

@[simp] theorem setTop_commands (f : Frame) (s : State) :
    (setTop f s).commands = s.commands := rfl

@[simp] theorem setTop_responses (f : Frame) (s : State) :
    (setTop f s).responses = s.responses := rfl

@[simp] theorem setTop_draws (f : Frame) (s : State) :
    (setTop f s).draws = s.draws := rfl

@[simp] theorem returnFromHandler_regs (s : State) :
    (returnFromHandler s).regs = s.regs := rfl

@[simp] theorem returnFromHandler_fg (s : State) :
    (returnFromHandler s).fg = s.fg := rfl

@[simp] theorem returnFromHandler_hs (s : State) :
    (returnFromHandler s).hs = s.hs.tail := rfl

@[simp] theorem returnFromHandler_cfg (s : State) :
    (returnFromHandler s).cfg = s.cfg := rfl

@[simp] theorem returnFromHandler_sched (s : State) :
    (returnFromHandler s).sched = s.sched := rfl

@[simp] theorem returnFromHandler_commands (s : State) :
    (returnFromHandler s).commands = s.commands := rfl

@[simp] theorem returnFromHandler_responses (s : State) :
    (returnFromHandler s).responses = s.responses := rfl

@[simp] theorem returnFromHandler_draws (s : State) :
    (returnFromHandler s).draws = s.draws := rfl

@[simp] theorem takeInterrupt_regs (t : Timer) (s : State) :
    (takeInterrupt t s).regs = s.regs.writeBit (.ovf t) false := rfl

@[simp] theorem takeInterrupt_fg (t : Timer) (s : State) :
    (takeInterrupt t s).fg = s.fg := rfl

@[simp] theorem takeInterrupt_hs (t : Timer) (s : State) :
    (takeInterrupt t s).hs = { t := t, upc := .h1, tt := none, tickread := false, raced := false } :: s.hs := rfl

@[simp] theorem takeInterrupt_cfg (t : Timer) (s : State) :
    (takeInterrupt t s).cfg = s.cfg := rfl

@[simp] theorem takeInterrupt_sched (t : Timer) (s : State) :
    (takeInterrupt t s).sched = s.sched := rfl

@[simp] theorem takeInterrupt_commands (t : Timer) (s : State) :
    (takeInterrupt t s).commands = s.commands := rfl

@[simp] theorem takeInterrupt_responses (t : Timer) (s : State) :
    (takeInterrupt t s).responses = s.responses := rfl

@[simp] theorem takeInterrupt_draws (t : Timer) (s : State) :
    (takeInterrupt t s).draws = s.draws := rfl

@[simp] theorem resetStep_regs (s : State) :
    (resetStep s).regs = Regs.reset := rfl

@[simp] theorem resetStep_fg (s : State) :
    (resetStep s).fg = Fg.reset := rfl

@[simp] theorem resetStep_hs (s : State) :
    (resetStep s).hs = [] := rfl

@[simp] theorem resetStep_cfg (s : State) :
    (resetStep s).cfg = s.cfg := rfl

@[simp] theorem resetStep_sched (s : State) :
    (resetStep s).sched = s.sched := rfl

@[simp] theorem resetStep_commands (s : State) :
    (resetStep s).commands = s.commands := rfl

@[simp] theorem resetStep_responses (s : State) :
    (resetStep s).responses = s.responses := rfl

@[simp] theorem resetStep_draws (s : State) :
    (resetStep s).draws = s.draws := rfl

@[simp] theorem fetched_regs (w : Word) (rest : List Word) (s : State) :
    (fetched w rest s).regs = s.regs := rfl

@[simp] theorem fetched_fg (w : Word) (rest : List Word) (s : State) :
    (fetched w rest s).fg = { s.fg with a := fieldA w, b := fieldB w, c := fieldC w } := rfl

@[simp] theorem fetched_hs (w : Word) (rest : List Word) (s : State) :
    (fetched w rest s).hs = s.hs := rfl

@[simp] theorem fetched_cfg (w : Word) (rest : List Word) (s : State) :
    (fetched w rest s).cfg = s.cfg := rfl

@[simp] theorem fetched_sched (w : Word) (rest : List Word) (s : State) :
    (fetched w rest s).sched = s.sched := rfl

@[simp] theorem fetched_commands (w : Word) (rest : List Word) (s : State) :
    (fetched w rest s).commands = rest := rfl

@[simp] theorem fetched_responses (w : Word) (rest : List Word) (s : State) :
    (fetched w rest s).responses = s.responses := rfl

@[simp] theorem fetched_draws (w : Word) (rest : List Word) (s : State) :
    (fetched w rest s).draws = s.draws := rfl

@[simp] theorem begin_regs (op : Opcode) (base : Nat) (prep : Fg → Fg) (s : State) :
    (begin op base prep s).regs = s.regs := rfl

@[simp] theorem begin_hs (op : Opcode) (base : Nat) (prep : Fg → Fg) (s : State) :
    (begin op base prep s).hs = s.hs := rfl

@[simp] theorem begin_cfg (op : Opcode) (base : Nat) (prep : Fg → Fg) (s : State) :
    (begin op base prep s).cfg = s.cfg := rfl

@[simp] theorem begin_sched (op : Opcode) (base : Nat) (prep : Fg → Fg) (s : State) :
    (begin op base prep s).sched = s.sched := rfl

@[simp] theorem begin_commands (op : Opcode) (base : Nat) (prep : Fg → Fg) (s : State) :
    (begin op base prep s).commands = s.commands := rfl

@[simp] theorem begin_responses (op : Opcode) (base : Nat) (prep : Fg → Fg) (s : State) :
    (begin op base prep s).responses = s.responses := rfl

@[simp] theorem begin_draws (op : Opcode) (base : Nat) (prep : Fg → Fg) (s : State) :
    (begin op base prep s).draws = s.draws := rfl

@[simp] theorem setCount_fg (t : Timer) (v : Half) (s : State) :
    (setCount t v s).fg = s.fg := rfl

@[simp] theorem setCount_hs (t : Timer) (v : Half) (s : State) :
    (setCount t v s).hs = s.hs := rfl

@[simp] theorem setCount_cfg (t : Timer) (v : Half) (s : State) :
    (setCount t v s).cfg = s.cfg := rfl

@[simp] theorem setCount_sched (t : Timer) (v : Half) (s : State) :
    (setCount t v s).sched = s.sched := rfl

@[simp] theorem setCount_commands (t : Timer) (v : Half) (s : State) :
    (setCount t v s).commands = s.commands := rfl

@[simp] theorem setCount_responses (t : Timer) (v : Half) (s : State) :
    (setCount t v s).responses = s.responses := rfl

@[simp] theorem setCount_draws (t : Timer) (v : Half) (s : State) :
    (setCount t v s).draws = s.draws := rfl

@[simp] theorem setTick_fg (v : Word) (s : State) :
    (setTick v s).fg = s.fg := rfl

@[simp] theorem setTick_hs (v : Word) (s : State) :
    (setTick v s).hs = s.hs := rfl

@[simp] theorem setTick_cfg (v : Word) (s : State) :
    (setTick v s).cfg = s.cfg := rfl

@[simp] theorem setTick_sched (v : Word) (s : State) :
    (setTick v s).sched = s.sched := rfl

@[simp] theorem setTick_commands (v : Word) (s : State) :
    (setTick v s).commands = s.commands := rfl

@[simp] theorem setTick_responses (v : Word) (s : State) :
    (setTick v s).responses = s.responses := rfl

@[simp] theorem setTick_draws (v : Word) (s : State) :
    (setTick v s).draws = s.draws := rfl

end Sys2Proof.Machine
end

