-- ==== Sys2Proof/Laws/Cells.lean ====
section
/-! SUPPORT. The basic laws of the register space: a read returns the last write to that cell, a write leaves every
other cell alone (20_memory.md R50), and what the wide views and the other operations do to a cell. -/

namespace Sys2Proof.Machine

open Sys2Proof

/-! ## Two-valued types -/

theorem timer_cases (t : Timer) : t = .t0 ∨ t = .t1 := by cases t <;> simp

@[simp] theorem other_ne (t : Timer) : t.other ≠ t := by cases t <;> decide

@[simp] theorem ne_other (t : Timer) : t ≠ t.other := by cases t <;> decide

theorem timer_eq_or_other (t u : Timer) : u = t ∨ u = t.other := by cases t <;> cases u <;> simp [Timer.other]

/-! ## Reads after writes -/

theorem Regs.read_writeByte (c c' : ByteCell) (v : Byte) (r : Regs) :
    (r.writeByte c' v).readByte c = if c = c' then v else r.readByte c := by
  match c, c' with
  | .tick i, .tick j => fin_cases i <;> fin_cases j <;> rfl
  | .tick i, .mode | .tick i, .prvL | .tick i, .prvH => fin_cases i <;> rfl
  | .tick i, .cl t | .tick i, .ch t => fin_cases i <;> cases t <;> rfl
  | .mode, .tick j | .prvL, .tick j | .prvH, .tick j => fin_cases j <;> rfl
  | .cl t, .tick j | .ch t, .tick j => fin_cases j <;> cases t <;> rfl
  | .cl t, .cl u | .cl t, .ch u | .ch t, .cl u | .ch t, .ch u => cases t <;> cases u <;> rfl
  | .cl t, .mode | .cl t, .prvL | .cl t, .prvH => cases t <;> rfl
  | .ch t, .mode | .ch t, .prvL | .ch t, .prvH => cases t <;> rfl
  | .mode, .cl t | .prvL, .cl t | .prvH, .cl t => cases t <;> rfl
  | .mode, .ch t | .prvL, .ch t | .prvH, .ch t => cases t <;> rfl
  | .mode, .mode | .mode, .prvL | .mode, .prvH => rfl
  | .prvL, .mode | .prvL, .prvL | .prvL, .prvH => rfl
  | .prvH, .mode | .prvH, .prvL | .prvH, .prvH => rfl

theorem Regs.read_writeBit (b b' : BitCell) (v : Bool) (r : Regs) :
    (r.writeBit b' v).readBit b = if b = b' then v else r.readBit b := by
  match b, b' with
  | .run t, .run u | .run t, .ovf u | .run t, .ien u => cases t <;> cases u <;> rfl
  | .ovf t, .run u | .ovf t, .ovf u | .ovf t, .ien u => cases t <;> cases u <;> rfl
  | .ien t, .run u | .ien t, .ovf u | .ien t, .ien u => cases t <;> cases u <;> rfl
  | .run t, .gie | .ovf t, .gie | .ien t, .gie => cases t <;> rfl
  | .gie, .run t | .gie, .ovf t | .gie, .ien t => cases t <;> rfl
  | .gie, .gie => rfl

theorem Regs.readByte_writeBit (c : ByteCell) (b : BitCell) (v : Bool) (r : Regs) :
    (r.writeBit b v).readByte c = r.readByte c := by
  cases b with
  | gie => rfl
  | run t | ovf t | ien t => cases t <;> rfl

theorem Regs.readBit_writeByte (b : BitCell) (c : ByteCell) (v : Byte) (r : Regs) :
    (r.writeByte c v).readBit b = r.readBit b := by
  cases c with
  | mode | prvL | prvH => rfl
  | cl t | ch t => cases t <;> rfl
  | tick i => fin_cases i <;> rfl

/-- A read of a byte cell returns the last write to it, and a write to another cell does not change it. -/
theorem readByte_writeByte (c c' : ByteCell) (v : Byte) (s : State) :
    readByte c (writeByte c' v s) = if c = c' then v else readByte c s := s.regs.read_writeByte c c' v

@[simp] theorem readByte_writeByte_same (c : ByteCell) (v : Byte) (s : State) :
    readByte c (writeByte c v s) = v := by simp [readByte_writeByte]

@[simp] theorem readByte_writeByte_ne (c c' : ByteCell) (v : Byte) (s : State) (h : c ≠ c') :
    readByte c (writeByte c' v s) = readByte c s := by simp [readByte_writeByte, h]

/-- A read of a bit cell returns the last write to it, and a write to another cell does not change it. -/
theorem readBit_writeBit (b b' : BitCell) (v : Bool) (s : State) :
    readBit b (writeBit b' v s) = if b = b' then v else readBit b s := s.regs.read_writeBit b b' v

@[simp] theorem readBit_writeBit_same (b : BitCell) (v : Bool) (s : State) :
    readBit b (writeBit b v s) = v := by simp [readBit_writeBit]

@[simp] theorem readBit_writeBit_ne (b b' : BitCell) (v : Bool) (s : State) (h : b ≠ b') :
    readBit b (writeBit b' v s) = readBit b s := by simp [readBit_writeBit, h]

@[simp] theorem readByte_writeBit (c : ByteCell) (b : BitCell) (v : Bool) (s : State) :
    readByte c (writeBit b v s) = readByte c s := s.regs.readByte_writeBit c b v

@[simp] theorem readBit_writeByte (b : BitCell) (c : ByteCell) (v : Byte) (s : State) :
    readBit b (writeByte c v s) = readBit b s := s.regs.readBit_writeByte b c v

/-! ## Operations that touch no cell -/

/-- Cells are read from `regs` alone. -/
theorem readByte_congr {s s' : State} (h : s'.regs = s.regs) (c : ByteCell) : readByte c s' = readByte c s := by
  simp [readByte, h]

/-- Cells are read from `regs` alone. -/
theorem readBit_congr {s s' : State} (h : s'.regs = s.regs) (b : BitCell) : readBit b s' = readBit b s := by
  simp [readBit, h]

@[simp] theorem readByte_onFg (c : ByteCell) (f : Fg → Fg) (s : State) : readByte c (onFg f s) = readByte c s := rfl

@[simp] theorem readBit_onFg (b : BitCell) (f : Fg → Fg) (s : State) : readBit b (onFg f s) = readBit b s := rfl

@[simp] theorem readByte_complete (c : ByteCell) (v : Word) (s : State) :
    readByte c (complete v s) = readByte c s := rfl

@[simp] theorem readBit_complete (b : BitCell) (v : Word) (s : State) : readBit b (complete v s) = readBit b s := rfl

@[simp] theorem readByte_begin (c : ByteCell) (op : Opcode) (base : Nat) (prep : Fg → Fg) (s : State) :
    readByte c (begin op base prep s) = readByte c s := rfl

@[simp] theorem readBit_begin (b : BitCell) (op : Opcode) (base : Nat) (prep : Fg → Fg) (s : State) :
    readBit b (begin op base prep s) = readBit b s := rfl

@[simp] theorem readByte_fetched (c : ByteCell) (w : Word) (rest : List Word) (s : State) :
    readByte c (fetched w rest s) = readByte c s := rfl

@[simp] theorem readBit_fetched (b : BitCell) (w : Word) (rest : List Word) (s : State) :
    readBit b (fetched w rest s) = readBit b s := rfl

@[simp] theorem readByte_setTop (c : ByteCell) (f : Frame) (s : State) : readByte c (setTop f s) = readByte c s := rfl

@[simp] theorem readBit_setTop (b : BitCell) (f : Frame) (s : State) : readBit b (setTop f s) = readBit b s := rfl

@[simp] theorem readByte_returnFromHandler (c : ByteCell) (s : State) :
    readByte c (returnFromHandler s) = readByte c s := rfl

@[simp] theorem readBit_returnFromHandler (b : BitCell) (s : State) :
    readBit b (returnFromHandler s) = readBit b s := rfl

@[simp] theorem readByte_takeInterrupt (c : ByteCell) (t : Timer) (s : State) :
    readByte c (takeInterrupt t s) = readByte c s := s.regs.readByte_writeBit c (.ovf t) false

theorem readBit_takeInterrupt (b : BitCell) (t : Timer) (s : State) :
    readBit b (takeInterrupt t s) = if b = .ovf t then false else readBit b s :=
  s.regs.read_writeBit b (.ovf t) false

/-- The sequencer's move touches no cell. -/
@[simp] theorem advance_regs (r : State × Seq) : (advance r).regs = r.1.regs := by
  obtain ⟨s, q⟩ := r; cases q <;> rfl

@[simp] theorem readByte_advance (c : ByteCell) (r : State × Seq) : readByte c (advance r) = readByte c r.1 :=
  readByte_congr (advance_regs r) c

@[simp] theorem readBit_advance (b : BitCell) (r : State × Seq) : readBit b (advance r) = readBit b r.1 :=
  readBit_congr (advance_regs r) b

@[simp] theorem advance_next (s : State) :
    advance (s, .next) = onFg (fun fg => { fg with upc := fg.upc + 1 }) s := rfl

@[simp] theorem advance_goto (s : State) (k : Nat) :
    advance (s, .goto k) = onFg (fun fg => { fg with upc := k }) s := rfl

@[simp] theorem advance_done (s : State) (v : Word) : advance (s, .done v) = complete v s := rfl

/-! ## Wide views -/

@[simp] theorem loByte_joinHalf (h l : Byte) : loByte (joinHalf h l) = l := by
  unfold loByte joinHalf
  ext i hi
  rw [BitVec.getElem_extractLsb']
  exact BitVec.getLsbD_append.trans (by simp [hi])

@[simp] theorem hiByte_joinHalf (h l : Byte) : hiByte (joinHalf h l) = h := by
  unfold hiByte joinHalf
  ext i hi
  rw [BitVec.getElem_extractLsb']
  exact BitVec.getLsbD_append.trans (by simp [hi])

@[simp] theorem joinHalf_hi_lo (v : Half) : joinHalf (hiByte v) (loByte v) = v := by
  unfold hiByte loByte joinHalf
  ext i hi
  simp only [BitVec.getElem_append, BitVec.getElem_extractLsb']
  split
  · simp [BitVec.getLsbD_eq_getElem hi]
  · have : 8 + (i - 8) = i := by omega
    simp [this, BitVec.getLsbD_eq_getElem hi]

@[simp] theorem joinWord_bytes (v : Word) :
    joinWord (wordByte v 3) (wordByte v 2) (wordByte v 1) (wordByte v 0) = v := by
  unfold wordByte joinWord joinHalf
  ext i hi
  simp only [BitVec.getElem_append, BitVec.getElem_extractLsb']
  have e : v[i] = v.getLsbD i := (BitVec.getLsbD_eq_getElem hi).symm
  split <;> split <;> (rw [e]; congr 1; simp; try omega)

@[simp] theorem countOf_setCount (t : Timer) (v : Half) (s : State) : countOf t (setCount t v s) = v := by
  simp [countOf, setCount]

@[simp] theorem countOf_setCount_ne (t u : Timer) (v : Half) (s : State) (h : u ≠ t) :
    countOf u (setCount t v s) = countOf u s := by
  simp [countOf, setCount, h]

@[simp] theorem tickOf_setTick (v : Word) (s : State) : tickOf (setTick v s) = v := by
  simp [tickOf, setTick]

end Sys2Proof.Machine
end

