-- ==== Sys2Proof/Laws/Counting.lean ====
section
/-! SUPPORT. What a count event can do (60_exceptions.md R102, R104; 93_implementation_defined.md G3): one lemma per
shared operation, cited in place of its definition. -/

namespace Sys2Proof.Machine

open Sys2Proof

/-! ## Raising the flag -/

theorem raiseOvf_true (t : Timer) (s : State) : raiseOvf t true s = writeBit (.ovf t) true s := rfl

theorem raiseOvf_false (t : Timer) (s : State) : raiseOvf t false s = s := rfl

@[simp] theorem readByte_raiseOvf (c : ByteCell) (t : Timer) (w : Bool) (s : State) :
    readByte c (raiseOvf t w s) = readByte c s := by
  cases w <;> simp [raiseOvf_true, raiseOvf_false]

@[simp] theorem readBit_raiseOvf_same (t : Timer) (w : Bool) (s : State) :
    readBit (.ovf t) (raiseOvf t w s) = (readBit (.ovf t) s || w) := by
  cases w <;> simp [raiseOvf_true, raiseOvf_false]

@[simp] theorem readBit_raiseOvf_ne (b : BitCell) (t : Timer) (w : Bool) (s : State) (h : b ≠ .ovf t) :
    readBit b (raiseOvf t w s) = readBit b s := by
  cases w <;> simp [raiseOvf_true, raiseOvf_false, h]

@[simp] theorem countOf_raiseOvf (u t : Timer) (w : Bool) (s : State) :
    countOf u (raiseOvf t w s) = countOf u s := by simp [countOf]

/-- Raising the flag changes nothing but cells. -/
theorem raiseOvf_rest (t : Timer) (w : Bool) (s : State) :
    raiseOvf t w s = { s with regs := (raiseOvf t w s).regs } := by cases w <;> rfl

/-! ## The increments -/

/-- The 16-bit count wraps exactly from `0xFFFF`. -/
theorem inc16_wraps (v : Half) : (inc16 v).2 = (v == 0xFFFF) := by
  rw [Bool.eq_iff_iff]
  simp only [inc16, beq_iff_eq]
  bv_omega

/-- The 8-bit count wraps exactly from `0xFF`. -/
theorem inc8_wraps (v : Byte) : (inc8 v).2 = (v == 0xFF) := by
  rw [Bool.eq_iff_iff]
  simp only [inc8, beq_iff_eq]
  bv_omega

/-- The low five bits of the 13-bit count, and the three bits above them, which stay. -/
theorem inc13_low (cl : Byte) :
    ((cl &&& 0x1F) + 1 == 0x20) = decide (cl.toNat % 32 = 31) ∧
    (cl &&& 0x1F == 0x1F) = decide (cl.toNat % 32 = 31) ∧
    ((cl &&& 0xE0) ||| (((cl &&& 0x1F) + 1) &&& 0x1F)).toNat % 32 = (cl.toNat % 32 + 1) % 32 ∧
    ((cl &&& 0xE0) ||| (((cl &&& 0x1F) + 1) &&& 0x1F)).toNat / 32 = cl.toNat / 32 := by
  revert cl; decide

/-- The upper eight bits of the 13-bit count. -/
theorem inc13_high (ch : Byte) :
    (ch + 1 == 0) = decide (ch.toNat = 255) ∧ (ch == 0xFF) = decide (ch.toNat = 255) ∧
    (ch + 1).toNat = (ch.toNat + 1) % 256 := by
  revert ch; decide

/-- The 13-bit increment: the count plus one modulo 8192, the three bits outside it kept, a wrap from all ones. -/
theorem inc13_spec (ch cl : Byte) :
    (inc13 ch cl).1.1.toNat * 32 + (inc13 ch cl).1.2.toNat % 32 = (ch.toNat * 32 + cl.toNat % 32 + 1) % 8192 ∧
    (inc13 ch cl).1.2.toNat / 32 = cl.toNat / 32 ∧
    (inc13 ch cl).2 = (ch == 0xFF && cl &&& 0x1F == 0x1F) := by
  obtain ⟨l1, l2, l3, l4⟩ := inc13_low cl
  obtain ⟨h1, h2, h3⟩ := inc13_high ch
  have := ch.isLt
  refine ⟨?_, by simp only [inc13, l4], ?_⟩
  · simp only [inc13, l1]
    by_cases h : cl.toNat % 32 = 31
    · simp only [h, decide_true, if_true, l3, h3]; omega
    · simp only [h, decide_false, Bool.false_eq_true, if_false, l3]; omega
  · simp only [inc13, l1, l2]
    by_cases h : cl.toNat % 32 = 31
    · simp only [h, decide_true, if_true, h1, h2, Bool.true_and, Bool.and_true]
    · simp only [h, decide_false, Bool.false_eq_true, if_false, Bool.false_and, Bool.and_false]

/-! ## The count events -/

/-- A count event in mode 1: the count plus one, the flag set on a wrap and never cleared, nothing else. -/
theorem count16_spec (t : Timer) (s : State) :
    countOf t (count16 t s) = countOf t s + 1 ∧
    readBit (.ovf t) (count16 t s) = (readBit (.ovf t) s || countOf t s == 0xFFFF) ∧
    (∀ c, c ≠ .cl t → c ≠ .ch t → readByte c (count16 t s) = readByte c s) ∧
    (∀ b, b ≠ .ovf t → readBit b (count16 t s) = readBit b s) ∧
    count16 t s = { s with regs := (count16 t s).regs } := by
  refine ⟨?_, ?_, fun c h1 h2 => ?_, fun b h => ?_, ?_⟩
  · simp only [count16, countOf_raiseOvf, countOf_setCount]; rfl
  · simp only [count16, readBit_raiseOvf_same, inc16_wraps, setCount, readBit_writeByte]
  · simp [count16, setCount, h1, h2]
  · simp [count16, setCount, h]
  · exact raiseOvf_rest t _ (setCount t _ s)

/-- The 8-bit counter in one byte cell. -/
theorem count8_spec (c : ByteCell) (t : Timer) (s : State) :
    readByte c (count8 c t s) = readByte c s + 1 ∧
    readBit (.ovf t) (count8 c t s) = (readBit (.ovf t) s || readByte c s == 0xFF) ∧
    (∀ c', c' ≠ c → readByte c' (count8 c t s) = readByte c' s) ∧
    (∀ b, b ≠ .ovf t → readBit b (count8 c t s) = readBit b s) ∧
    count8 c t s = { s with regs := (count8 c t s).regs } := by
  refine ⟨?_, ?_, fun c' h => ?_, fun b h => ?_, ?_⟩
  · simp only [count8, readByte_raiseOvf, readByte_writeByte_same]; rfl
  · simp only [count8, readBit_raiseOvf_same, inc8_wraps, readBit_writeByte]
  · simp [count8, h]
  · simp [count8, h]
  · exact raiseOvf_rest t _ (writeByte c _ s)

/-- What a count event of timer `t` may touch, in every mode and under every parameter: its two count registers and
its flag, which it never clears. A draw is counted. -/
theorem countStep_frame (t : Timer) (s s' : State) (h : countStep t s = .next s') :
    (∀ c, c ≠ .cl t → c ≠ .ch t → readByte c s' = readByte c s) ∧
    (∀ b, b ≠ .ovf t → readBit b s' = readBit b s) ∧
    (readBit (.ovf t) s = true → readBit (.ovf t) s' = true) ∧
    s'.fg = s.fg ∧ s'.hs = s.hs ∧ s'.cfg = s.cfg ∧ s'.sched = s.sched ∧ s'.commands = s.commands ∧
    s'.responses = s.responses := by
  have h16 : (∀ c, c ≠ .cl t → c ≠ .ch t → readByte c (count16 t s) = readByte c s) ∧
      (∀ b, b ≠ .ovf t → readBit b (count16 t s) = readBit b s) ∧
      (readBit (.ovf t) s = true → readBit (.ovf t) (count16 t s) = true) ∧
      (count16 t s).fg = s.fg ∧ (count16 t s).hs = s.hs ∧ (count16 t s).cfg = s.cfg ∧
      (count16 t s).sched = s.sched ∧ (count16 t s).commands = s.commands ∧
      (count16 t s).responses = s.responses := by
    obtain ⟨-, h2, h3, h4, h5⟩ := count16_spec t s
    refine ⟨h3, h4, fun h => by rw [h2, h, Bool.true_or], ?_⟩
    rw [h5]; exact ⟨rfl, rfl, rfl, rfl, rfl, rfl⟩
  have hr : ∀ w (u : State), (raiseOvf t w u).fg = u.fg ∧ (raiseOvf t w u).hs = u.hs ∧
      (raiseOvf t w u).cfg = u.cfg ∧ (raiseOvf t w u).sched = u.sched ∧
      (raiseOvf t w u).commands = u.commands ∧ (raiseOvf t w u).responses = u.responses := by
    intro w u; cases w <;> exact ⟨rfl, rfl, rfl, rfl, rfl, rfl⟩
  unfold countStep at h
  split at h
  · cases h; exact h16
  · split at h
    · cases h
    · cases h
      refine ⟨fun c h1 h2 => ?_, fun b hb => ?_, fun ho => ?_, hr _ _⟩
      · exact (readByte_raiseOvf c t _ _).trans (by simp [h1, h2])
      · exact (readBit_raiseOvf_ne b t _ _ hb).trans (by simp)
      · exact (readBit_raiseOvf_same t _ _).trans (by simp [ho])
    · cases h
      unfold countMcs51
      split
      · refine ⟨fun c h1 h2 => by simp [count13, h1, h2], fun b hb => by simp [count13, hb],
          fun ho => by simp [count13, ho], hr _ _⟩
      · exact h16
      · refine ⟨fun c h1 h2 => by simp [countAuto8, h1], fun b hb => by simp [countAuto8, hb],
          fun ho => by simp [countAuto8, ho], hr _ _⟩
      · cases t with
        | t0 =>
          obtain ⟨-, h2, h3, h4, h5⟩ := count8_spec (.cl .t0) .t0 s
          refine ⟨fun c h1 _ => h3 c h1, h4, fun ho => h2.trans (by simp [ho]), ?_⟩
          simp only [countSplit8]
          rw [h5]; exact ⟨rfl, rfl, rfl, rfl, rfl, rfl⟩
        | t1 => exact ⟨fun _ _ _ => rfl, fun _ _ => rfl, id, rfl, rfl, rfl, rfl, rfl, rfl⟩

end Sys2Proof.Machine
end

