-- ==== Sys2Proof/Laws/Encoding.lean ====
section
/-! SUPPORT. The fields of a command word put together and taken apart again (30_encoding.md R61). -/

namespace Sys2Proof

@[simp] theorem fieldOp_wordOfFields (op a : Byte) (imm : Half) : fieldOp (wordOfFields op a imm) = op := by
  unfold fieldOp wordOfFields
  ext i hi
  simp only [BitVec.getElem_extractLsb', BitVec.getLsbD_append]
  have h1 : ¬ 24 + i < 16 := by omega
  have h2 : ¬ 24 + i - 16 < 8 := by omega
  have h3 : 24 + i - 16 - 8 = i := by omega
  simp [h1, h2, h3, BitVec.getLsbD_eq_getElem hi]

@[simp] theorem fieldA_wordOfFields (op a : Byte) (imm : Half) : fieldA (wordOfFields op a imm) = a := by
  unfold fieldA wordOfFields
  ext i hi
  simp only [BitVec.getElem_extractLsb', BitVec.getLsbD_append]
  have h1 : ¬ 16 + i < 16 := by omega
  have h3 : 16 + i - 16 = i := by omega
  simp [h1, h3, hi]

@[simp] theorem fieldB_wordOfFields (op a : Byte) (imm : Half) :
    fieldB (wordOfFields op a imm) = imm.extractLsb' 8 8 := by
  unfold fieldB wordOfFields
  ext i hi
  simp only [BitVec.getElem_extractLsb', BitVec.getLsbD_append]
  have h1 : 8 + i < 16 := by omega
  simp [h1]

@[simp] theorem fieldC_wordOfFields (op a : Byte) (imm : Half) :
    fieldC (wordOfFields op a imm) = imm.extractLsb' 0 8 := by
  unfold fieldC wordOfFields
  ext i hi
  simp only [BitVec.getElem_extractLsb', BitVec.getLsbD_append]
  rw [if_pos (by omega)]

/-- The immediate is its two bytes. -/
@[simp] theorem immOf_bytes (imm : Half) : immOf (imm.extractLsb' 8 8) (imm.extractLsb' 0 8) = imm := by
  unfold immOf
  ext i hi
  simp only [BitVec.getElem_append, BitVec.getElem_extractLsb']
  split
  · simp [BitVec.getLsbD_eq_getElem hi]
  · have : 8 + (i - 8) = i := by omega
    simp [this, BitVec.getLsbD_eq_getElem hi]

@[simp] theorem immOf_high (b c : Byte) : (immOf b c).extractLsb' 8 8 = b := by
  unfold immOf
  ext i hi
  simp only [BitVec.getElem_extractLsb', BitVec.getLsbD_append]
  have h1 : ¬ 8 + i < 8 := by omega
  have h2 : 8 + i - 8 = i := by omega
  simp [h1, h2, BitVec.getLsbD_eq_getElem hi]

@[simp] theorem immOf_low (b c : Byte) : (immOf b c).extractLsb' 0 8 = c := by
  unfold immOf
  ext i hi
  simp only [BitVec.getElem_extractLsb', BitVec.getLsbD_append]
  rw [if_pos (by omega), Nat.zero_add, BitVec.getLsbD_eq_getElem hi]

/-- The opcode byte of an opcode is the byte the opcode map lists for it. -/
@[simp] theorem opcodeOfByte_opcodeByte (op : Opcode) : opcodeOfByte (opcodeByte op) = some op := by
  cases op <;> rfl

/-- A defined opcode is the opcode of no other byte. -/
theorem opcodeByte_of_opcodeOfByte (b : Byte) (op : Opcode) (h : opcodeOfByte b = some op) : opcodeByte op = b := by
  cases op <;> revert h <;> revert b <;> decide

/-- The encoder puts the operation's opcode byte in the word. -/
@[simp] theorem fieldOp_encode (i : Instr) : fieldOp (encode i) = opcodeByte i.opcode := by
  cases i <;> exact fieldOp_wordOfFields _ _ _

/-- Decoding chooses the operation by the opcode byte alone. -/
theorem decode_eq (w : Word) (op : Opcode) (h : opcodeOfByte (fieldOp w) = some op) :
    decode w = .ok (instrOfFields op (fieldA w) (fieldB w) (fieldC w)) := by
  simp [decode, h]

/-- What a decoded word was: its opcode, and the command its fields make. -/
theorem decode_ok (w : Word) (i : Instr) (h : decode w = .ok i) :
    opcodeOfByte (fieldOp w) = some i.opcode ∧ instrOfFields i.opcode (fieldA w) (fieldB w) (fieldC w) = i := by
  unfold decode at h
  cases ho : opcodeOfByte (fieldOp w) with
  | none => rw [ho] at h; cases h
  | some op =>
    rw [ho] at h
    cases h
    cases op <;> exact ⟨rfl, rfl⟩

end Sys2Proof
end

