-- ==== Sys2Proof/Laws/Exec.lean ====
section
/-! SUPPORT. What `exec` is, said once: a command with access steps is one micro-program under `operate`, every other
command is the no-op; and what a foreground step can do (00_scope.md R9, 40_register_primitives.md R75). -/

namespace Sys2Proof.Machine

open Sys2Proof

/-- The micro-program of a command, from its first label on; empty for a command without steps. -/
def programOf (p : Config.Params) (i : Instr) : List Micro :=
  match i with
  | .cfgmode a b c =>
    match timerOf a, ctSelOf b, modeSelOf c with
    | some t, some ct, some m => straight (fun _ => 0) (configAccesses t (modeField m ct))
    | _, _, _ => []
  | .loadcnt a imm =>
    match timerOf a with
    | some t => straight (fun _ => 0) (loadAccesses t (fun _ => imm))
    | none => []
  | .start a =>
    match timerOf a with
    | some t => straight (fun _ => 0) [writeBit (.run t) true]
    | none => []
  | .stop a =>
    match timerOf a with
    | some t => straight (fun _ => 0) (stopAccesses t)
    | none => []
  | .rdovf a =>
    match timerOf a with
    | some t => straight (fun s' => zextBit (latchF s'))
        [fun s' => onFg (fun fg => { fg with f := some (readBit (.ovf t) s') }) s']
    | none => []
  | .irqmodeOff a =>
    match timerOf a with
    | some t => straight (fun _ => 0) [writeBit (.ien t) false, writeBit .gie false]
    | none => []
  | .irqmodeOn a imm =>
    match timerOf a with
    | some t => straight (fun _ => 0) (irqOnAccesses t (fun _ => imm))
    | none => []
  | .inittick a c =>
    match timerOf a, unitOf c with
    | some t, some _ => straight (fun _ => 0) (cacheAccesses ++ irqOnAccesses t latchR)
    | _, _ => []
  | .rdtick =>
    match p.gieRestore with
    | .set => straight latchSnap rdtickSetAccesses
    | .saved => straight latchSnap rdtickSavedAccesses
  | .delayus _ => delayProgram
  | .delayms _ => delayProgram

/-- What a command computes on latches at its issue. -/
def prepOf (p : Config.Params) (i : Instr) (fg : Fg) : Fg :=
  match i with
  | .inittick _ c =>
    match unitOf c with
    | some u => { fg with r := some (reload p u) }
    | none => fg
  | .delayus n => { fg with r := some (reload p .us), loop := some n }
  | .delayms n => { fg with r := some (reload p .ms), loop := some n }
  | _ => fg

theorem validTimer_eq (a : Byte) : validTimer a = (timerOf a).isSome := by
  revert a; decide

theorem validCtSel_eq (b : Byte) : validCtSel b = (ctSelOf b).isSome := by
  revert b; decide

theorem validMode_eq (c : Byte) : validMode c = (modeSelOf c).isSome := by
  revert c; decide

theorem validUnit_eq (c : Byte) : validUnit c = (unitOf c).isSome := by
  revert c; decide

/-- A command with access steps is its micro-program under `operate`. -/
theorem exec_hasSteps (i : Instr) (s : State) (h : hasSteps i = true) :
    exec i s = operate i.opcode (firstLabel s.cfg i) (prepOf s.cfg i) (programOf s.cfg i) s := by
  cases i with
  | cfgmode a b c =>
    simp only [hasSteps, Instr.wellFormed, validTimer_eq, validCtSel_eq, validMode_eq, Bool.and_eq_true,
      Option.isSome_iff_exists] at h
    obtain ⟨⟨⟨t, ht⟩, ⟨ct, hct⟩⟩, ⟨m, hm⟩⟩ := h
    simp only [exec, execCfgmode, programOf, ht, hct, hm, Instr.opcode, firstLabel]
    rfl
  | loadcnt a imm | irqmodeOn a imm =>
    simp only [hasSteps, Instr.wellFormed, validTimer_eq, Option.isSome_iff_exists] at h
    obtain ⟨t, ht⟩ := h
    simp only [exec, execLoadcnt, execIrqmodeOn, programOf, ht, Instr.opcode, firstLabel]
    rfl
  | start a | stop a | rdovf a | irqmodeOff a =>
    simp only [hasSteps, Instr.wellFormed, validTimer_eq, Option.isSome_iff_exists] at h
    obtain ⟨t, ht⟩ := h
    simp only [exec, execStart, execStop, execRdovf, execIrqmodeOff, programOf, ht, Instr.opcode, firstLabel]
    rfl
  | inittick a c =>
    simp only [hasSteps, Instr.wellFormed, validTimer_eq, validUnit_eq, Bool.and_eq_true,
      Option.isSome_iff_exists] at h
    obtain ⟨⟨t, ht⟩, ⟨u, hu⟩⟩ := h
    have hp : prepOf s.cfg (.inittick a c) = fun fg => { fg with r := some (reload s.cfg u) } := by
      funext fg; simp [prepOf, hu]
    simp only [exec, execInittick, programOf, ht, hu, Instr.opcode, firstLabel, hp]
  | rdtick =>
    cases hg : s.cfg.gieRestore <;> simp only [exec, execRdtick, programOf, hg, Instr.opcode, firstLabel] <;> rfl
  | delayus n | delayms n =>
    have hn : n ≠ 0 := by simpa [hasSteps] using h
    simp only [exec, execDelayus, execDelayms, delay, if_neg hn, programOf, Instr.opcode, firstLabel]
    rfl

/-- A command without access steps is the no-op, in every state. -/
theorem exec_noSteps (i : Instr) (s : State) (h : hasSteps i = false) : exec i s = noOp s := by
  cases i with
  | cfgmode a b c =>
    simp only [hasSteps, Instr.wellFormed, validTimer_eq, validCtSel_eq, validMode_eq] at h
    cases ht : timerOf a <;> cases hb : ctSelOf b <;> cases hc : modeSelOf c <;>
      simp_all [exec, execCfgmode]
  | loadcnt a imm | irqmodeOn a imm =>
    simp only [hasSteps, Instr.wellFormed, validTimer_eq] at h
    cases ht : timerOf a <;> simp_all [exec, execLoadcnt, execIrqmodeOn]
  | start a | stop a | rdovf a | irqmodeOff a =>
    simp only [hasSteps, Instr.wellFormed, validTimer_eq] at h
    cases ht : timerOf a <;> simp_all [exec, execStart, execStop, execRdovf, execIrqmodeOff]
  | inittick a c =>
    simp only [hasSteps, Instr.wellFormed, validTimer_eq, validUnit_eq] at h
    cases ht : timerOf a <;> cases hu : unitOf c <;> simp_all [exec, execInittick]
  | rdtick => simp [hasSteps, Instr.wellFormed] at h
  | delayus n | delayms n =>
    have hn : n = 0 := by simpa [hasSteps] using h
    simp only [exec, execDelayus, execDelayms, delay, if_pos hn]

/-- An ill-formed command has no access steps. -/
theorem hasSteps_of_not_wellFormed (i : Instr) (h : i.wellFormed = false) : hasSteps i = false := by
  cases i <;> first | exact h | cases h

/-- A step of a straight-line micro-program: the k-th access, and the next label or, after the last, the response. -/
theorem straight_getElem? (result : State → Word) (l : List (State → State)) (k : Nat) :
    (straight result l)[k]? =
      l[k]?.map (fun e s => (e s, if k + 1 = l.length then Seq.done (result (e s)) else Seq.next)) := by
  induction l generalizing k with
  | nil => simp [straight]
  | cons e rest ih =>
    cases rest with
    | nil => cases k <;> simp [straight]
    | cons e' rest' =>
      cases k with
      | zero => simp [straight]
      | succ k => simp only [straight, List.getElem?_cons_succ, ih, List.length_cons, Nat.add_left_inj]

/-- What `operate` answers: an issue from an idle foreground, or the micro-step at the current label from a busy one. -/
theorem operate_next (op : Opcode) (base : Nat) (prep : Fg → Fg) (prog : List Micro) (s s' : State)
    (h : operate op base prep prog s = .next s') :
    (s.fg.busy = false ∧ s' = begin op base prep s) ∨
    (s.fg.busy = true ∧ base ≤ s.fg.upc ∧
      ∃ m, prog[s.fg.upc - base]? = some m ∧ s' = advance (m s)) := by
  unfold operate at h
  cases hb : s.fg.busy with
  | false => left; simp only [hb, Bool.false_eq_true, if_false] at h; cases h; exact ⟨rfl, rfl⟩
  | true =>
    right
    simp only [hb, if_true, microAt] at h
    by_cases hk : s.fg.upc < base
    · simp only [hk, if_true] at h; cases h
    · simp only [hk, if_false] at h
      cases hm : prog[s.fg.upc - base]? with
      | none => simp only [hm] at h; cases h
      | some m => simp only [hm] at h; cases h; exact ⟨rfl, Nat.le_of_not_lt hk, m, rfl, rfl⟩

/-- What `exec` answers, for any command: the no-op, the issue, or the micro-step at the current label. -/
theorem exec_next (i : Instr) (s s' : State) (h : exec i s = .next s') :
    (hasSteps i = false ∧ s' = complete 0 s) ∨
    (hasSteps i = true ∧ s.fg.busy = false ∧
      s' = begin i.opcode (firstLabel s.cfg i) (prepOf s.cfg i) s) ∨
    (hasSteps i = true ∧ s.fg.busy = true ∧ firstLabel s.cfg i ≤ s.fg.upc ∧
      ∃ m, (programOf s.cfg i)[s.fg.upc - firstLabel s.cfg i]? = some m ∧ s' = advance (m s)) := by
  cases hs : hasSteps i with
  | false => left; rw [exec_noSteps i s hs] at h; cases h; exact ⟨rfl, rfl⟩
  | true =>
    right
    rw [exec_hasSteps i s hs] at h
    rcases operate_next _ _ _ _ _ _ h with ⟨hb, e⟩ | ⟨hb, hk, m, hm, e⟩
    · exact .inl ⟨rfl, hb, e⟩
    · exact .inr ⟨rfl, hb, hk, m, hm, e⟩

/-- A busy foreground with a micro-step at its label takes it. -/
theorem exec_busy (i : Instr) (s : State) (m : Micro) (hs : hasSteps i = true) (hb : s.fg.busy = true)
    (hk : firstLabel s.cfg i ≤ s.fg.upc) (hm : (programOf s.cfg i)[s.fg.upc - firstLabel s.cfg i]? = some m) :
    exec i s = .next (advance (m s)) := by
  rw [exec_hasSteps i s hs, operate, hb, if_pos rfl, microAt, if_neg (Nat.not_lt.mpr hk), hm]

/-- An idle foreground issues a command with access steps. -/
theorem exec_idle (i : Instr) (s : State) (hs : hasSteps i = true) (hb : s.fg.busy = false) :
    exec i s = .next (begin i.opcode (firstLabel s.cfg i) (prepOf s.cfg i) s) := by
  rw [exec_hasSteps i s hs, operate, hb, if_neg (by simp)]

/-- A command's micro-program has as many steps as the spec counts (70_reset_and_hazards.md R156). -/
theorem programOf_length (p : Config.Params) (i : Instr) (h : hasSteps i = true) :
    (programOf p i).length = labelCount p i := by
  cases i with
  | cfgmode a b c =>
    simp only [hasSteps, Instr.wellFormed, validTimer_eq, validCtSel_eq, validMode_eq, Bool.and_eq_true,
      Option.isSome_iff_exists] at h
    obtain ⟨⟨⟨t, ht⟩, ⟨ct, hct⟩⟩, ⟨m, hm⟩⟩ := h
    simp only [programOf, ht, hct, hm]; rfl
  | loadcnt a imm | irqmodeOn a imm | start a | stop a | rdovf a | irqmodeOff a =>
    simp only [hasSteps, Instr.wellFormed, validTimer_eq, Option.isSome_iff_exists] at h
    obtain ⟨t, ht⟩ := h
    simp only [programOf, ht]; rfl
  | inittick a c =>
    simp only [hasSteps, Instr.wellFormed, validTimer_eq, validUnit_eq, Bool.and_eq_true,
      Option.isSome_iff_exists] at h
    obtain ⟨⟨t, ht⟩, ⟨u, hu⟩⟩ := h
    simp only [programOf, ht, hu]; rfl
  | rdtick => cases hg : p.gieRestore <;> simp only [programOf, hg, labelCount] <;> rfl
  | delayus n | delayms n => rfl

/-- No micro-step of a command answers the host, goes idle or takes a word by itself: only the sequencer's move does. -/
theorem micro_answers (i : Instr) (s : State) (m : Micro) (h : hasSteps i = true) (hm : m ∈ programOf s.cfg i) :
    (m s).1.responses = s.responses ∧ (m s).1.fg.busy = s.fg.busy ∧ (m s).1.commands = s.commands := by
  cases i with
  | cfgmode a b c =>
    simp only [hasSteps, Instr.wellFormed, validTimer_eq, validCtSel_eq, validMode_eq, Bool.and_eq_true,
      Option.isSome_iff_exists] at h
    obtain ⟨⟨⟨t, ht⟩, ⟨ct, hct⟩⟩, ⟨md, hmd⟩⟩ := h
    simp only [programOf, ht, hct, hmd, straight, configAccesses, List.mem_cons, List.not_mem_nil, or_false] at hm
    rcases hm with rfl | rfl | rfl | rfl <;> simp
  | loadcnt a imm | irqmodeOn a imm | start a | stop a | rdovf a | irqmodeOff a =>
    simp only [hasSteps, Instr.wellFormed, validTimer_eq, Option.isSome_iff_exists] at h
    obtain ⟨t, ht⟩ := h
    simp [programOf, ht, straight, loadAccesses, irqOnAccesses, configAccesses, stopAccesses] at hm
    rcases hm with rfl | rfl | rfl | rfl | rfl | rfl | rfl | rfl | rfl <;> simp
  | inittick a c =>
    simp only [hasSteps, Instr.wellFormed, validTimer_eq, validUnit_eq, Bool.and_eq_true,
      Option.isSome_iff_exists] at h
    obtain ⟨⟨t, ht⟩, ⟨u, hu⟩⟩ := h
    simp [programOf, ht, hu, straight, loadAccesses, irqOnAccesses, configAccesses, cacheAccesses] at hm
    rcases hm with rfl | rfl | rfl | rfl | rfl | rfl | rfl | rfl | rfl | rfl | rfl <;> simp
  | rdtick =>
    cases hg : s.cfg.gieRestore <;>
      simp [programOf, hg, straight, rdtickSetAccesses, rdtickSavedAccesses, snapAccesses] at hm
    · rcases hm with rfl | rfl | rfl | rfl | rfl | rfl <;> simp
    · rcases hm with rfl | rfl | rfl | rfl | rfl | rfl | rfl <;> simp
  | delayus n | delayms n =>
    simp [programOf, delayProgram, configAccesses, loadAccesses] at hm
    rcases hm with rfl | rfl | rfl | rfl | rfl | rfl | rfl | rfl | rfl | rfl <;> simp [delayPoll, delayClear]

/-- What `exec` does to the answers, for any command in any state: it leaves the foreground busy and answers nothing,
or it leaves it idle and answers once; it takes no word off the host's list. -/
theorem exec_answers (i : Instr) (s s' : State) (h : exec i s = .next s') :
    s'.commands = s.commands ∧
    (s'.fg.busy = true ∧ s'.responses = s.responses ∨
      s'.fg.busy = false ∧ ∃ v, s'.responses = v :: s.responses) := by
  rcases exec_next i s s' h with ⟨-, rfl⟩ | ⟨-, -, rfl⟩ | ⟨hs, hb, -, m, hm, rfl⟩
  · exact ⟨rfl, .inr ⟨rfl, 0, rfl⟩⟩
  · refine ⟨rfl, .inl ⟨?_, rfl⟩⟩
    cases i <;> simp only [begin, onFg, prepOf]
    split <;> rfl
  · obtain ⟨h1, h2, h3⟩ := micro_answers i s m hs (List.mem_of_getElem? hm)
    rw [hb] at h2
    cases hq : (m s).2 with
    | next => simp [advance, hq, h1, h2, h3]
    | goto k => simp [advance, hq, h1, h2, h3]
    | done v => simp [advance, hq, h1, h3]

end Sys2Proof.Machine
end

