-- ==== Sys2Proof/Laws/Handler.lean ====
section
/-! SUPPORT. What a dispatch and a handler step can do (60_exceptions.md R110 to R117), said once. -/

namespace Sys2Proof.Machine

open Sys2Proof

/-- The condition of a dispatch, clause by clause (60_exceptions.md R110). -/
theorem dispatchReady_iff (t : Timer) (s : State) :
    dispatchReady t s = true ↔
      readBit (.ovf t) s = true ∧ readBit (.ien t) s = true ∧ readBit .gie s = true ∧
      (∀ f ∈ s.hs, f.t ≠ t) ∧ (s.hs = [] ∨ s.cfg.nesting = .cross) := by
  simp [dispatchReady, pendingEnabled, and_assoc]

/-- A dispatch that is enabled is ready, whatever the order of two. -/
theorem dispatchReady_of_enabled (t : Timer) (s : State) (h : dispatchEnabled t s = true) :
    dispatchReady t s = true := by
  simp only [dispatchEnabled, Bool.and_eq_true] at h; exact h.1

/-- A frame already marked, or not between its read and its write, is left as it was. -/
theorem markRaced_of_not_tickread (f : Frame) (h : f.tickread = false) : markRaced f = f := by
  cases f; simp_all [markRaced]

/-- Marking changes the `raced` bit alone. -/
@[simp] theorem markRaced_t (f : Frame) : (markRaced f).t = f.t := rfl

@[simp] theorem markRaced_upc (f : Frame) : (markRaced f).upc = f.upc := rfl

@[simp] theorem markRaced_tt (f : Frame) : (markRaced f).tt = f.tt := rfl

@[simp] theorem markRaced_tickread (f : Frame) : (markRaced f).tickread = f.tickread := rfl

@[simp] theorem markRaced_raced (f : Frame) : (markRaced f).raced = (f.raced || f.tickread) := rfl

/-- The last step of a handler: `TICK` written, the frame gone, the stale copies marked, no other cell touched. -/
theorem handlerH4_spec (f : Frame) (s : State) :
    tickOf (handlerH4 f s) = tickWritten f s ∧ (handlerH4 f s).hs = s.hs.tail.map markRaced ∧
    (handlerH4 f s).draws = (if f.raced then s.draws + 1 else s.draws) ∧
    (∀ c, (∀ k, c ≠ .tick k) → readByte c (handlerH4 f s) = readByte c s) ∧
    (∀ b, readBit b (handlerH4 f s) = readBit b s) := by
  have e : (handlerH4 f s).regs = (setTick (tickWritten f s) s).regs := rfl
  refine ⟨?_, rfl, rfl, fun c hc => ?_, fun b => ?_⟩
  · exact (show tickOf (handlerH4 f s) = tickOf (setTick (tickWritten f s) s) from rfl).trans (tickOf_setTick _ _)
  · rw [readByte_congr e]; simp [setTick, hc]
  · rw [readBit_congr e]; simp [setTick]

/-- What a handler step may touch: its own timer's count registers and `TICK`; no bit cell, nothing of the foreground
and nothing of the host's. -/
theorem handlerStep_frame (f : Frame) (s : State) :
    (∀ c, c ≠ .cl f.t → c ≠ .ch f.t → (∀ k, c ≠ .tick k) → readByte c (handlerStep f s) = readByte c s) ∧
    (∀ b, readBit b (handlerStep f s) = readBit b s) ∧
    (handlerStep f s).fg = s.fg ∧ (handlerStep f s).cfg = s.cfg ∧ (handlerStep f s).sched = s.sched ∧
    (handlerStep f s).commands = s.commands ∧ (handlerStep f s).responses = s.responses := by
  unfold handlerStep
  split
  · refine ⟨fun c h1 _ _ => by simp [handlerH1, h1], fun b => by simp [handlerH1], rfl, rfl, rfl, rfl, rfl⟩
  · refine ⟨fun c _ h2 _ => by simp [handlerH2, h2], fun b => by simp [handlerH2], rfl, rfl, rfl, rfl, rfl⟩
  · refine ⟨fun c _ _ _ => by simp [handlerH3], fun b => by simp [handlerH3], rfl, rfl, rfl, rfl, rfl⟩
  · obtain ⟨-, -, -, h4, h5⟩ := handlerH4_spec f s
    exact ⟨fun c _ _ h3 => h4 c h3, h5, rfl, rfl, rfl, rfl, rfl⟩

/-- Only a handler's last step writes `TICK`. -/
theorem handlerStep_tick (f : Frame) (s : State) (h : f.upc ≠ .h4) (k : Fin 4) :
    readByte (.tick k) (handlerStep f s) = readByte (.tick k) s := by
  unfold handlerStep
  split
  · simp [handlerH1]
  · simp [handlerH2]
  · simp [handlerH3]
  · rename_i e; exact absurd e h

end Sys2Proof.Machine
end

