-- ==== Sys2Proof/Laws/PerInstr.lean ====
section
/-! SUPPORT. A statement made for each command as syntax: the encoder writes the command's own opcode byte, and the
decoder reads the command's own operation from it (30_encoding.md R65). -/

namespace Sys2Proof.Laws.OpcodeByte

open Sys2Proof

/-- The word the encoder writes for `i` carries `i`'s opcode byte, and that byte stands for `i`'s operation. -/
def Statement (i : Instr) : Prop :=
  fieldOp (encode i) = opcodeByte i.opcode ∧ opcodeOfByte (fieldOp (encode i)) = some i.opcode

/-- The statement holds of every command. -/
theorem holds (i : Instr) : Statement i := by simp [Statement]

theorem cfgmode (a b c : Byte) : Statement (.cfgmode a b c) := holds _

theorem loadcnt (a : Byte) (imm : Half) : Statement (.loadcnt a imm) := holds _

theorem start (a : Byte) : Statement (.start a) := holds _

theorem stop (a : Byte) : Statement (.stop a) := holds _

theorem rdovf (a : Byte) : Statement (.rdovf a) := holds _

theorem irqmodeOff (a : Byte) : Statement (.irqmodeOff a) := holds _

theorem irqmodeOn (a : Byte) (imm : Half) : Statement (.irqmodeOn a imm) := holds _

theorem inittick (a c : Byte) : Statement (.inittick a c) := holds _

theorem rdtick : Statement .rdtick := holds _

theorem delayus (imm : Half) : Statement (.delayus imm) := holds _

theorem delayms (imm : Half) : Statement (.delayms imm) := holds _

end Sys2Proof.Laws.OpcodeByte
end

