-- ==== Sys2Proof/Laws/Step.lean ====
section
/-! SUPPORT. What one step of one agent can do, said once: the eight kinds of step with their guards (00_scope.md
R9), and how runs are put together. -/

namespace Sys2Proof.Machine

open Sys2Proof

/-- A step that is not enabled leaves the state as it is. -/
theorem runEvent_disabled (e : Event) (s : State) (h : enabled e s = false) : runEvent e s = .next s := by
  simp [runEvent, h]

/-- A step that is enabled has its effect. -/
theorem runEvent_enabled (e : Event) (s : State) (h : enabled e s = true) : runEvent e s = effect e s := by
  simp [runEvent, h]

/-- Everything one step can do when it answers a next state: it was not enabled and nothing changed, or it is one of
the seven kinds, with what its guard says. -/
theorem runEvent_cases (e : Event) (s s' : State) (h : runEvent e s = .next s') :
    (enabled e s = false ∧ s' = s) ∨
    (e = .issue ∧ s.fg.busy = false ∧ s.hs = [] ∧ ∃ w rest, s.commands = w :: rest ∧
      ((∃ i, decode w = .ok i ∧ exec i (fetched w rest s) = .next s') ∨
        ((∃ r, decode w = .error r) ∧ s' = complete 0 (fetched w rest s)))) ∨
    (e = .fgStep ∧ s.fg.busy = true ∧ s.hs = [] ∧ ∃ i, s.fg.instr = some i ∧ exec i s = .next s') ∨
    (∃ t, e = .count t ∧ readBit (.run t) s = true ∧ countStep t s = .next s') ∨
    (e = .countHigh ∧ countHighEnabled s = true ∧ s' = countHigh s) ∨
    (∃ t, e = .dispatch t ∧ dispatchEnabled t s = true ∧ s' = takeInterrupt t s) ∨
    (e = .hStep ∧ ∃ f below, s.hs = f :: below ∧ s' = handlerStep f s) ∨
    (e = .reset ∧ s' = resetStep s) := by
  cases he : enabled e s with
  | false => rw [runEvent_disabled e s he] at h; cases h; exact .inl ⟨rfl, rfl⟩
  | true =>
    right
    rw [runEvent_enabled e s he] at h
    cases e with
    | issue =>
      left
      simp only [enabled, Bool.and_eq_true, Bool.not_eq_true', List.isEmpty_iff] at he
      obtain ⟨⟨hb, hh⟩, hc⟩ := he
      cases hcs : s.commands with
      | nil => rw [hcs] at hc; cases hc
      | cons w rest =>
        refine ⟨rfl, hb, hh, w, rest, rfl, ?_⟩
        simp only [effect, issueStep, hcs] at h
        cases hd : decode w with
        | ok i => rw [hd] at h; exact .inl ⟨i, rfl, h⟩
        | error r => rw [hd] at h; cases h; exact .inr ⟨⟨r, rfl⟩, rfl⟩
    | fgStep =>
      right; left
      simp only [enabled, Bool.and_eq_true, List.isEmpty_iff] at he
      refine ⟨rfl, he.1, he.2, ?_⟩
      simp only [effect, fgStep] at h
      cases hi : s.fg.instr with
      | some i => rw [hi] at h; exact ⟨i, rfl, h⟩
      | none => rw [hi] at h; cases h
    | count t => exact .inr (.inr (.inl ⟨t, rfl, he, h⟩))
    | countHigh => cases h; exact .inr (.inr (.inr (.inl ⟨rfl, he, rfl⟩)))
    | dispatch t => cases h; exact .inr (.inr (.inr (.inr (.inl ⟨t, rfl, he, rfl⟩))))
    | hStep =>
      right; right; right; right; right; left
      cases hh : s.hs with
      | nil => simp [enabled, hh] at he
      | cons f below => simp only [effect, hStep, hh] at h; cases h; exact ⟨rfl, f, below, rfl, rfl⟩
    | reset => cases h; exact .inr (.inr (.inr (.inr (.inr (.inr ⟨rfl, rfl⟩)))))

/-- The foreground's own step, taken from an idle or a busy state alike, changes of the rest of the machine only the
list of responses, and never the operand latches, the parameters or the host's commands. -/
theorem advance_rest (r : State × Seq) :
    (advance r).hs = r.1.hs ∧ (advance r).cfg = r.1.cfg ∧ (advance r).sched = r.1.sched ∧
    (advance r).commands = r.1.commands ∧ (advance r).draws = r.1.draws := by
  obtain ⟨s, q⟩ := r; cases q <;> exact ⟨rfl, rfl, rfl, rfl, rfl⟩

/-- A run of two pieces is the second run from where the first one ends. -/
theorem runOn_append (es fs : List Event) (s s' : State) (h : runOn es s = .next s') :
    runOn (es ++ fs) s = runOn fs s' := by
  induction es generalizing s with
  | nil => cases h; rfl
  | cons e es ih =>
    simp only [List.cons_append, runOn] at h ⊢
    cases hr : runEvent e s with
    | next u => rw [hr] at h; exact ih u h
    | fault r => rw [hr] at h; cases h
    | refused r => rw [hr] at h; cases h

/-- The first step of a run that answers a next state, and the rest of it. -/
theorem runOn_cons (e : Event) (es : List Event) (s s' : State) (h : runOn (e :: es) s = .next s') :
    ∃ u, runEvent e s = .next u ∧ runOn es u = .next s' := by
  simp only [runOn] at h
  cases hr : runEvent e s with
  | next u => rw [hr] at h; exact ⟨u, rfl, h⟩
  | fault r => rw [hr] at h; cases h
  | refused r => rw [hr] at h; cases h

/-- What holds at the start and is kept by every step of a run holds at its end. -/
theorem runOn_induct (P : State → Prop) (es : List Event) (s s' : State)
    (hstep : ∀ e ∈ es, ∀ u u', P u → runEvent e u = .next u' → P u')
    (hs : P s) (h : runOn es s = .next s') : P s' := by
  induction es generalizing s with
  | nil => cases h; exact hs
  | cons e es ih =>
    obtain ⟨u, h1, h2⟩ := runOn_cons e es s s' h
    exact ih u (fun e' he => hstep e' (List.mem_cons_of_mem e he))
      (hstep e List.mem_cons_self s u hs h1) h2

/-- `step` runs the event at the head of the schedule. -/
theorem step_sched (e : Event) (es : List Event) (s : State) (h : s.sched = e :: es) :
    step s = runEvent e { s with sched := es } := by
  simp [step, nextEvent, h]

/-- With the schedule used up, `step` runs a free choice. -/
theorem step_free (s : State) (h : s.sched = []) :
    step s = runEvent (Config.freeEvent s.draws) { s with draws := s.draws + 1 } := by
  simp [step, nextEvent, h]

/-- The state a step starts from: the schedule and the count of draws may have moved, nothing else. -/
theorem nextEvent_rest (s : State) :
    (nextEvent s).2.regs = s.regs ∧ (nextEvent s).2.fg = s.fg ∧ (nextEvent s).2.hs = s.hs ∧
    (nextEvent s).2.cfg = s.cfg ∧ (nextEvent s).2.commands = s.commands ∧
    (nextEvent s).2.responses = s.responses := by
  unfold nextEvent; split <;> exact ⟨rfl, rfl, rfl, rfl, rfl, rfl⟩

end Sys2Proof.Machine
end

