-- ==== Sys2Proof/Tests/Slice0.lean ====
section
/-! SUPPORT. The model's own tests. Every expected value is the spec's: the words and the vectors V1 to V49 of
95_test_vectors.md, named at each test. The last part gives, for every statement with hypotheses, a concrete state and
operands that meet them. -/

namespace Sys2Proof.Tests

open Sys2Proof Sys2Proof.Machine

/-! ## Small states -/

/-- The reference parameters of the vectors: 12 MHz, handlers do not nest. -/
def refCfg : Config.Params where
  oscHz          := 12000000
  nesting        := .none
  reloadClamp    := .truncate
  dispatchOrder  := .free
  otherModeCount := .refuse
  gieRestore     := .set

/-- The reset state with the reference parameters. -/
def base : State := { State.reset with cfg := refCfg }

/-- The reset state with some cells set. -/
def withRegs (f : Regs → Regs) : State := { base with regs := f base.regs }

/-- A machine busy with the command `i` at label `k`, `MODE` and the latch `T` both holding `m`. -/
def busyAt (i : Instr) (k : Nat) (m : Byte) : State :=
  { base with
    regs := { base.regs with mode := m },
    fg := { busy := true, op := some i.opcode, a := fieldA (encode i), b := fieldB (encode i),
            c := fieldC (encode i), upc := k, t := some m, f := none, r := some 0xFC18, loop := some 1,
            snap0 := some 0xFF, snap1 := some 0x01, snap2 := some 0x00, snap3 := some 0x00, g := some false } }

/-- A handler's frame just entered. -/
def entered (t : Timer) : Frame := { t := t, upc := .h1, tt := none, tickread := false, raced := false }

/-- One field of the state an answer leaves; `none` where the answer is no next state. -/
def after {α : Type} (r : Host.Outcome State Fault Refusal) (f : State → α) : Option α :=
  match r with
  | .next s => some (f s)
  | .fault _ => none
  | .refused _ => none

/-! ## Well-formedness: one ill-formed command for each check (30_encoding.md R64) -/

theorem test_wf_timer : (Instr.loadcnt 2 0x1234).wellFormed = false := by decide

theorem test_wf_timer_every_format :
    (Instr.cfgmode 2 0 1).wellFormed = false ∧ (Instr.start 255).wellFormed = false ∧
    (Instr.stop 2).wellFormed = false ∧ (Instr.rdovf 7).wellFormed = false ∧
    (Instr.irqmodeOff 2).wellFormed = false ∧ (Instr.irqmodeOn 2 0x1234).wellFormed = false ∧
    (Instr.inittick 2 0).wellFormed = false := by decide

theorem test_wf_ctsel : (Instr.cfgmode 0 2 1).wellFormed = false := by decide

theorem test_wf_mode : (Instr.cfgmode 0 0 4).wellFormed = false := by decide

theorem test_wf_unit : (Instr.inittick 0 2).wellFormed = false := by decide

theorem test_wf_boundary :
    (Instr.cfgmode 1 1 3).wellFormed = true ∧ (Instr.inittick 1 1).wellFormed = true := by decide

/-! ## Decoding: words written out field by field from 30_encoding.md R61 and R65 -/

theorem test_decode_cfgmode :
    decode (0b00000001#8 ++ 0b00000001#8 ++ 0b00000001#8 ++ 0b00000010#8) = .ok (.cfgmode 1 1 2) := by decide

theorem test_decode_loadcnt :
    decode (0b00000010#8 ++ 0b00000000#8 ++ 0b11111100#8 ++ 0b00011000#8) = .ok (.loadcnt 0 0xFC18) := by decide

theorem test_decode_start :
    decode (0b00000011#8 ++ 0b00000001#8 ++ 0b00000000#8 ++ 0b00000000#8) = .ok (.start 1) := by decide

theorem test_decode_stop :
    decode (0b00000100#8 ++ 0b00000000#8 ++ 0b00000000#8 ++ 0b00000000#8) = .ok (.stop 0) := by decide

theorem test_decode_rdovf :
    decode (0b00000101#8 ++ 0b00000001#8 ++ 0b00000000#8 ++ 0b00000000#8) = .ok (.rdovf 1) := by decide

/-- V12e: the immediate of IRQMODE.OFF is ignored. -/
theorem test_decode_irqmodeOff :
    decode (0b00000110#8 ++ 0b00000000#8 ++ 0b11111111#8 ++ 0b11111111#8) = .ok (.irqmodeOff 0) := by decide

theorem test_decode_irqmodeOn :
    decode (0b00000111#8 ++ 0b00000001#8 ++ 0b11111111#8 ++ 0b00000000#8) = .ok (.irqmodeOn 1 0xFF00) := by decide

/-- V12f: `B` of INITTICK is ignored. -/
theorem test_decode_inittick :
    decode (0b00001000#8 ++ 0b00000000#8 ++ 0b01111111#8 ++ 0b00000000#8) = .ok (.inittick 0 0) := by decide

/-- V12c: every operand byte of RDTICK is ignored. -/
theorem test_decode_rdtick :
    decode (0b00001001#8 ++ 0b10101011#8 ++ 0b11001101#8 ++ 0b11101111#8) = .ok .rdtick := by decide

/-- V12d: `A` of the delays is ignored. -/
theorem test_decode_delayus :
    decode (0b00001010#8 ++ 0b11111111#8 ++ 0b00000000#8 ++ 0b00000011#8) = .ok (.delayus 3) := by decide

theorem test_decode_delayms :
    decode (0b00001011#8 ++ 0b00000000#8 ++ 0b00000000#8 ++ 0b00000010#8) = .ok (.delayms 2) := by decide

/-- V12a, V12b: the reserved opcodes next to the defined ones, and the last. -/
theorem test_decode_reserved :
    decode 0x00000000 = .error (.reservedOpcode 0x00) ∧ decode 0x0C000000 = .error (.reservedOpcode 0x0C) ∧
    decode 0xFFFFFFFF = .error (.reservedOpcode 0xFF) := by decide

/-- 30_encoding.md R69: the words of the assembler's forms. -/
theorem test_encode :
    encode (.cfgmode 1 1 2) = 0x01010102 ∧ encode (.loadcnt 0 0xFC18) = 0x0200FC18 ∧ encode (.start 1) = 0x03010000 ∧
    encode (.stop 0) = 0x04000000 ∧ encode (.rdovf 1) = 0x05010000 ∧ encode (.irqmodeOff 1) = 0x06010000 ∧
    encode (.irqmodeOn 0 0xFC18) = 0x0700FC18 ∧ encode (.inittick 1 1) = 0x08010001 ∧ encode .rdtick = 0x09000000 ∧
    encode (.delayus 5) = 0x0A000005 ∧ encode (.delayms 2) = 0x0B000002 := by decide

/-- The opcode table's word, and the step that runs it right after reset. -/
theorem test_withFetchWord :
    decodeTableWord 32 0x0200FC18 = some (.loadcnt 0 0xFC18) ∧ decodeTableWord 32 0x00000000 = none ∧
    after (step (State.reset.withFetchWord 32 0x0200FC18)) (fun s => s.fg.instr) = some (some (.loadcnt 0 0xFC18)) ∧
    after (step (State.reset.withFetchWord 32 0x0200FC18)) (fun s => s.fg.busy) = some true := by decide

/-! ## The reload function: V25a to V25j -/

/-- The reference parameters with another oscillator and another clamp. -/
def clocked (hz : Nat) (c : Config.ReloadClamp) : Config.Params := { refCfg with oscHz := hz, reloadClamp := c }

theorem test_reload_truncate :
    reload (clocked 12000000 .truncate) .ms = 0xFC18 ∧ reload (clocked 12000000 .truncate) .us = 0xFFFF ∧
    reload (clocked 11059200 .truncate) .ms = 0xFC67 ∧ reload (clocked 11059200 .truncate) .us = 0x0000 ∧
    reload (clocked 24000000 .truncate) .ms = 0xF830 ∧ reload (clocked 24000000 .truncate) .us = 0xFFFE ∧
    reload (clocked 12000 .truncate) .ms = 0xFFFF ∧ reload (clocked 11999 .truncate) .ms = 0x0000 ∧
    reload (clocked 786432000 .truncate) .ms = 0x0000 ∧ reload (clocked 1000000000 .truncate) .ms = 0xBA7B := by decide

theorem test_reload_saturate :
    reload (clocked 11059200 .saturate) .us = 0xFFFF ∧ reload (clocked 11999 .saturate) .ms = 0xFFFF ∧
    reload (clocked 786432000 .saturate) .ms = 0x0000 ∧ reload (clocked 1000000000 .saturate) .ms = 0x0000 ∧
    reload (clocked 24000000 .saturate) .ms = 0xF830 := by decide

/-! ## One step of each command -/

/-- V15 `S2`: `MODE = 0x77`, `CFGMODE 1, 0, 0` writes `0x07`. -/
theorem test_cfgmode_clears_nibble :
    after (exec (.cfgmode 1 0 0) (busyAt (.cfgmode 1 0 0) 2 0x77)) (readByte .mode) = some 0x07 := by decide

/-- V14 `S4`: `CFGMODE 1, 2, 1` on a cleared nibble writes `0x61`, and the command is answered 0. -/
theorem test_cfgmode_ors_field :
    after (exec (.cfgmode 1 1 2) (busyAt (.cfgmode 1 1 2) 4 0x01)) (fun s => (readByte .mode s, s.responses, s.fg.busy))
      = some (0x61, [0], false) := by decide

/-- V18 `S1`: the low byte goes to `CL[1]`; `CH[1]` waits. -/
theorem test_loadcnt_low :
    after (exec (.loadcnt 1 0x1234) (busyAt (.loadcnt 1 0x1234) 1 0)) (fun s => (s.regs.cl1, s.regs.ch1, s.fg.upc))
      = some (0x34, 0x00, 2) := by decide

/-- V18 `S2`: the high byte goes to `CH[1]`. -/
theorem test_loadcnt_high :
    after (exec (.loadcnt 1 0x1234) (busyAt (.loadcnt 1 0x1234) 2 0)) (fun s => (s.regs.ch1, s.regs.ch0, s.responses))
      = some (0x12, 0x00, [0]) := by decide

/-- V23: `START 1` sets `RUN[1]` and leaves `OVF[1]` set. -/
theorem test_start_keeps_flag :
    after (exec (.start 1) { busyAt (.start 1) 1 0 with regs := { Regs.reset with ovf1 := true } })
      (fun s => (s.regs.run1, s.regs.ovf1, s.regs.run0)) = some (true, true, false) := by decide

/-- V22 `S1`: `STOP 0` clears the run bit first. -/
theorem test_stop_run_first :
    after (exec (.stop 0) { busyAt (.stop 0) 1 0 with regs := { Regs.reset with run0 := true, ovf0 := true } })
      (fun s => (s.regs.run0, s.regs.ovf0)) = some (false, true) := by decide

/-- V22 `S2`: then the flag. -/
theorem test_stop_flag_second :
    after (exec (.stop 0) { busyAt (.stop 0) 2 0 with regs := { Regs.reset with ovf0 := true, ovf1 := true } })
      (fun s => (s.regs.ovf0, s.regs.ovf1, s.responses)) = some (false, true, [0]) := by decide

/-- V24: `RDOVF 1` answers 1 and the flag stays 1. -/
theorem test_rdovf_set :
    after (exec (.rdovf 1) { busyAt (.rdovf 1) 1 0 with regs := { Regs.reset with ovf1 := true } })
      (fun s => (s.responses, s.regs.ovf1)) = some ([1], true) := by decide

/-- V24: word `0x05070000` answers 0 whatever the flags. -/
theorem test_rdovf_invalid :
    after (exec (.rdovf 7) (withRegs fun r => { r with ovf0 := true, ovf1 := true }))
      (fun s => (s.responses, s.fg.busy)) = some ([0], false) := by decide

/-- V28: IRQMODE.OFF masks the line first, with `GIE` and the run bit as they were. -/
theorem test_irqmodeOff_line :
    after (exec (.irqmodeOff 1) { busyAt (.irqmodeOff 1) 1 0 with
        regs := { Regs.reset with ien1 := true, gie := true, run1 := true } })
      (fun s => (s.regs.ien1, s.regs.gie, s.regs.run1)) = some (false, true, true) := by decide

/-- V28: then globally. -/
theorem test_irqmodeOff_global :
    after (exec (.irqmodeOff 1) { busyAt (.irqmodeOff 1) 2 0 with regs := { Regs.reset with gie := true, run1 := true } })
      (fun s => (s.regs.gie, s.regs.run1, s.responses)) = some (false, true, [0]) := by decide

/-- V27a `S4`: on `0x70` the field of mode 1 gives `0x71`. -/
theorem test_irqmodeOn_mode :
    after (exec (.irqmodeOn 0 0) (busyAt (.irqmodeOn 0 0) 4 0x70)) (readByte .mode) = some 0x71 := by decide

/-- V26 `S6`: the high byte of `0xFF00` in `CH[1]`; `PRV` is not written. -/
theorem test_irqmodeOn_load :
    after (exec (.irqmodeOn 1 0xFF00) (busyAt (.irqmodeOn 1 0xFF00) 6 0x10)) (fun s => (s.regs.ch1, prvOf s))
      = some (0xFF, 0x0000) := by decide

/-- V30, at issue: `R = Reload(MS) = 0xFC18` at 12 MHz, no cell changed. -/
theorem test_inittick_issue :
    after (exec (.inittick 0 0) base) (fun s => (s.fg.r, s.regs)) = some (some 0xFC18, base.regs) := by decide

/-- V30 `S2`: the high byte of `0xFC18` in `PRV.H`. -/
theorem test_inittick_cache :
    after (exec (.inittick 0 0) (busyAt (.inittick 0 0) 2 0)) (fun s => (s.regs.prvH, s.regs.prvL, s.fg.upc))
      = some (0xFC, 0x00, 3) := by decide

/-- V36 `S6`: the bytes `FF 01 00 00` are answered `0x000001FF` and `GIE` is 1. -/
theorem test_rdtick_set :
    after (exec .rdtick (busyAt .rdtick 6 0)) (fun s => (s.responses, s.regs.gie)) = some ([0x000001FF], true) := by decide

/-- V36a: under `saved`, `GIE` goes back to the 0 it was. -/
theorem test_rdtick_saved :
    after (exec .rdtick { busyAt .rdtick 6 0 with cfg := { refCfg with gieRestore := .saved } })
      (fun s => (s.responses, s.regs.gie)) = some ([0x000001FF], false) := by decide

/-- V43 `S8`: reading 0 stays at `S8`. -/
theorem test_delayus_polls :
    after (exec (.delayus 1) (busyAt (.delayus 1) 8 0x01)) (fun s => (s.fg.upc, s.fg.f, s.fg.busy))
      = some (8, some false, true) := by decide

/-- V43 `S10`: the last iteration clears the flag and answers 0. -/
theorem test_delayus_ends :
    after (exec (.delayus 1) { busyAt (.delayus 1) 10 0x01 with regs := { Regs.reset with ovf0 := true } })
      (fun s => (s.regs.ovf0, s.responses, s.fg.busy)) = some (false, [0], false) := by decide

/-- V42: `DELAYMS 0` changes no cell and is answered 0. -/
theorem test_delayms_zero :
    after (exec (.delayms 0) (withRegs fun r => { r with mode := 0x62 })) (fun s => (s.regs.mode, s.responses, s.fg.busy))
      = some (0x62, [0], false) := by decide

/-- P3: after the first of two iterations the next step is `S5` again. -/
theorem test_delayms_loops :
    after (exec (.delayms 2) { busyAt (.delayms 2) 10 0x01 with
        fg := { (busyAt (.delayms 2) 10 0x01).fg with loop := some 2 } })
      (fun s => (s.fg.upc, s.fg.loop, s.responses)) = some (5, some 1, []) := by decide

/-- V12h to V12k: an invalid timer, selector, mode, unit changes no cell. -/
theorem test_invalid_selectors :
    after (exec (.cfgmode 2 0 1) base) (fun s => (s.regs, s.responses)) = some (base.regs, [0]) ∧
    after (exec (.cfgmode 0 2 1) base) (fun s => (s.regs, s.responses)) = some (base.regs, [0]) ∧
    after (exec (.cfgmode 0 0 4) base) (fun s => (s.regs, s.responses)) = some (base.regs, [0]) ∧
    after (exec (.inittick 0 2) base) (fun s => (s.regs, s.responses)) = some (base.regs, [0]) ∧
    after (exec (.irqmodeOn 2 0x1234) base) (fun s => (s.regs, s.responses)) = some (base.regs, [0]) := by decide

/-! ## The counting hardware: V21, and G3 of 93_implementation_defined.md -/

/-- V21: `0x00FF` gives `0x0100`, the flag unchanged. -/
theorem test_count_carries :
    after (runEvent (.count .t0) (withRegs fun r => { r with mode := 0x01, run0 := true, cl0 := 0xFF }))
      (fun s => (countOf .t0 s, s.regs.ovf0)) = some (0x0100, false) := by decide

/-- V21: `0xFFFF` gives `0x0000` and the flag. -/
theorem test_count_wraps :
    after (runEvent (.count .t1) (withRegs fun r => { r with mode := 0x10, run1 := true, cl1 := 0xFF, ch1 := 0xFF }))
      (fun s => (countOf .t1 s, s.regs.ovf1, s.regs.ovf0)) = some (0x0000, true, false) := by decide

/-- 60_exceptions.md R104: right after reset a started timer is in mode 0, which is refused. -/
theorem test_count_refused :
    runEvent (.count .t0) (withRegs fun r => { r with run0 := true }) = .refused (.otherModeCount .t0 .free13) := by rfl

/-- G3, mode 0: the 13 bits wrap from all ones, the three bits above `CL`'s five stay. -/
theorem test_count_mcs51_mode0 :
    after (runEvent (.count .t0) { withRegs (fun r => { r with run0 := true, cl0 := 0xBF, ch0 := 0xFF }) with
        cfg := { refCfg with otherModeCount := .mcs51 } })
      (fun s => (s.regs.cl0, s.regs.ch0, s.regs.ovf0)) = some (0xA0, 0x00, true) := by decide

/-- G3, mode 2: on a wrap `CL` is reloaded from `CH`. -/
theorem test_count_mcs51_mode2 :
    after (runEvent (.count .t1) { withRegs (fun r => { r with mode := 0x20, run1 := true, cl1 := 0xFF, ch1 := 0x37 }) with
        cfg := { refCfg with otherModeCount := .mcs51 } })
      (fun s => (s.regs.cl1, s.regs.ch1, s.regs.ovf1)) = some (0x37, 0x37, true) := by decide

/-- G3, mode 3: `CH[0]` counts under `RUN[1]` and sets `OVF[1]`. -/
theorem test_count_mcs51_mode3 :
    after (runEvent .countHigh { withRegs (fun r => { r with mode := 0x03, run1 := true, ch0 := 0xFF }) with
        cfg := { refCfg with otherModeCount := .mcs51 } })
      (fun s => (s.regs.ch0, s.regs.ovf1, s.regs.ovf0)) = some (0x00, true, false) := by decide

/-! ## Dispatch and the handler: V33 to V39 -/

/-- The state of V33 with a stack of handlers. -/
def v33 (hs : List Frame) : State :=
  { withRegs (fun r => { r with prvL := 0x18, prvH := 0xFC, mode := 0x01, run0 := true, ien0 := true, gie := true,
                                ovf0 := true, cl0 := 0x03, tick0 := 0xFF }) with hs := hs }

theorem test_dispatch :
    after (runEvent (.dispatch .t0) (v33 [])) (fun s => (s.regs.ovf0, s.regs.gie, s.regs.ien0, s.hs))
      = some (false, true, true, [entered .t0]) := by decide

theorem test_handler_reload_low :
    after (runEvent .hStep (v33 [entered .t0])) (fun s => (countOf .t0 s, s.hs.map Frame.upc)) = some (0x0018, [.h2]) := by
  decide

theorem test_handler_tick :
    after (runEvent .hStep (v33 [{ entered .t0 with upc := .h4, tt := some 0x000000FF, tickread := true }]))
      (fun s => (tickOf s, s.hs)) = some (0x00000100, []) := by decide

/-- V34: the tick counter wraps. -/
theorem test_tick_wraps :
    after (runEvent .hStep (v33 [{ entered .t0 with upc := .h4, tt := some 0xFFFFFFFF, tickread := true }]))
      tickOf = some 0x00000000 := by decide

/-- V35: a masked source stays pending. -/
theorem test_masked_pending :
    enabled (.dispatch .t0) (withRegs fun r => { r with ovf0 := true, ien0 := true }) = false := by decide

/-- V38: no handler preempts itself, nested or not. -/
theorem test_no_self_preemption :
    enabled (.dispatch .t0) { v33 [entered .t0] with cfg := { refCfg with nesting := .cross } } = false := by decide

/-- V39: the nested handler writes 6 and makes the frame below raced. -/
theorem test_nested_race :
    after (runEvent .hStep { v33 [{ entered .t1 with upc := .h4, tt := some 5, tickread := true },
                                  { entered .t0 with upc := .h4, tt := some 5, tickread := true }] with
        cfg := { refCfg with nesting := .cross } })
      (fun s => (tickOf s, s.hs.map Frame.raced)) = some (6, [true]) := by decide

/-- 70_reset_and_hazards.md R132: a reset taken inside an operation answers nothing. -/
theorem test_reset_abandons :
    after (runEvent .reset (busyAt (.delayms 2) 8 0x01)) (fun s => (s.regs, s.fg, s.responses))
      = some (Regs.reset, Fg.reset, []) := by decide

/-! ## Witnesses: a concrete state and operands for the hypotheses of every statement that has some -/

/-- The state an answer leaves, or `d` where it leaves none. -/
def stateOf (d : State) (r : Host.Outcome State Fault Refusal) : State :=
  match r with
  | .next s => s
  | .fault _ => d
  | .refused _ => d

/-- Where the run `es` from `s` ends. -/
def runEnd (es : List Event) (s : State) : State := stateOf s (runOn es s)

/-- An idle machine whose host has one word to issue. -/
def waiting (w : Word) : State := { base with commands := [w], sched := [.issue] }

theorem witness_IgnoredFieldsHaveNoEffect : opcodeOfByte (fieldOp 0x0AFF0003) = some .delayus := by decide

theorem witness_DecodeRejectsExactlyReserved :
    fieldOp 0x00FFFFFF = 0x00 ∧ 0x0C ≤ (fieldOp 0x0C000000).toNat ∧
    ¬ (fieldOp 0x01000001 = 0x00 ∨ 0x0C ≤ (fieldOp 0x01000001).toNat) ∧
    ¬ (fieldOp 0x0B000002 = 0x00 ∨ 0x0C ≤ (fieldOp 0x0B000002).toNat) := by decide

theorem witness_InvalidSelectorIsNoOp :
    (Instr.cfgmode 0 0 4).wellFormed = false ∧ (Instr.loadcnt 2 0).wellFormed = false ∧ base.fg.busy = false := by decide

theorem witness_ReservedWordIsNoOp :
    (fieldOp 0x0C000000 = 0x00 ∨ 0x0C ≤ (fieldOp 0x0C000000).toNat) ∧ (waiting 0x0C000000).fg.busy = false ∧
    (waiting 0x0C000000).hs = [] ∧ (waiting 0x0C000000).commands = 0x0C000000 :: [] := by decide

theorem witness_IssueBeginsTheOperation :
    hasSteps (.cfgmode 1 1 3) = true ∧ hasSteps (.delayms 1) = true ∧ hasSteps .rdtick = true ∧
    base.fg.busy = false := by decide

theorem witness_StepIssuesTheDecodedCommand :
    (waiting 0x01010102).sched = .issue :: [] ∧ (waiting 0x01010102).commands = 0x01010102 :: [] ∧
    (waiting 0x01010102).fg.busy = false ∧ (waiting 0x01010102).hs = [] ∧
    decode 0x01010102 = .ok (.cfgmode 1 1 2) := by decide

/-- Every clause: a scheduled event; a busy foreground with a scheduled step; an issue that leaves it busy. -/
theorem witness_StepRunsTheCommandInTheLatches :
    ({ base with sched := [.hStep] }).sched = .hStep :: [] ∧
    (let s := { busyAt (.start 1) 1 0 with sched := [.fgStep] };
      s.sched = .fgStep :: [] ∧ s.fg.busy = true ∧ s.hs = [] ∧ s.fg.instr = some (.start 1)) ∧
    (waiting 0x0200FC18).commands = 0x0200FC18 :: [] ∧ (waiting 0x0200FC18).fg.busy = false ∧
    (waiting 0x0200FC18).hs = [] ∧ decode 0x0200FC18 = .ok (.loadcnt 0 0xFC18) ∧
    after (runEvent .issue (waiting 0x0200FC18)) (fun s => s.fg.busy) = some true := by decide

/-- A handler in service; none; a busy foreground; an idle one that still holds its last command (log 9). -/
theorem witness_HandlerHoldsTheForeground :
    (v33 [entered .t0]).hs ≠ [] ∧ base.hs = [] ∧ (busyAt (.stop 0) 1 0).fg.busy = true ∧
    (let s := runEnd [.fgStep] (busyAt (.start 1) 1 0); s.fg.busy = false ∧ s.fg.instr = some (.start 1) ∧
      enabled .fgStep s = false) := by decide

theorem witness_CfgmodeSteps :
    (0x01010102 : Word).extractLsb' 24 8 = 0x01 ∧
    2 ≤ (2 : Byte).toNat ∧ 4 ≤ (4 : Byte).toNat ∧ (1 : Byte).toNat < 2 ∧ (3 : Byte).toNat < 4 ∧ base.fg.busy = false ∧
    (∀ k ∈ [1, 2, 3, 4], (busyAt (.cfgmode 1 1 3) k 0x61).fg.busy = true ∧ (busyAt (.cfgmode 1 1 3) k 0x61).fg.upc = k ∧
      (busyAt (.cfgmode 1 1 3) k 0x61).fg.t = some 0x61) := by decide

theorem witness_LoadcntSteps :
    (0x0200FC18 : Word).extractLsb' 24 8 = 0x02 ∧ 2 ≤ (2 : Byte).toNat ∧ base.fg.busy = false ∧
    ((1 : Byte) = 0 ∧ Timer.t1 = .t0 ∨ (1 : Byte) = 1 ∧ Timer.t1 = .t1) ∧
    (∀ k ∈ [1, 2], (busyAt (.loadcnt 1 0xFFFF) k 0).fg.busy = true ∧ (busyAt (.loadcnt 1 0xFFFF) k 0).fg.upc = k) := by
  decide

theorem witness_StartStep :
    (0x03010000 : Word).extractLsb' 24 8 = 0x03 ∧ 2 ≤ (2 : Byte).toNat ∧ base.fg.busy = false ∧
    ((0 : Byte) = 0 ∧ Timer.t0 = .t0 ∨ (0 : Byte) = 1 ∧ Timer.t0 = .t1) ∧
    (busyAt (.start 0) 1 0).fg.busy = true ∧ (busyAt (.start 0) 1 0).fg.upc = 1 := by decide

theorem witness_StopSteps :
    (0x04000000 : Word).extractLsb' 24 8 = 0x04 ∧ 2 ≤ (2 : Byte).toNat ∧ base.fg.busy = false ∧
    ((1 : Byte) = 0 ∧ Timer.t1 = .t0 ∨ (1 : Byte) = 1 ∧ Timer.t1 = .t1) ∧
    (∀ k ∈ [1, 2], (busyAt (.stop 1) k 0).fg.busy = true ∧ (busyAt (.stop 1) k 0).fg.upc = k) := by decide

theorem witness_RdovfStep :
    (0x05010000 : Word).extractLsb' 24 8 = 0x05 ∧ 2 ≤ (7 : Byte).toNat ∧ base.fg.busy = false ∧
    ((1 : Byte) = 0 ∧ Timer.t1 = .t0 ∨ (1 : Byte) = 1 ∧ Timer.t1 = .t1) ∧
    (busyAt (.rdovf 1) 1 0).fg.busy = true ∧ (busyAt (.rdovf 1) 1 0).fg.upc = 1 := by decide

theorem witness_IrqmodeOffSteps :
    (0x06010000 : Word).extractLsb' 24 8 = 0x06 ∧ 2 ≤ (2 : Byte).toNat ∧ base.fg.busy = false ∧
    ((1 : Byte) = 0 ∧ Timer.t1 = .t0 ∨ (1 : Byte) = 1 ∧ Timer.t1 = .t1) ∧
    (∀ k ∈ [1, 2], (busyAt (.irqmodeOff 1) k 0).fg.busy = true ∧ (busyAt (.irqmodeOff 1) k 0).fg.upc = k) := by decide

theorem witness_IrqmodeOnSteps :
    (0x0701FF00 : Word).extractLsb' 24 8 = 0x07 ∧ 2 ≤ (2 : Byte).toNat ∧ base.fg.busy = false ∧
    ((1 : Byte) = 0 ∧ Timer.t1 = .t0 ∨ (1 : Byte) = 1 ∧ Timer.t1 = .t1) ∧
    (∀ k ∈ [1, 2, 3, 4, 5, 6, 7, 8, 9], (busyAt (.irqmodeOn 1 0xFF00) k 0x06).fg.busy = true ∧
      (busyAt (.irqmodeOn 1 0xFF00) k 0x06).fg.upc = k ∧ (busyAt (.irqmodeOn 1 0xFF00) k 0x06).fg.t = some 0x06) := by
  decide

theorem witness_InittickSteps :
    (0x08010001 : Word).extractLsb' 24 8 = 0x08 ∧ 2 ≤ (2 : Byte).toNat ∧ base.fg.busy = false ∧
    ((0 : Byte) = 0 ∧ Timer.t0 = .t0 ∨ (0 : Byte) = 1 ∧ Timer.t0 = .t1) ∧
    ((1 : Byte) = 0 ∧ TickUnit.us = .ms ∨ (1 : Byte) = 1 ∧ TickUnit.us = .us) ∧
    (∀ k ∈ [1, 2, 3, 4, 5, 6, 7, 8, 9, 10, 11], (busyAt (.inittick 0 1) k 0x60).fg.busy = true ∧
      (busyAt (.inittick 0 1) k 0x60).fg.upc = k ∧ (busyAt (.inittick 0 1) k 0x60).fg.r = some 0xFC18 ∧
      (busyAt (.inittick 0 1) k 0x60).fg.t = some 0x60) := by decide

theorem witness_RdtickSteps :
    (0x09000000 : Word).extractLsb' 24 8 = 0x09 ∧ base.fg.busy = false ∧ base.cfg.gieRestore = .set ∧
    ({ base with cfg := { refCfg with gieRestore := .saved } }).cfg.gieRestore = .saved ∧
    (∀ k ∈ [0, 1, 2, 3, 4, 5, 6], (busyAt .rdtick k 0).fg.busy = true ∧ (busyAt .rdtick k 0).fg.upc = k ∧
      (busyAt .rdtick k 0).fg.snap0 = some 0xFF ∧ (busyAt .rdtick k 0).fg.snap1 = some 0x01 ∧
      (busyAt .rdtick k 0).fg.snap2 = some 0x00 ∧ (busyAt .rdtick k 0).fg.snap3 = some 0x00 ∧
      (busyAt .rdtick k 0).fg.g = some false) := by decide

theorem witness_DelaySteps :
    (0x0A000005 : Word).extractLsb' 24 8 = 0x0A ∧ (0x0B000002 : Word).extractLsb' 24 8 = 0x0B ∧ base.fg.busy = false ∧
    (Instr.delayms 0xFFFF = .delayus 0xFFFF ∧ Opcode.delayms = .delayus ∧ TickUnit.ms = .us ∨
      Instr.delayms 0xFFFF = .delayms 0xFFFF ∧ Opcode.delayms = .delayms ∧ TickUnit.ms = .ms) ∧
    (0xFFFF : Half) ≠ 0 ∧ (2 : Half) ≠ 1 ∧
    (∀ k ∈ [1, 2, 3, 4, 5, 6, 7, 8, 9, 10], (busyAt (.delayms 0xFFFF) k 0x62).fg.busy = true ∧
      (busyAt (.delayms 0xFFFF) k 0x62).fg.upc = k ∧ (busyAt (.delayms 0xFFFF) k 0x62).fg.r = some 0xFC18 ∧
      (busyAt (.delayms 0xFFFF) k 0x62).fg.loop = some 1 ∧ (busyAt (.delayms 0xFFFF) k 0x62).fg.t = some 0x62) := by
  decide

theorem witness_ZeroDelayChangesNoCell :
    (waiting 0x0B000000).sched = .issue :: [] ∧ (waiting 0x0B000000).commands = 0x0B000000 :: [] ∧
    (waiting 0x0B000000).fg.busy = false ∧ (waiting 0x0B000000).hs = [] := by decide

theorem witness_RegisterPrimitivesFrame :
    (Instr.stop 1).opcode = .stop ∧ after (exec (.stop 1) (busyAt (.stop 1) 2 0)) (fun s => s.fg.busy) = some false := by
  decide

theorem witness_InterruptTickFrame :
    (Instr.inittick 1 1).opcode = .inittick ∧
    after (exec (.inittick 1 1) (busyAt (.inittick 1 1) 11 0)) (fun s => s.regs.gie) = some true := by decide

theorem witness_DelayFrame :
    (Instr.delayus 1).opcode = .delayus ∧
    after (exec (.delayus 1) (busyAt (.delayus 1) 4 0x62)) (fun s => s.fg.upc) = some 5 ∧
    writesModeNext (.delayus 1) (busyAt (.delayus 1) 4 0x62).fg.upc = true ∧
    (busyAt (.delayus 1) 4 0x62).fg.t = some (readByte .mode (busyAt (.delayus 1) 4 0x62)) := by decide

theorem witness_StraightOperationTakesItsSteps :
    hasSteps (.inittick 1 1) = true ∧ isDelay (.inittick 1 1) = false ∧ base.fg.busy = false ∧
    10 < labelCount base.cfg (.inittick 1 1) := by decide

theorem witness_LoadcntWhole :
    ((1 : Byte) = 0 ∧ Timer.t1 = .t0 ∨ (1 : Byte) = 1 ∧ Timer.t1 = .t1) ∧ base.fg.busy = false := by decide

theorem witness_StopThenRdovfAnswersZero :
    ((0 : Byte) = 0 ∧ Timer.t0 = .t0 ∨ (0 : Byte) = 1 ∧ Timer.t0 = .t1) ∧ base.fg.busy = false := by decide

theorem witness_IrqmodeOnWhole :
    ((1 : Byte) = 0 ∧ Timer.t1 = .t0 ∨ (1 : Byte) = 1 ∧ Timer.t1 = .t1) ∧ base.fg.busy = false := by decide

theorem witness_InittickWhole :
    ((0 : Byte) = 0 ∧ Timer.t0 = .t0 ∨ (0 : Byte) = 1 ∧ Timer.t0 = .t1) ∧
    ((1 : Byte) = 0 ∧ TickUnit.us = .ms ∨ (1 : Byte) = 1 ∧ TickUnit.us = .us) ∧ base.fg.busy = false := by decide

theorem witness_RdtickWhole : base.fg.busy = false := by decide

/-- CFGMODE 1, 2, 1 on `MODE = 0x01`, with a count event of Timer 0 between its steps. -/
theorem witness_CfgmodeInEveryRun :
    let s := { busyAt (.cfgmode 1 1 2) 1 0x01 with regs := { Regs.reset with mode := 0x01, run0 := true } }
    let es := [.fgStep, .fgStep, .count .t0, .fgStep, .fgStep]
    (1 : Byte).toNat < 2 ∧ (2 : Byte).toNat < 4 ∧ s.fg.busy = true ∧ s.fg.instr = some (.cfgmode 1 1 2) ∧
    s.fg.upc = 1 ∧ (∀ e ∈ es, e ≠ .reset) ∧ runOn es s = .next (runEnd es s) ∧
    (runEnd es s).responses = 0 :: s.responses ∧ (runEnd es s).fg.busy = false := by
  exact ⟨by decide, by decide, rfl, rfl, rfl, by decide, rfl, rfl, rfl⟩

/-- A busy machine that keeps the invariant: `MODE` and `T` agree at the label that writes `MODE`. -/
theorem inv_busyAt_cfgmode : Machine.Inv (busyAt (.cfgmode 1 1 2) 4 0x01) where
  oscPos := by decide
  bit3 := by unfold ModeBit3Clear; decide
  frames := ⟨by decide, fun _ => by decide, fun f hf => by cases hf⟩
  foreground := fun _ => ⟨.cfgmode 1 1 2, rfl, rfl, ⟨by decide, by decide⟩, ⟨fun _ => rfl, trivial⟩, fun _ => rfl,
    fun h => by cases h⟩

/-- The step of Timer 1's command, as Timer 0's nibble sees it; and a step of another agent. -/
theorem witness_NibbleOfTheOtherTimerStays :
    Machine.Inv (busyAt (.cfgmode 1 1 2) 4 0x01) ∧ Event.fgStep ≠ .reset ∧
    runEvent .fgStep (busyAt (.cfgmode 1 1 2) 4 0x01) = .next (runEnd [.fgStep] (busyAt (.cfgmode 1 1 2) 4 0x01)) ∧
    (busyAt (.cfgmode 1 1 2) 4 0x01).fg.instr = some (.cfgmode 1 1 2) ∧ timerOf 1 = some Timer.t0.other :=
  ⟨inv_busyAt_cfgmode, by decide, rfl, rfl, rfl⟩

/-- RDTICK from `S1`, with an overflow of Timer 0 inside the bracket (V41). -/
theorem witness_RdtickIsAtomic :
    let s := { busyAt .rdtick 1 0x01 with
      regs := { Regs.reset with mode := 0x01, run0 := true, ien0 := true, gie := true, cl0 := 0xFF, ch0 := 0xFF,
                                tick0 := 0xFF } }
    let es := [.fgStep, .count .t0, .dispatch .t0, .fgStep, .fgStep, .fgStep, .fgStep, .dispatch .t0]
    s.fg.busy = true ∧ s.fg.instr = some .rdtick ∧ s.fg.upc = 1 ∧ s.hs = [] ∧ (∀ e ∈ es, e ≠ .reset) ∧
    runOn (.fgStep :: es) s = .next (runEnd (.fgStep :: es) s) ∧
    (runEnd (.fgStep :: es) s).responses = [0x000000FF] := by
  exact ⟨rfl, rfl, rfl, rfl, by decide, rfl, by decide⟩

/-- The run of V43 from the delay's first step: seven steps, one count event, the poll and two steps. -/
def delayEvents : List Event :=
  [.fgStep, .fgStep, .fgStep, .fgStep, .fgStep, .fgStep, .fgStep, .count .t0, .fgStep, .fgStep, .fgStep]

/-- V43 at the delay's first step: `DELAYUS 1` at 12 MHz, `R = 0xFFFF`, `LOOP = 1`. -/
def delayStart : State :=
  { busyAt (.delayus 1) 1 0x00 with fg := { (busyAt (.delayus 1) 1 0x00).fg with r := some 0xFFFF } }

/-- R99's precondition by a masked line. -/
theorem witness_DelayLastsAtLeastItsCounts :
    (Instr.delayus 1 = .delayus 1 ∧ TickUnit.us = .us ∨ Instr.delayus 1 = .delayms 1 ∧ TickUnit.us = .ms) ∧
    (1 : Half) ≠ 0 ∧ delayStart.fg.busy = true ∧ delayStart.fg.instr = some (.delayus 1) ∧ delayStart.fg.upc = 1 ∧
    delayStart.fg.r = some (reload delayStart.cfg .us) ∧ delayStart.fg.loop = some 1 ∧ DelayPrecondition delayStart ∧
    (∀ f ∈ delayStart.hs, f.t ≠ .t0) ∧ readBit (.ovf .t0) delayStart = false ∧ readBit (.run .t0) delayStart = false ∧
    (∀ e ∈ delayEvents, e ≠ .reset) ∧ runOn delayEvents delayStart = .next (runEnd delayEvents delayStart) ∧
    (runEnd delayEvents delayStart).responses ≠ delayStart.responses := by
  refine ⟨.inl ⟨rfl, rfl⟩, by decide, rfl, rfl, rfl, by decide, rfl, .inl rfl, ?_, rfl, rfl, by decide, rfl, by decide⟩
  intro f hf; cases hf

/-- The same with Timer 0's line unmasked and `GIE = 0`. -/
def delayUnmasked : State := { delayStart with regs := { Regs.reset with ien0 := true } }

/-- R99's precondition by `GIE = 0` alone. -/
theorem witness_DelayLastsAtLeastItsCounts_unmasked :
    (Instr.delayus 1 = .delayus 1 ∧ TickUnit.us = .us ∨ Instr.delayus 1 = .delayms 1 ∧ TickUnit.us = .ms) ∧
    (1 : Half) ≠ 0 ∧ delayUnmasked.fg.busy = true ∧ delayUnmasked.fg.instr = some (.delayus 1) ∧ delayUnmasked.fg.upc = 1 ∧
    delayUnmasked.fg.r = some (reload delayUnmasked.cfg .us) ∧ delayUnmasked.fg.loop = some 1 ∧ DelayPrecondition delayUnmasked ∧
    (∀ f ∈ delayUnmasked.hs, f.t ≠ .t0) ∧ readBit (.ovf .t0) delayUnmasked = false ∧ readBit (.run .t0) delayUnmasked = false ∧
    (∀ e ∈ delayEvents, e ≠ .reset) ∧ runOn delayEvents delayUnmasked = .next (runEnd delayEvents delayUnmasked) ∧
    (runEnd delayEvents delayUnmasked).responses ≠ delayUnmasked.responses := by
  refine ⟨.inl ⟨rfl, rfl⟩, by decide, rfl, rfl, rfl, by decide, rfl, .inr rfl, ?_, rfl, rfl, by decide, rfl, by decide⟩
  intro f hf; cases hf

/-- The infinite run that begins with V43 and then waits: nothing is enabled any more but the host's own steps. -/
def delayRun (n : Nat) : State := runEnd (delayEvents.take n) delayStart

/-- Its steps. -/
def delayRunEvent (n : Nat) : Event := (delayEvents[n]?).getD .fgStep

theorem delayRun_done (n : Nat) (h : 11 ≤ n) : delayRun n = runEnd delayEvents delayStart := by
  rw [delayRun, List.take_of_length_le (show delayEvents.length ≤ n from h)]

theorem delayRun_isRun : IsRun delayRun delayRunEvent := by
  intro n
  by_cases h : n < 11
  · interval_cases n <;> rfl
  · have h' : 11 ≤ n := Nat.le_of_not_lt h
    rw [delayRun_done n h', delayRun_done (n + 1) (Nat.le_succ_of_le h'), delayRunEvent,
      List.getElem?_eq_none (show delayEvents.length ≤ n from h')]
    rfl

/-- A step not enabled at the end of the run is weakly fair in it. -/
theorem delayRun_fair (e : Event) (h : enabled e (runEnd delayEvents delayStart) = false) :
    WeaklyFair e delayRun delayRunEvent := by
  intro n hn
  have := hn (n + 11) (Nat.le_add_right n 11)
  rw [delayRun_done (n + 11) (Nat.le_add_left 11 n), h] at this
  cases this

theorem delayRun_fairCount (t : Timer) (h : enabled (.count t) (runEnd delayEvents delayStart) = false) :
    FairCount t delayRun delayRunEvent := by
  intro n hn
  have := (hn (n + 11) (Nat.le_add_right n 11)).1
  rw [delayRun_done (n + 11) (Nat.le_add_left 11 n), h] at this
  cases this

theorem inv_delayStart : Machine.Inv delayStart where
  oscPos := by decide
  bit3 := by unfold ModeBit3Clear; decide
  frames := ⟨by decide, fun _ => by decide, fun f hf => by cases hf⟩
  foreground := fun _ => ⟨.delayus 1, rfl, rfl, ⟨by decide, by decide⟩, ⟨fun _ => rfl, rfl, rfl, by decide⟩, fun _ => rfl,
    fun h => by cases h⟩

theorem witness_DelayCompletesInFairRuns :
    IsRun delayRun delayRunEvent ∧ WeaklyFair .fgStep delayRun delayRunEvent ∧
    FairCount .t0 delayRun delayRunEvent ∧ (∀ n, delayRunEvent n ≠ .reset) ∧ Machine.Inv (delayRun 0) ∧
    InterruptsOff (delayRun 0) ∧ (delayRun 0).hs = [] ∧ (delayRun 0).fg.busy = true ∧
    (delayRun 0).fg.instr = some (.delayus 1) ∧ isDelay (.delayus 1) = true ∧ (delayRun 0).fg.upc = 1 := by
  refine ⟨delayRun_isRun, delayRun_fair _ rfl, delayRun_fairCount _ rfl, fun n => ?_, inv_delayStart,
    fun t => .inr rfl, rfl, rfl, rfl, rfl, rfl⟩
  by_cases h : n < 11
  · interval_cases n <;> decide
  · rw [delayRunEvent, List.getElem?_eq_none (show delayEvents.length ≤ n from Nat.le_of_not_lt h)]
    decide

theorem witness_ReloadFormula :
    (clocked 11999 .truncate).reloadClamp = .truncate ∧ (clocked 11999 .saturate).reloadClamp = .saturate ∧
    1 ≤ 12000 / (1000 * 12) ∧ 786432000 / (1000 * 12) ≤ 65536 := by decide

theorem witness_CountNeedsTheRunBit :
    readBit (.run .t1) (withRegs fun r => { r with run1 := true }) = true ∧ readBit (.run .t1) base = false := by decide

theorem witness_CountInMode1 :
    let s := withRegs fun r => { r with mode := 0x50, run1 := true, cl1 := 0xFF, ch1 := 0xFF, ovf1 := true }
    readBit (.run .t1) s = true ∧ timerMode .t1 s = .bit16 ∧ timerCt .t1 s = .counter := by decide

/-- Both values of the law's count: the longest, from `0x0000`, and the shortest, from `0xFFFF`. -/
theorem witness_CountToOverflow :
    let s := withRegs fun r => { r with mode := 0x01, run0 := true }
    let s' := withRegs fun r => { r with mode := 0x01, run0 := true, cl0 := 0xFF, ch0 := 0xFF }
    readBit (.run .t0) s = true ∧ timerMode .t0 s = .bit16 ∧ readBit (.ovf .t0) s = false ∧ countOf .t0 s = 0 ∧
    readBit (.run .t0) s' = true ∧ timerMode .t0 s' = .bit16 ∧ readBit (.ovf .t0) s' = false ∧
    1 = (if countOf .t0 s' = 0 then 65536 else 65536 - (countOf .t0 s').toNat) := by decide

/-- Each value of the parameter, and each mode under `mcs51`. -/
theorem witness_CountInOtherModes :
    let s := fun (m : Byte) (o : Config.OtherModeCount) =>
      { withRegs (fun r => { r with mode := m, run0 := true, run1 := true }) with
        cfg := { refCfg with otherModeCount := o } }
    enabled .countHigh (s 0x03 .mcs51) = true ∧
    readBit (.run .t0) (s 0x00 .refuse) = true ∧ timerMode .t0 (s 0x00 .refuse) ≠ .bit16 ∧
    (s 0x00 .refuse).cfg.otherModeCount = .refuse ∧ (s 0x02 .any).cfg.otherModeCount = .any ∧
    timerMode .t0 (s 0x02 .any) ≠ .bit16 ∧ (s 0x00 .mcs51).cfg.otherModeCount = .mcs51 ∧
    timerMode .t0 (s 0x00 .mcs51) = .free13 ∧ timerMode .t1 (s 0x20 .mcs51) = .auto8 ∧
    timerMode .t1 (s 0x30 .mcs51) = .split8 ∧ timerMode .t0 (s 0x03 .mcs51) = .split8 := by decide

/-- The readiness the rule states, in the state of V33 and with both sources pending under `t0_first`. -/
theorem witness_DispatchEnabledExactlyWhen :
    (∀ t, dispatchReady t (v33 []) = true ↔
      readBit (.ovf t) (v33 []) = true ∧ readBit (.ien t) (v33 []) = true ∧ readBit .gie (v33 []) = true ∧
        (∀ f ∈ (v33 []).hs, f.t ≠ t) ∧ ((v33 []).hs = [] ∨ (v33 []).cfg.nesting = .cross)) ∧
    enabled (.dispatch .t0) (v33 []) = true ∧
    (let s := { withRegs (fun r => { r with ovf0 := true, ovf1 := true, ien0 := true, ien1 := true, gie := true }) with
        cfg := { refCfg with dispatchOrder := .t0First } };
      enabled (.dispatch .t0) s = true ∧ enabled (.dispatch .t1) s = false) :=
  ⟨fun t => dispatchReady_iff t _, by decide, by decide⟩

theorem witness_DispatchEntersTheHandler : enabled (.dispatch .t0) (v33 []) = true := by decide

theorem witness_HandlerSteps :
    (v33 [entered .t0]).hs = entered .t0 :: [] ∧ (entered .t0).upc = .h1 ∧
    ({ entered .t1 with upc := .h2 } : Frame).upc = .h2 ∧ ({ entered .t1 with upc := .h3 } : Frame).upc = .h3 ∧
    (let f : Frame := { entered .t1 with upc := .h4, tt := some 0xFFFFFFFF, tickread := true };
      f.upc = .h4 ∧ f.raced = false ∧ f.tt = some 0xFFFFFFFF) := by decide

theorem witness_NestedRaceIsADraw :
    let f : Frame := { entered .t1 with upc := .h4, tt := some 5, tickread := true, raced := true }
    let g : Frame := { entered .t0 with upc := .h4, tt := some 5, tickread := true }
    (v33 [f, g, entered .t0]).hs = f :: [g, entered .t0] ∧ f.upc = .h4 ∧ f.raced = true ∧ g.tickread = true ∧
    (entered .t0).tickread = false := by decide

theorem witness_DispatchedHandlerRunsThrough : enabled (.dispatch .t0) (v33 []) = true ∧ (v33 []).hs = [] := by decide

theorem inv_v33 : Machine.Inv (v33 []) where
  oscPos := by decide
  bit3 := by unfold ModeBit3Clear; decide
  frames := ⟨by decide, fun _ => by decide, fun f hf => by cases hf⟩
  foreground := fun h => by cases h

/-- V33 whole, a dispatch and the four steps of its handler. -/
theorem witness_TickCountsTheServedDispatches :
    let es := [.dispatch .t0, .hStep, .hStep, .hStep, .hStep]
    Machine.Inv (v33 []) ∧ (v33 []).cfg.nesting = .none ∧
    (∀ f ∈ (v33 []).hs, f.raced = false ∧ (f.tickread = true → f.tt = some (tickOf (v33 [])))) ∧
    (∀ e ∈ es, e ≠ .reset) ∧ runOn es (v33 []) = .next (runEnd es (v33 [])) ∧
    countTaken (fun e => e == .dispatch .t0 || e == .dispatch .t1) es (v33 []) = 1 := by
  refine ⟨inv_v33, rfl, fun f hf => ?_, by decide, rfl, by decide⟩
  cases hf

theorem witness_AfterResetOnlyTheHostSteps :
    let s := { base with commands := [0x09000000] }
    s.regs = State.reset.regs ∧ s.fg = State.reset.fg ∧ s.hs = State.reset.hs ∧ enabled .issue s = true := by decide

theorem witness_OnlyTheMatrixWrites :
    runEvent (.dispatch .t0) (v33 []) = .next (runEnd [.dispatch .t0] (v33 [])) ∧ Event.dispatch .t0 ≠ .reset ∧
    readBit (.ovf .t0) (v33 []) = true ∧ readBit (.ovf .t0) (runEnd [.dispatch .t0] (v33 [])) = false :=
  ⟨rfl, by decide, rfl, rfl⟩

/-- A reserved word, answered in its `Issue`; and a `Reset` that drops a command in progress. -/
theorem witness_OneAnswerPerCommand :
    runEvent .issue (waiting 0x0C000000) = .next (runEnd [.issue] (waiting 0x0C000000)) ∧
    (runEnd [.issue] (waiting 0x0C000000)).responses = [0] ∧ (runEnd [.issue] (waiting 0x0C000000)).commands = [] ∧
    awaited (waiting 0x0C000000) = 1 ∧ awaited (runEnd [.issue] (waiting 0x0C000000)) = 0 ∧
    runEvent .reset (busyAt (.stop 0) 1 0) = .next (runEnd [.reset] (busyAt (.stop 0) 1 0)) ∧
    awaited (runEnd [.reset] (busyAt (.stop 0) 1 0)) = 0 :=
  ⟨rfl, rfl, rfl, rfl, rfl, rfl, rfl⟩

/-- `START 1` issued and completed: the run is finished at its second step, not before and not after; and a `Reset` in
its place leaves it unfinished. -/
theorem witness_FinishedRun :
    let s := waiting 0x03010000
    Finished [.issue, .fgStep] s ∧ AllCompleted s (runEnd [.issue, .fgStep] s) ∧
    runOn [.issue] s = .next (runEnd [.issue] s) ∧ (runEnd [.issue] s).fg.busy = true ∧
    runOn (.reset :: [.fgStep]) (runEnd [.issue] s) = .next (runEnd [.issue, .reset, .fgStep] s) ∧
    ¬ AllCompleted s (runEnd [.issue, .reset, .fgStep] s) ∧
    runOn [.hStep] (runEnd [.issue, .fgStep] s) = .next (runEnd [.issue, .fgStep, .hStep] s) := by
  refine ⟨⟨⟨_, rfl, rfl, rfl, rfl, rfl⟩, fun k hk u hu hf => ?_⟩, ⟨rfl, rfl, rfl, rfl⟩, rfl, rfl, rfl,
    fun h => absurd h.2.1 (by decide), rfl⟩
  have hk2 : k < 2 := hk
  interval_cases k <;> cases hu <;> exact absurd hf.2.1 (by decide)

theorem witness_ParametersNeverChange :
    step { busyAt (.start 0) 1 0 with sched := [.fgStep] } =
      .next (stateOf base (step { busyAt (.start 0) 1 0 with sched := [.fgStep] })) := rfl

/-- The invariant holds of a state with a command in progress, and the step it takes. -/
theorem witness_EveryStepKeepsTheInvariant :
    let s := { busyAt (.cfgmode 1 1 2) 4 0x01 with sched := [.fgStep] }
    Machine.Inv s ∧ step s = .next (stateOf s (step s)) := by
  have h := inv_busyAt_cfgmode
  exact ⟨⟨h.oscPos, h.bit3, h.frames, h.foreground⟩, rfl⟩

/-- Both outcomes: a next state, and the refusal right after `START` from reset. -/
theorem witness_OnlyOtherModeCountsAreRefused :
    Machine.Inv (v33 []) ∧
    (let s := { withRegs (fun r => { r with run0 := true }) with sched := [.count .t0] };
      step s = .refused (.otherModeCount .t0 .free13)) := ⟨inv_v33, rfl⟩

end Sys2Proof.Tests
end

section
/-! PROOF. What each agent's step leaves unchanged and when a step answers a next state, and from it the statements on
the machine's scope: parameters, guards, outcomes, answers and the end of a run (00_scope.md R6 to R15). -/

namespace Sys2Proof.Machine

open Sys2Proof

/-! ## A micro-step touches register cells and foreground latches alone -/

/-- The change leaves everything but the register cells and the foreground's latches as it was (00_scope.md R8). -/
def OnlyRegsAndFg (e : State → State) : Prop := ∀ s, e s = { s with regs := (e s).regs, fg := (e s).fg }

theorem onlyRegsAndFg_configAccesses (t : Timer) (f : Byte) : ∀ e ∈ configAccesses t f, OnlyRegsAndFg e := by
  simp only [configAccesses, List.forall_mem_cons]
  exact ⟨fun _ => rfl, fun _ => rfl, fun _ => rfl, fun _ => rfl, List.forall_mem_nil _⟩

theorem onlyRegsAndFg_loadAccesses (t : Timer) (v : State → Half) : ∀ e ∈ loadAccesses t v, OnlyRegsAndFg e := by
  simp only [loadAccesses, List.forall_mem_cons]
  exact ⟨fun _ => rfl, fun _ => rfl, List.forall_mem_nil _⟩

theorem onlyRegsAndFg_irqOnAccesses (t : Timer) (v : State → Half) : ∀ e ∈ irqOnAccesses t v, OnlyRegsAndFg e := by
  simp only [irqOnAccesses, List.forall_mem_append, List.forall_mem_cons]
  exact ⟨⟨onlyRegsAndFg_configAccesses _ _, onlyRegsAndFg_loadAccesses _ _⟩,
    fun _ => rfl, fun _ => rfl, fun _ => rfl, List.forall_mem_nil _⟩

theorem onlyRegsAndFg_cacheAccesses : ∀ e ∈ cacheAccesses, OnlyRegsAndFg e := by
  simp only [cacheAccesses, List.forall_mem_cons]
  exact ⟨fun _ => rfl, fun _ => rfl, List.forall_mem_nil _⟩

theorem onlyRegsAndFg_snapAccesses : ∀ e ∈ snapAccesses, OnlyRegsAndFg e := by
  simp only [snapAccesses, List.forall_mem_cons]
  exact ⟨fun _ => rfl, fun _ => rfl, fun _ => rfl, fun _ => rfl, List.forall_mem_nil _⟩

/-- A straight-line micro-program touches no more than its accesses do. -/
theorem onlyRegsAndFg_straight (result : State → Word) (l : List (State → State)) (h : ∀ e ∈ l, OnlyRegsAndFg e) :
    ∀ m ∈ straight result l, OnlyRegsAndFg (fun s => (m s).1) := by
  intro m hm
  obtain ⟨k, hk⟩ := List.mem_iff_getElem?.mp hm
  rw [straight_getElem?, Option.map_eq_some_iff] at hk
  obtain ⟨e, he, rfl⟩ := hk
  exact h e (List.mem_of_getElem? he)

theorem onlyRegsAndFg_delayProgram : ∀ m ∈ delayProgram, OnlyRegsAndFg (fun s => (m s).1) := by
  simp only [delayProgram, List.forall_mem_append, List.forall_mem_map, List.forall_mem_cons]
  exact ⟨⟨⟨onlyRegsAndFg_configAccesses _ _, onlyRegsAndFg_loadAccesses _ _⟩, fun _ => rfl, List.forall_mem_nil _⟩,
    fun _ => rfl, fun _ => rfl, fun _ => rfl, List.forall_mem_nil _⟩

/-- Every micro-step of every command touches register cells and foreground latches alone. -/
theorem onlyRegsAndFg_programOf (p : Config.Params) (i : Instr) :
    ∀ m ∈ programOf p i, OnlyRegsAndFg (fun s => (m s).1) := by
  cases i with
  | cfgmode a b c =>
    simp only [programOf]
    split
    · exact onlyRegsAndFg_straight _ _ (onlyRegsAndFg_configAccesses _ _)
    · exact List.forall_mem_nil _
  | loadcnt a imm =>
    simp only [programOf]
    split
    · exact onlyRegsAndFg_straight _ _ (onlyRegsAndFg_loadAccesses _ _)
    · exact List.forall_mem_nil _
  | start a | rdovf a =>
    simp only [programOf]
    split
    · exact onlyRegsAndFg_straight _ _ (List.forall_mem_singleton.mpr fun _ => rfl)
    · exact List.forall_mem_nil _
  | stop a | irqmodeOff a =>
    simp only [programOf]
    split
    · refine onlyRegsAndFg_straight _ _ (List.forall_mem_cons.mpr ⟨fun _ => rfl, ?_⟩)
      exact List.forall_mem_singleton.mpr fun _ => rfl
    · exact List.forall_mem_nil _
  | irqmodeOn a imm =>
    simp only [programOf]
    split
    · exact onlyRegsAndFg_straight _ _ (onlyRegsAndFg_irqOnAccesses _ _)
    · exact List.forall_mem_nil _
  | inittick a c =>
    simp only [programOf]
    split
    · exact onlyRegsAndFg_straight _ _
        (List.forall_mem_append.mpr ⟨onlyRegsAndFg_cacheAccesses, onlyRegsAndFg_irqOnAccesses _ _⟩)
    · exact List.forall_mem_nil _
  | rdtick =>
    simp only [programOf]
    split
    · refine onlyRegsAndFg_straight _ _ ?_
      simp only [rdtickSetAccesses, List.forall_mem_append, List.forall_mem_singleton]
      exact ⟨⟨fun _ => rfl, onlyRegsAndFg_snapAccesses⟩, fun _ => rfl⟩
    · refine onlyRegsAndFg_straight _ _ ?_
      simp only [rdtickSavedAccesses, List.forall_mem_append, List.forall_mem_cons]
      exact ⟨⟨⟨fun _ => rfl, fun _ => rfl, List.forall_mem_nil _⟩, onlyRegsAndFg_snapAccesses⟩, fun _ => rfl,
        List.forall_mem_nil _⟩
  | delayus n | delayms n => exact onlyRegsAndFg_delayProgram

/-- Whatever `exec` answers, the handlers, the parameters, the schedule and the count of draws are as they were. -/
theorem exec_rest (i : Instr) (s s' : State) (h : exec i s = .next s') :
    s'.hs = s.hs ∧ s'.cfg = s.cfg ∧ s'.sched = s.sched ∧ s'.draws = s.draws := by
  rcases exec_next i s s' h with ⟨-, rfl⟩ | ⟨-, -, rfl⟩ | ⟨-, -, -, m, hm, rfl⟩
  · exact ⟨rfl, rfl, rfl, rfl⟩
  · exact ⟨rfl, rfl, rfl, rfl⟩
  · obtain ⟨ahs, acfg, asched, -, adraws⟩ := advance_rest (m s)
    have hms : (m s).1 = _ := onlyRegsAndFg_programOf s.cfg i m (List.mem_of_getElem? hm) s
    rw [ahs, acfg, asched, adraws, hms]
    exact ⟨rfl, rfl, rfl, rfl⟩

/-! ## What the hardware's steps leave unchanged -/

/-- What counting, dispatching and handling leave alone: the foreground, the parameters, the host's lists, and every
cell but the count registers, `TICK` and the overflow flags. -/
structure HardwareFrame (s s' : State) : Prop where
  fg        : s'.fg = s.fg
  cfg       : s'.cfg = s.cfg
  commands  : s'.commands = s.commands
  responses : s'.responses = s.responses
  bytes     : ∀ c, (∀ t, c ≠ .cl t) → (∀ t, c ≠ .ch t) → (∀ k, c ≠ .tick k) → readByte c s' = readByte c s
  bits      : ∀ b, (∀ t, b ≠ .ovf t) → readBit b s' = readBit b s

theorem HardwareFrame.refl (s : State) : HardwareFrame s s :=
  ⟨rfl, rfl, rfl, rfl, fun _ _ _ _ => rfl, fun _ _ => rfl⟩

theorem HardwareFrame.trans {s u s' : State} (h : HardwareFrame s u) (h' : HardwareFrame u s') : HardwareFrame s s' where
  fg := h'.fg.trans h.fg
  cfg := h'.cfg.trans h.cfg
  commands := h'.commands.trans h.commands
  responses := h'.responses.trans h.responses
  bytes c h1 h2 h3 := (h'.bytes c h1 h2 h3).trans (h.bytes c h1 h2 h3)
  bits b hb := (h'.bits b hb).trans (h.bits b hb)

theorem countStep_hardwareFrame (t : Timer) (s s' : State) (h : countStep t s = .next s') : HardwareFrame s s' := by
  obtain ⟨hbytes, hbits, -, hfg, -, hcfg, -, hcommands, hresponses⟩ := countStep_frame t s s' h
  exact ⟨hfg, hcfg, hcommands, hresponses, fun c h1 h2 _ => hbytes c (h1 t) (h2 t), fun b hb => hbits b (hb t)⟩

theorem countHigh_hardwareFrame (s : State) : HardwareFrame s (countHigh s) := by
  obtain ⟨-, -, hbytes, hbits, hrest⟩ := count8_spec (.ch .t0) .t1 s
  refine ⟨?_, ?_, ?_, ?_, fun c _ h2 _ => hbytes c (h2 .t0), fun b hb => hbits b (hb .t1)⟩ <;>
    rw [countHigh, hrest]

theorem takeInterrupt_hardwareFrame (t : Timer) (s : State) : HardwareFrame s (takeInterrupt t s) :=
  ⟨rfl, rfl, rfl, rfl, fun _ _ _ _ => by simp, fun b hb => by simp [readBit_takeInterrupt, hb t]⟩

theorem handlerStep_hardwareFrame (f : Frame) (s : State) : HardwareFrame s (handlerStep f s) := by
  obtain ⟨hbytes, hbits, hfg, hcfg, -, hcommands, hresponses⟩ := handlerStep_frame f s
  exact ⟨hfg, hcfg, hcommands, hresponses, fun c h1 h2 h3 => hbytes c (h1 f.t) (h2 f.t) h3, fun b _ => hbits b⟩

/-! ## One step, seen from the host -/

/-- After the foreground's move it is busy with nothing answered, or idle with one answer given. -/
def BusyOrAnswered (s s' : State) : Prop :=
  s'.fg.busy = true ∧ s'.responses = s.responses ∨ s'.fg.busy = false ∧ ∃ v, s'.responses = v :: s.responses

/-- The four things a step can be to the host: a step of the hardware, the issue of the next word, a move of the
foreground on the command in progress, or a reset. -/
theorem runEvent_agent (e : Event) (s s' : State) (h : runEvent e s = .next s') :
    HardwareFrame s s' ∨
    (e = .issue ∧ s.fg.busy = false ∧ (∃ w, s.commands = w :: s'.commands) ∧ s'.cfg = s.cfg ∧ BusyOrAnswered s s') ∨
    (e = .fgStep ∧ s.fg.busy = true ∧ s'.commands = s.commands ∧ s'.cfg = s.cfg ∧ BusyOrAnswered s s') ∨
    (e = .reset ∧ s' = resetStep s) := by
  rcases runEvent_cases e s s' h with ⟨-, rfl⟩ | ⟨he, hb, -, w, rest, hc, hi⟩ | ⟨he, hb, -, i, -, hx⟩ |
    ⟨t, -, -, hx⟩ | ⟨-, -, rfl⟩ | ⟨t, -, -, rfl⟩ | ⟨-, f, -, -, rfl⟩ | ⟨he, hr⟩
  · exact .inl (.refl _)
  · refine .inr (.inl ⟨he, hb, ?_⟩)
    rcases hi with ⟨i, -, hx⟩ | ⟨-, rfl⟩
    · obtain ⟨hcommands, hanswer⟩ := exec_answers i _ s' hx
      obtain ⟨-, hcfg, -⟩ := exec_rest i _ s' hx
      exact ⟨⟨w, by rw [hcommands, hc, fetched_commands]⟩, hcfg, hanswer⟩
    · exact ⟨⟨w, hc⟩, rfl, .inr ⟨rfl, 0, rfl⟩⟩
  · obtain ⟨hcommands, hanswer⟩ := exec_answers i s s' hx
    obtain ⟨-, hcfg, -⟩ := exec_rest i s s' hx
    exact .inr (.inr (.inl ⟨he, hb, hcommands, hcfg, hanswer⟩))
  · exact .inl (countStep_hardwareFrame t s s' hx)
  · exact .inl (countHigh_hardwareFrame s)
  · exact .inl (takeInterrupt_hardwareFrame t s)
  · exact .inl (handlerStep_hardwareFrame f s)
  · exact .inr (.inr (.inr ⟨he, hr⟩))

/-- No event changes a parameter. -/
theorem runEvent_cfg (e : Event) (s s' : State) (h : runEvent e s = .next s') : s'.cfg = s.cfg := by
  rcases runEvent_agent e s s' h with hf | ⟨-, -, -, hcfg, -⟩ | ⟨-, -, -, hcfg, -⟩ | ⟨-, rfl⟩
  · exact hf.cfg
  · exact hcfg
  · exact hcfg
  · rfl

/-! ## The guards of the step table -/

/-- When a foreground step is enabled (00_scope.md R9, R10). -/
theorem enabled_fgStep_iff (s : State) : enabled .fgStep s = true ↔ s.fg.busy = true ∧ s.hs = [] := by
  simp [enabled]

/-- When an `Issue` is enabled (00_scope.md R9, R10; log 5). -/
theorem enabled_issue_iff (s : State) :
    enabled .issue s = true ↔ s.fg.busy = false ∧ s.hs = [] ∧ s.commands ≠ [] := by
  simp [enabled, and_assoc]

/-- When a handler's step is enabled (00_scope.md R9). -/
theorem enabled_hStep_iff (s : State) : enabled .hStep s = true ↔ s.hs ≠ [] := by
  simp [enabled]

/-- An event without its guard leaves the state as it was (log 2). -/
theorem runEvent_of_not_enabled (e : Event) (s : State) (h : ¬ enabled e s = true) : runEvent e s = .next s :=
  runEvent_disabled e s (Bool.not_eq_true _ ▸ h)

/-! ## When a step answers a next state -/

/-- The foreground's move on a command answers a next state if the label, while busy, is one of the command's. -/
theorem exec_isNext (i : Instr) (s : State) (hl : s.fg.busy = true → labelOf s.cfg i s.fg.upc) :
    ∃ s', exec i s = .next s' := by
  cases hs : hasSteps i with
  | false => exact ⟨_, exec_noSteps i s hs⟩
  | true =>
    cases hb : s.fg.busy with
    | false => exact ⟨_, exec_idle i s hs hb⟩
    | true =>
      obtain ⟨hlow, hhigh⟩ := hl hb
      have hk : s.fg.upc - firstLabel s.cfg i < (programOf s.cfg i).length := by
        rw [programOf_length _ _ hs]; omega
      exact ⟨_, exec_busy i s _ hs hb hlow (List.getElem?_eq_getElem hk)⟩

/-- An `Issue` to an idle foreground always answers a next state. -/
theorem issueStep_isNext (s : State) (hb : s.fg.busy = false) : ∃ s', issueStep s = .next s' := by
  unfold issueStep
  split
  · exact ⟨_, rfl⟩
  · split
    · exact exec_isNext _ _ fun h => by simp [hb] at h
    · exact ⟨_, rfl⟩

/-- A count event answers a next state, or is refused outside mode 1 under `refuse` (60_exceptions.md R104). -/
theorem countStep_isNext_or_refused (t : Timer) (s : State) :
    (∃ s', countStep t s = .next s') ∨
    (timerMode t s ≠ .bit16 ∧ s.cfg.otherModeCount = .refuse ∧
      countStep t s = .refused (.otherModeCount t (timerMode t s))) := by
  unfold countStep
  split
  · exact .inl ⟨_, rfl⟩
  · next hm =>
    split
    · next hr => exact .inr ⟨hm, hr, rfl⟩
    · exact .inl ⟨_, rfl⟩
    · exact .inl ⟨_, rfl⟩

/-- In a state whose foreground is at a label of its command, an event answers a next state or is a refused count. -/
theorem runEvent_isNext_or_refused (e : Event) (s : State) (hfg : ForegroundOk s) :
    (∃ s', runEvent e s = .next s') ∨
    ∃ t, e = .count t ∧ readBit (.run t) s = true ∧ timerMode t s ≠ .bit16 ∧ s.cfg.otherModeCount = .refuse ∧
      runEvent e s = .refused (.otherModeCount t (timerMode t s)) := by
  cases he : enabled e s with
  | false => exact .inl ⟨s, runEvent_disabled e s he⟩
  | true =>
    rw [runEvent_enabled e s he]
    cases e with
    | issue =>
      obtain ⟨hb, -⟩ := (enabled_issue_iff s).mp he
      exact .inl (issueStep_isNext s hb)
    | fgStep =>
      obtain ⟨hb, -⟩ := (enabled_fgStep_iff s).mp he
      obtain ⟨i, hi, -, hl, -⟩ := hfg hb
      simp only [effect, fgStep, hi]
      exact .inl (exec_isNext i s fun _ => hl)
    | count t =>
      rcases countStep_isNext_or_refused t s with hn | ⟨hm, hr, hx⟩
      · exact .inl hn
      · exact .inr ⟨t, rfl, he, hm, hr, hx⟩
    | countHigh | dispatch t | hStep | reset => exact .inl ⟨_, rfl⟩

/-- Choosing the next event keeps the foreground's part of the invariant. -/
theorem foregroundOk_nextEvent (s : State) (h : ForegroundOk s) : ForegroundOk (nextEvent s).2 := by
  obtain ⟨hregs, hfg, -, hcfg, -⟩ := nextEvent_rest s
  simpa only [ForegroundOk, hfg, hcfg, readByte_congr hregs] using h

/-- Settles O59: the event chosen is run in a state with the same foreground and cells, where the invariant's label
gives the foreground a micro-step. -/
theorem onlyOtherModeCountsAreRefused : Obligations.OnlyOtherModeCountsAreRefused := by
  intro s hinv
  obtain ⟨hregs, -, -, hcfg, -⟩ := nextEvent_rest s
  have hmode : ∀ t, timerMode t (nextEvent s).2 = timerMode t s := fun t => by
    simp only [timerMode, readByte_congr hregs]
  rcases runEvent_isNext_or_refused (nextEvent s).1 _ (foregroundOk_nextEvent s hinv.foreground) with
    hn | ⟨t, he, hrun, hm, hr, hx⟩
  · exact .inl hn
  · rw [hmode] at hm hx
    rw [readBit_congr hregs] at hrun
    rw [hcfg] at hr
    exact .inr ⟨t, he, hrun, hm, hr, hx⟩

/-- Settles O56: the event chosen changes no parameter, and neither does choosing it. -/
theorem parametersNeverChange : Obligations.ParametersNeverChange := by
  intro s s' h
  obtain ⟨-, -, -, hcfg, -⟩ := nextEvent_rest s
  exact (runEvent_cfg _ _ _ h).trans hcfg

/-! ## The issue of a command -/

/-- What a command computes at its issue goes into `R` and `LOOP` alone. -/
theorem prepOf_rest (p : Config.Params) (i : Instr) (fg : Fg) :
    prepOf p i fg = { fg with r := (prepOf p i fg).r, loop := (prepOf p i fg).loop } := by
  cases i with
  | inittick a c => simp only [prepOf]; split <;> rfl
  | cfgmode | loadcnt | start | stop | rdovf | irqmodeOff | irqmodeOn | rdtick | delayus | delayms => rfl

/-- Of the units a byte names, 0 is milliseconds and every other valid one is microseconds (30_encoding.md R64). -/
theorem unitOf_of_validUnit (c : Byte) (h : validUnit c = true) : unitOf c = some (if c = 0 then .ms else .us) := by
  revert c; decide

/-- Settles O11, with the latches read off what the command computes at its issue. -/
theorem issueBeginsTheOperation : Obligations.IssueBeginsTheOperation := by
  intro i s hs hb
  refine ⟨_, exec_idle i s hs hb, rfl, rfl, rfl, rfl, rfl, rfl, rfl, ?_⟩
  simp only [begin, onFg_fg]
  rw [prepOf_rest]
  refine ⟨rfl, rfl, rfl, rfl, rfl, rfl, rfl, rfl, rfl, rfl, rfl, rfl, rfl, ?_⟩
  cases i with
  | inittick a c =>
    have hu : validUnit c = true := by
      simp only [hasSteps, Instr.wellFormed, Bool.and_eq_true] at hs
      obtain ⟨-, hu⟩ := hs
      exact hu
    simp only [prepOf, unitOf_of_validUnit c hu, and_self]
  | cfgmode | loadcnt | start | stop | rdovf | irqmodeOff | irqmodeOn | rdtick | delayus | delayms => exact ⟨rfl, rfl⟩

/-- An `Issue` of a word that decodes, taken by an idle foreground, is `exec` of the command with the latches loaded. -/
theorem runEvent_issue_decoded (w : Word) (i : Instr) (rest : List Word) (s : State) (hc : s.commands = w :: rest)
    (hb : s.fg.busy = false) (hh : s.hs = []) (hd : decode w = .ok i) :
    runEvent .issue s = exec i (fetched w rest s) := by
  rw [runEvent_enabled _ _ (by simp [enabled, hb, hh, hc])]
  simp only [effect, issueStep, hc, hd]

/-- A foreground step of a busy foreground, with no handler in service, is `exec` of the command in the latches. -/
theorem runEvent_fgStep_busy (i : Instr) (s : State) (hb : s.fg.busy = true) (hh : s.hs = [])
    (hi : s.fg.instr = some i) : runEvent .fgStep s = exec i s := by
  rw [runEvent_enabled _ _ (by simp [enabled, hb, hh])]
  simp only [effect, fgStep, hi]

/-- The latches an issue leaves hold the command issued. -/
theorem instr_begin (i : Instr) (p : Config.Params) (s : State)
    (h : instrOfFields i.opcode s.fg.a s.fg.b s.fg.c = i) :
    (begin i.opcode (firstLabel p i) (prepOf p i) s).fg.instr = some i := by
  simp only [begin, onFg_fg]
  rw [prepOf_rest]
  exact congrArg some h

/-- Settles O12: the head of the schedule is an `Issue` that can be taken. -/
theorem stepIssuesTheDecodedCommand : Obligations.StepIssuesTheDecodedCommand := by
  intro w i rest es s hsched hc hb hh hd
  exact (step_sched _ _ _ hsched).trans (runEvent_issue_decoded w i rest _ hc hb hh hd)

/-- Settles O13: the head of the schedule is run, a foreground step is `exec`, and an issue that leaves the foreground
busy began the decoded command. -/
theorem stepRunsTheCommandInTheLatches : Obligations.StepRunsTheCommandInTheLatches := by
  refine ⟨step_sched, fun i es s hsched hb hh hi => ?_, fun w i rest s s' hc hb hh hd h hb' => ?_⟩
  · exact (step_sched _ _ _ hsched).trans (runEvent_fgStep_busy i _ hb hh hi)
  · rw [runEvent_issue_decoded w i rest s hc hb hh hd] at h
    rcases exec_next i _ s' h with ⟨-, rfl⟩ | ⟨-, -, rfl⟩ | ⟨-, hbusy, -⟩
    · cases hb'
    · exact instr_begin i _ _ (decode_ok w i hd).2
    · rw [fetched_fg, hb] at hbusy
      cases hbusy

/-- Settles O14: each clause is a guard of the step table, or a step whose guard fails. -/
theorem handlerHoldsTheForeground : Obligations.HandlerHoldsTheForeground := by
  intro s
  refine ⟨fun hh => ⟨?_, ?_⟩, (enabled_hStep_iff s).mpr, fun hh => ?_, fun hb => ?_, fun hb => ?_,
    enabled_fgStep_iff s, enabled_issue_iff s, rfl, fun e => runEvent_disabled e s, fun _ _ => rfl⟩
  · exact runEvent_of_not_enabled _ _ (by simp [enabled_fgStep_iff, hh])
  · exact runEvent_of_not_enabled _ _ (by simp [enabled_issue_iff, hh])
  · exact runEvent_of_not_enabled _ _ (by simp [enabled_hStep_iff, hh])
  · exact runEvent_of_not_enabled _ _ (by simp [enabled_issue_iff, hb])
  · exact runEvent_of_not_enabled _ _ (by simp [enabled_fgStep_iff, hb])

/-! ## The answers -/

/-- The commands accounted for: the answers given, the words waiting and the command in progress (log 22). -/
def accounted (s : State) : Nat := s.responses.length + awaited s

/-- A step of the hardware changes nothing the host can count. -/
theorem HardwareFrame.accounted_eq {s s' : State} (h : HardwareFrame s s') : accounted s' = accounted s := by
  simp only [accounted, awaited, h.responses, h.commands, h.fg]

/-- A command in progress stays in progress or turns into an answer, and so does the next word. -/
theorem BusyOrAnswered.accounted_eq {s s' : State} (h : BusyOrAnswered s s') :
    accounted s' = s.responses.length + s'.commands.length + 1 := by
  rcases h with ⟨hb, hr⟩ | ⟨hb, v, hr⟩ <;> simp only [accounted, awaited, hb, hr] <;> simp <;> omega

/-- A `Reset` drops the command in progress without an answer (70_reset_and_hazards.md R132). -/
theorem accounted_resetStep (s : State) : accounted (resetStep s) + (if s.fg.busy then 1 else 0) = accounted s := by
  simp only [accounted, awaited, resetStep_responses, resetStep_commands, resetStep_fg, Fg.reset]
  simp [Nat.add_assoc]

/-- No step but `Reset` loses or gains a command. -/
theorem runEvent_accounted_eq (e : Event) (s s' : State) (he : e ≠ .reset) (h : runEvent e s = .next s') :
    accounted s' = accounted s := by
  rcases runEvent_agent e s s' h with hf | ⟨-, hb, ⟨w, hc⟩, -, ha⟩ | ⟨-, hb, hc, -, ha⟩ | ⟨hr, -⟩
  · exact hf.accounted_eq
  · rw [ha.accounted_eq]; simp [accounted, awaited, hb, hc]; omega
  · rw [ha.accounted_eq]; simp [accounted, awaited, hb, hc]; omega
  · exact absurd hr he

/-- No step at all gains a command. -/
theorem runEvent_accounted_le (e : Event) (s s' : State) (h : runEvent e s = .next s') :
    accounted s' ≤ accounted s := by
  by_cases he : e = .reset
  · subst he
    cases h
    have := accounted_resetStep s
    omega
  · exact (runEvent_accounted_eq e s s' he h).le

/-- Settles O55: the four kinds of step, each against the four clauses. -/
theorem oneAnswerPerCommand : Obligations.OneAnswerPerCommand := by
  intro e s s' h
  refine ⟨fun he => runEvent_accounted_eq e s s' he h, fun he => ?_, ?_⟩
  · subst he
    cases h
    exact ⟨rfl, rfl, rfl⟩
  · rcases runEvent_agent e s s' h with hf | ⟨he, -, hw, -, ha⟩ | ⟨he, -, hc, -, ha⟩ | ⟨-, rfl⟩
    · exact ⟨.inl hf.responses, .inl hf.commands⟩
    · exact ⟨ha.imp And.right fun ⟨hb, hr⟩ => ⟨hr, hb, .inl he⟩, .inr ⟨he, hw⟩⟩
    · exact ⟨ha.imp And.right fun ⟨hb, hr⟩ => ⟨hr, hb, .inr he⟩, .inl hc⟩
    · exact ⟨.inl rfl, .inl rfl⟩

/-! ## The end of a run -/

/-- Every command has completed when none is left and none was lost on the way. -/
theorem allCompleted_iff (s s' : State) :
    AllCompleted s s' ↔ (s'.commands = [] ∧ s'.fg.busy = false ∧ s'.hs = []) ∧ accounted s' = accounted s := by
  have hidle (hc : s'.commands = []) (hb : s'.fg.busy = false) : accounted s' = s'.responses.length := by
    simp [accounted, awaited, hc, hb]
  constructor
  · rintro ⟨hc, hr, hb, hh⟩
    exact ⟨⟨hc, hb, hh⟩, (hidle hc hb).trans hr⟩
  · rintro ⟨⟨hc, hb, hh⟩, ha⟩
    exact ⟨hc, (hidle hc hb).symm.trans ha, hb, hh⟩

/-- A run without a reset loses and gains no command. -/
theorem runOn_accounted_eq (es : List Event) (s s' : State) (hes : ∀ e ∈ es, e ≠ .reset)
    (h : runOn es s = .next s') : accounted s' = accounted s :=
  runOn_induct (fun u => accounted u = accounted s) es s s'
    (fun e he u u' hu hx => (runEvent_accounted_eq e u u' (hes e he) hx).trans hu) rfl h

/-- No run gains a command. -/
theorem runOn_accounted_le (es : List Event) (s s' : State) (h : runOn es s = .next s') :
    accounted s' ≤ accounted s :=
  runOn_induct (fun u => accounted u ≤ accounted s) es s s'
    (fun e _ u u' hu hx => (runEvent_accounted_le e u u' hx).trans hu) le_rfl h

/-- A run whose `Reset` abandons a command in progress has lost one. -/
theorem runOn_reset_accounted_lt (fs : List Event) (u s' : State) (hb : u.fg.busy = true)
    (h : runOn (.reset :: fs) u = .next s') : accounted s' < accounted u := by
  obtain ⟨v, hv, hrun⟩ := runOn_cons _ _ _ _ h
  cases hv
  have hle := runOn_accounted_le fs _ s' hrun
  have hlost := accounted_resetStep u
  rw [hb, if_pos rfl] at hlost
  omega

/-- After `k` steps of the run every command has completed. -/
def CompletedAt (es : List Event) (s : State) (k : Nat) : Prop :=
  ∃ u, runOn (es.take k) s = .next u ∧ AllCompleted s u

/-- A run is finished after `k` steps exactly when that is the first time every command has completed. -/
theorem finished_take_iff (es : List Event) (s : State) (k : Nat) (hk : k ≤ es.length) :
    Finished (es.take k) s ↔ CompletedAt es s k ∧ ∀ j, j < k → ¬ CompletedAt es s j := by
  have htake (j : Nat) (hj : j < k) : (es.take k).take j = es.take j := by
    rw [List.take_take, min_eq_left hj.le]
  unfold Finished
  rw [List.length_take, min_eq_left hk]
  refine and_congr_right fun _ => forall₂_congr fun j hj => ?_
  rw [htake j hj]
  simp only [CompletedAt, not_exists, not_and]

/-- A run that comes to completion is finished at one of its states and no other. -/
theorem exists_unique_finished_take (es : List Event) (s s' : State) (h : runOn es s = .next s')
    (hc : AllCompleted s s') :
    ∃ k, k ≤ es.length ∧ Finished (es.take k) s ∧ ∀ j, j ≤ es.length → Finished (es.take j) s → j = k := by
  classical
  have hend : CompletedAt es s es.length := ⟨s', by rwa [List.take_length], hc⟩
  have hex : ∃ k, CompletedAt es s k := ⟨_, hend⟩
  have hle : Nat.find hex ≤ es.length := Nat.find_min' hex hend
  refine ⟨Nat.find hex, hle, (finished_take_iff es s _ hle).mpr ⟨Nat.find_spec hex, fun j => Nat.find_min hex⟩,
    fun j hj hf => ?_⟩
  obtain ⟨hat, hfirst⟩ := (finished_take_iff es s j hj).mp hf
  exact le_antisymm (not_lt.mp fun hlt => hfirst _ hlt (Nat.find_spec hex)) (Nat.find_min' hex hat)

/-- With no word waiting and the foreground idle, only the hardware steps until a reset. -/
theorem runEvent_hardwareFrame_of_idle (e : Event) (s s' : State) (hc : s.commands = []) (hb : s.fg.busy = false)
    (he : e ≠ .reset) (h : runEvent e s = .next s') : HardwareFrame s s' := by
  rcases runEvent_agent e s s' h with hf | ⟨-, -, ⟨w, hw⟩, -⟩ | ⟨-, hbusy, -⟩ | ⟨hr, -⟩
  · exact hf
  · simp [hc] at hw
  · simp [hb] at hbusy
  · exact absurd hr he

/-- The same of a whole run. -/
theorem runOn_hardwareFrame_of_idle (fs : List Event) (s t : State) (hc : s.commands = []) (hb : s.fg.busy = false)
    (hfs : ∀ e ∈ fs, e ≠ .reset) (h : runOn fs s = .next t) : HardwareFrame s t :=
  runOn_induct (HardwareFrame s) fs s t
    (fun e he u u' hu hx => hu.trans <| runEvent_hardwareFrame_of_idle e u u' (hu.commands.trans hc)
      (by rw [hu.fg, hb]) (hfs e he) hx) (.refl s) h

/-- Settles O60: commands are lost at a `Reset` alone, the first completed state is unique, and after it only the
hardware steps. -/
theorem finishedRun : Obligations.FinishedRun := by
  refine ⟨fun es s s' hes h => ?_, fun es fs s u s' h hb hrun hc => ?_, exists_unique_finished_take,
    fun es fs s s' t h hfin hfs hrun => ?_⟩
  · rw [allCompleted_iff, and_iff_left (runOn_accounted_eq es s s' hes h)]
  · have hle := runOn_accounted_le es s u h
    have hlt := runOn_reset_accounted_lt fs u s' hb hrun
    obtain ⟨-, heq⟩ := (allCompleted_iff s s').mp hc
    omega
  · obtain ⟨⟨v, hv, hc, -, hb, -⟩, -⟩ := hfin
    obtain rfl : v = s' := by simpa [h] using hv.symm
    have hf := runOn_hardwareFrame_of_idle fs v t hc hb hfs hrun
    refine ⟨hf.responses, hf.fg, hf.commands.trans hc, ?_, fun u => ?_, fun u => ?_, ?_, ?_⟩
    · exact hf.bytes .mode (by simp) (by simp) (by simp)
    · exact hf.bits (.run u) (by simp)
    · exact hf.bits (.ien u) (by simp)
    · exact hf.bits .gie (by simp)
    · rw [prvOf, hf.bytes .prvH (by simp) (by simp) (by simp), hf.bytes .prvL (by simp) (by simp) (by simp), prvOf]

end Sys2Proof.Machine
end

section
/-! PROOF. The numbers of the cells, the state after reset, the access matrix, and the invariant that every step of the
machine keeps (10_state.md R24 to R41). -/

namespace Sys2Proof.Machine

open Sys2Proof

/-! ## The numbers of the cells -/

theorem byteCellOf_byteCellNumber (c : ByteCell) : byteCellOf (byteCellNumber c) = some c := by
  cases c with
  | mode | prvL | prvH => rfl
  | cl t | ch t => cases t <;> rfl
  | tick i => fin_cases i <;> rfl

theorem byteCellNumber_of_byteCellOf (c : ByteCell) (n : Nat) (h : byteCellOf n = some c) : byteCellNumber c = n := by
  unfold byteCellOf at h
  split at h <;> cases h <;> rfl

theorem bitCellOf_bitCellNumber (b : BitCell) : bitCellOf (bitCellNumber b) = some b := by
  cases b with
  | run t | ovf t | ien t => cases t <;> rfl
  | gie => rfl

theorem bitCellNumber_of_bitCellOf (b : BitCell) (n : Nat) (h : bitCellOf n = some b) : bitCellNumber b = n := by
  unfold bitCellOf at h
  split at h <;> cases h <;> rfl

theorem bitCellNumber_le (b : BitCell) : bitCellNumber b ≤ 6 := by
  cases b with
  | run t | ovf t | ien t => cases t <;> decide
  | gie => decide

theorem byteCellNumber_le (c : ByteCell) : byteCellNumber c ≤ 10 := by
  cases c with
  | mode | prvL | prvH => decide
  | cl t | ch t => cases t <;> decide
  | tick i => exact Nat.add_le_add_left (Nat.le_of_lt_succ i.isLt) 7

/-- Settles O7: numbering a cell and naming the cell of a number are inverse. -/
theorem cellNumbersNameTheCells : Obligations.CellNumbersNameTheCells := by
  refine ⟨fun c n => ⟨byteCellNumber_of_byteCellOf c n, ?_⟩, fun n => ⟨fun h => ?_, fun h => ?_⟩,
    fun b n => ⟨bitCellNumber_of_bitCellOf b n, ?_⟩, fun n => ⟨fun h => ?_, fun h => ?_⟩⟩
  · rintro rfl
    exact byteCellOf_byteCellNumber c
  · obtain ⟨c, hc⟩ := Option.isSome_iff_exists.mp h
    exact byteCellNumber_of_byteCellOf c n hc ▸ byteCellNumber_le c
  · interval_cases n <;> rfl
  · rintro rfl
    exact bitCellOf_bitCellNumber b
  · obtain ⟨b, hb⟩ := Option.isSome_iff_exists.mp h
    exact bitCellNumber_of_bitCellOf b n hb ▸ bitCellNumber_le b
  · interval_cases n <;> rfl

/-! ## The state after reset -/

theorem readByte_reset (c : ByteCell) : Regs.reset.readByte c = 0x00 := by
  cases c with
  | mode | prvL | prvH => rfl
  | cl t | ch t => cases t <;> rfl
  | tick i => fin_cases i <;> rfl

theorem readBit_reset (b : BitCell) : Regs.reset.readBit b = false := by
  cases b with
  | run t | ovf t | ien t => cases t <;> rfl
  | gie => rfl

/-- Settles O51: the cells read 0 one by one, the rest stands in the definition. -/
theorem resetValues : Obligations.ResetValues :=
  ⟨readByte_reset, readBit_reset, rfl, rfl, rfl, rfl, rfl, rfl, rfl, rfl, rfl, rfl, rfl, rfl⟩

/-- Settles O53: every other agent's guard asks for a bit cell that is 0, a busy foreground, or a frame. -/
theorem afterResetOnlyTheHostSteps : Obligations.AfterResetOnlyTheHostSteps := by
  intro e s hregs hfg hhs he
  have hbit : ∀ b, readBit b s = false := fun b => by rw [readBit, hregs]; exact readBit_reset b
  cases e with
  | issue => exact .inl rfl
  | reset => exact .inr rfl
  | fgStep =>
    obtain ⟨hb, -⟩ := (enabled_fgStep_iff s).mp he
    rw [hfg] at hb
    cases hb
  | hStep => exact absurd hhs ((enabled_hStep_iff s).mp he)
  | count t => exact absurd (hbit (.run t)) (by simpa [enabled, countEnabled] using he)
  | countHigh => simp [enabled, countHighEnabled, hbit] at he
  | dispatch t =>
    obtain ⟨ho, -⟩ := (dispatchReady_iff t s).mp (dispatchReady_of_enabled t s he)
    rw [hbit] at ho
    cases ho

theorem modeBit3Clear_of_reset (s : State) (h : s.regs = Regs.reset) : ModeBit3Clear s := by
  rw [ModeBit3Clear, readByte, h, readByte_reset]
  rfl

theorem framesOk_of_empty (s : State) (h : s.hs = []) : FramesOk s := by
  simp [FramesOk, h]

theorem foregroundOk_of_idle (s : State) (h : s.fg.busy = false) : ForegroundOk s := by
  intro hb
  rw [h] at hb
  cases hb

/-- Settles O57: the oscillator's frequency is a successor, the rest is at its reset value. -/
theorem invariantHoldsAfterReset : Obligations.InvariantHoldsAfterReset :=
  ⟨Nat.succ_pos _, modeBit3Clear_of_reset _ rfl, framesOk_of_empty _ rfl, foregroundOk_of_idle _ rfl⟩

/-! ## What one access of the foreground does -/

/-- A change to the foreground's latches that keeps the operand latches, the label, `R`, and every other latch a later
step of the same command reads from being emptied (10_state.md R38). -/
structure LatchesKept (fg fg' : Fg) : Prop where
  op    : fg'.op = fg.op
  a     : fg'.a = fg.a
  b     : fg'.b = fg.b
  c     : fg'.c = fg.c
  upc   : fg'.upc = fg.upc
  r     : fg'.r = fg.r
  loop  : fg.loop.isSome = true → fg'.loop.isSome = true
  snap0 : fg.snap0.isSome = true → fg'.snap0.isSome = true
  snap1 : fg.snap1.isSome = true → fg'.snap1.isSome = true
  snap2 : fg.snap2.isSome = true → fg'.snap2.isSome = true
  snap3 : fg.snap3.isSome = true → fg'.snap3.isSome = true
  g     : fg.g.isSome = true → fg'.g.isSome = true

theorem LatchesKept.refl (fg : Fg) : LatchesKept fg fg := ⟨rfl, rfl, rfl, rfl, rfl, rfl, id, id, id, id, id, id⟩

/-- The command in the latches stays. -/
theorem LatchesKept.instr {fg fg' : Fg} (h : LatchesKept fg fg') : fg'.instr = fg.instr := by
  simp only [Fg.instr, h.op, h.a, h.b, h.c]

/-- Label `k` of the command neither writes `MODE` nor stands right before a write of it. -/
def AwayFromMode (i : Instr) (k : Nat) : Prop := writesModeNext i k = false ∧ writesModeNext i (k + 1) = false

/-- The accesses the foreground makes, by the label `k` of the command `i` they stand at: `MODE` is written only where
`writesModeNext` says so, from the latch `T`, with bit 3 of each field kept 0, and `T` is read one label before. `TICK`
is never written and a flag never raised (10_state.md R34). -/
inductive AccessAt (i : Instr) (k : Nat) : (State → State) → Prop where
  | readMode (h : writesModeNext i k = false) :
      AccessAt i k fun s => onFg (fun fg => { fg with t := some (readByte .mode s) }) s
  | writeMode (g : Byte → Byte) (hg : ∀ v, v &&& 0x88 = 0 → g v &&& 0x88 = 0) (h : writesModeNext i k = true)
      (h' : writesModeNext i (k + 1) = false) :
      AccessAt i k fun s => writeByte .mode (g (latchT s)) s
  | latch (g : State → Fg → Fg) (hg : ∀ s fg, LatchesKept fg (g s fg)) (h : AwayFromMode i k) :
      AccessAt i k fun s => onFg (g s) s
  | byte (c : ByteCell) (v : State → Byte) (hmode : c ≠ .mode) (htick : ∀ j, c ≠ .tick j) (h : AwayFromMode i k) :
      AccessAt i k fun s => writeByte c (v s) s
  | bit (b : BitCell) (v : State → Bool) (hv : ∀ t, b = .ovf t → ∀ s, v s = false) (h : AwayFromMode i k) :
      AccessAt i k fun s => writeBit b (v s) s
  | countDown (h : AwayFromMode i k) :
      AccessAt i k fun s =>
        onFg (fun fg => { fg with loop := some (latchLoop s - 1) }) (writeBit (.ovf .t0) false s)

theorem clearNibble_keeps_bit3 (t : Timer) (v : Byte) (h : v &&& 0x88 = 0) : clearNibble t v &&& 0x88 = 0 := by
  cases t <;> revert v <;> decide

theorem orNibble_keeps_bit3 (t : Timer) (m : TimerMode) (ct : CtSel) (v : Byte) (h : v &&& 0x88 = 0) :
    orNibble t (modeField m ct) v &&& 0x88 = 0 := by
  cases t <;> cases m <;> cases ct <;> revert v <;> decide

/-! ## The accesses of each command, label by label -/

/-- What holds of the accesses of a straight-line micro-program, label by label, holds of its micro-steps. -/
theorem forall_zipIdx_straight (P : Nat → (State → State) → Prop) (result : State → Word) (l : List (State → State))
    (k : Nat) (h : ∀ x ∈ l.zipIdx k, P x.2 x.1) :
    ∀ x ∈ (straight result l).zipIdx k, P x.2 fun s => (x.1 s).1 := by
  rintro ⟨m, j⟩ hm
  obtain ⟨hk, hj⟩ := List.mk_mem_zipIdx_iff_le_and_getElem?_sub.mp hm
  rw [straight_getElem?, Option.map_eq_some_iff] at hj
  obtain ⟨e, he, rfl⟩ := hj
  exact h (e, j) (List.mk_mem_zipIdx_iff_le_and_getElem?_sub.mpr ⟨hk, he⟩)

/-- The command's four accesses to `MODE` and `T` begin at label `k`, and it makes no others. -/
def ConfigAt (i : Instr) (k : Nat) : Prop := ∀ j, writesModeNext i (k + j) = (j == 1 || j == 3)

theorem ConfigAt.awayFromMode {i : Instr} {k : Nat} (h : ConfigAt i k) (j : Nat) (hj : 4 ≤ j) :
    AwayFromMode i (k + j) := by
  have hno (n : Nat) (hn : 4 ≤ n) : writesModeNext i (k + n) = false := by
    rw [h]; simp; omega
  exact ⟨hno j hj, hno (j + 1) (by omega)⟩

theorem configAt_cfgmode (a b c : Byte) : ConfigAt (.cfgmode a b c) 1 := fun j => by
  simp [writesModeNext, Nat.add_comm 1]

theorem configAt_irqmodeOn (a : Byte) (imm : Half) : ConfigAt (.irqmodeOn a imm) 1 := fun j => by
  simp [writesModeNext, Nat.add_comm 1]

theorem configAt_inittick (a c : Byte) : ConfigAt (.inittick a c) 3 := fun j => by
  simp [writesModeNext, Nat.add_comm 3]

theorem configAt_of_isDelay (i : Instr) (h : isDelay i = true) : ConfigAt i 1 := fun j => by
  cases i with
  | delayus n | delayms n => simp [writesModeNext, Nat.add_comm 1]
  | cfgmode | loadcnt | start | stop | rdovf | irqmodeOff | irqmodeOn | inittick | rdtick => cases h

theorem accessAt_configAccesses (i : Instr) (k : Nat) (t : Timer) (m : TimerMode) (ct : CtSel) (h : ConfigAt i k) :
    ∀ x ∈ (configAccesses t (modeField m ct)).zipIdx k, AccessAt i x.2 x.1 := by
  simp only [configAccesses, List.zipIdx_cons, List.forall_mem_cons]
  exact ⟨.readMode (h 0), .writeMode _ (clearNibble_keeps_bit3 t) (h 1) (h 2), .readMode (h 2),
    .writeMode _ (orNibble_keeps_bit3 t m ct) (h 3) (h 4), List.forall_mem_nil _⟩

theorem accessAt_loadAccesses (i : Instr) (k : Nat) (t : Timer) (v : State → Half)
    (h0 : AwayFromMode i k) (h1 : AwayFromMode i (k + 1)) :
    ∀ x ∈ (loadAccesses t v).zipIdx k, AccessAt i x.2 x.1 := by
  simp only [loadAccesses, List.zipIdx_cons, List.forall_mem_cons]
  exact ⟨.byte _ _ nofun nofun h0, .byte _ _ nofun nofun h1, List.forall_mem_nil _⟩

theorem accessAt_readFlag (i : Instr) (k : Nat) (t : Timer) (h : AwayFromMode i k) :
    AccessAt i k fun s => onFg (fun fg => { fg with f := some (readBit (.ovf t) s) }) s :=
  .latch (fun s fg => { fg with f := some (readBit (.ovf t) s) }) (fun _ fg => { LatchesKept.refl fg with }) h

theorem accessAt_irqOnAccesses (i : Instr) (k : Nat) (t : Timer) (v : State → Half) (h : ConfigAt i k) :
    ∀ x ∈ (irqOnAccesses t v).zipIdx k, AccessAt i x.2 x.1 := by
  have haway := h.awayFromMode
  simp only [irqOnAccesses, List.zipIdx_append, List.forall_mem_append, List.zipIdx_cons, List.forall_mem_cons]
  exact ⟨⟨accessAt_configAccesses i k t _ _ h,
      accessAt_loadAccesses i (k + 4) t v (haway 4 (by decide)) (haway 5 (by decide))⟩,
    .bit (.ien t) (fun _ => true) nofun (haway 6 (by decide)),
    .bit (.run t) (fun _ => true) nofun (haway 7 (by decide)),
    .bit .gie (fun _ => true) nofun (haway 8 (by decide)), List.forall_mem_nil _⟩

/-- RDTICK's accesses are all away from `MODE`. -/
theorem accessAt_snapAccesses (k : Nat) : ∀ x ∈ snapAccesses.zipIdx k, AccessAt .rdtick x.2 x.1 := by
  simp only [snapAccesses, List.zipIdx_cons, List.forall_mem_cons]
  refine ⟨.latch _ (fun s fg => ?_) ⟨rfl, rfl⟩, .latch _ (fun s fg => ?_) ⟨rfl, rfl⟩,
    .latch _ (fun s fg => ?_) ⟨rfl, rfl⟩, .latch _ (fun s fg => ?_) ⟨rfl, rfl⟩, List.forall_mem_nil _⟩
  · exact { LatchesKept.refl fg with snap0 := fun _ => rfl }
  · exact { LatchesKept.refl fg with snap1 := fun _ => rfl }
  · exact { LatchesKept.refl fg with snap2 := fun _ => rfl }
  · exact { LatchesKept.refl fg with snap3 := fun _ => rfl }

/-- The delays' micro-program, for either of them. -/
theorem accessAt_delayProgram (i : Instr) (hd : isDelay i = true) :
    ∀ x ∈ delayProgram.zipIdx 1, AccessAt i x.2 fun s => (x.1 s).1 := by
  have h := configAt_of_isDelay i hd
  have haway := h.awayFromMode
  simp only [delayProgram, List.map_append, List.zipIdx_append, List.forall_mem_append, List.zipIdx_map,
    List.forall_mem_map, List.zipIdx_cons, List.forall_mem_cons]
  exact ⟨⟨⟨accessAt_configAccesses i 1 .t0 _ _ h,
      accessAt_loadAccesses i 5 .t0 _ (haway 4 (by decide)) (haway 5 (by decide))⟩,
      .bit (.run .t0) (fun _ => true) nofun (haway 6 (by decide)), List.forall_mem_nil _⟩,
    accessAt_readFlag i 8 .t0 (haway 7 (by decide)),
    .bit (.run .t0) (fun _ => false) nofun (haway 8 (by decide)),
    .countDown (haway 9 (by decide)), List.forall_mem_nil _⟩

/-- Every micro-step of every command is one of the accesses, at the label it stands at. -/
theorem accessAt_programOf (p : Config.Params) (i : Instr) :
    ∀ x ∈ (programOf p i).zipIdx (firstLabel p i), AccessAt i x.2 fun s => (x.1 s).1 := by
  cases i with
  | cfgmode a b c =>
    simp only [programOf]
    split
    · exact forall_zipIdx_straight _ _ _ _ (accessAt_configAccesses _ 1 _ _ _ (configAt_cfgmode a b c))
    · exact List.forall_mem_nil _
  | loadcnt a imm =>
    simp only [programOf]
    split
    · exact forall_zipIdx_straight _ _ _ _ (accessAt_loadAccesses _ 1 _ _ ⟨rfl, rfl⟩ ⟨rfl, rfl⟩)
    · exact List.forall_mem_nil _
  | start a =>
    simp only [programOf]
    split
    · exact List.forall_mem_singleton.mpr (.bit _ (fun _ => true) nofun ⟨rfl, rfl⟩)
    · exact List.forall_mem_nil _
  | stop a =>
    simp only [programOf]
    split
    · refine forall_zipIdx_straight _ _ _ _ (List.forall_mem_cons.mpr ⟨?_, List.forall_mem_singleton.mpr ?_⟩)
      · exact .bit _ (fun _ => false) nofun ⟨rfl, rfl⟩
      · exact .bit _ (fun _ => false) (fun _ _ _ => rfl) ⟨rfl, rfl⟩
    · exact List.forall_mem_nil _
  | rdovf a =>
    simp only [programOf]
    split
    · exact List.forall_mem_singleton.mpr (accessAt_readFlag _ 1 _ ⟨rfl, rfl⟩)
    · exact List.forall_mem_nil _
  | irqmodeOff a =>
    simp only [programOf]
    split
    · refine forall_zipIdx_straight _ _ _ _ (List.forall_mem_cons.mpr ⟨?_, List.forall_mem_singleton.mpr ?_⟩)
      · exact .bit _ (fun _ => false) nofun ⟨rfl, rfl⟩
      · exact .bit _ (fun _ => false) nofun ⟨rfl, rfl⟩
    · exact List.forall_mem_nil _
  | irqmodeOn a imm =>
    simp only [programOf]
    split
    · exact forall_zipIdx_straight _ _ _ _ (accessAt_irqOnAccesses _ 1 _ _ (configAt_irqmodeOn a imm))
    · exact List.forall_mem_nil _
  | inittick a c =>
    simp only [programOf]
    split
    · refine forall_zipIdx_straight _ _ _ _ ?_
      simp only [cacheAccesses, List.zipIdx_append, List.zipIdx_cons, List.forall_mem_append, List.forall_mem_cons]
      exact ⟨⟨.byte _ _ nofun nofun ⟨rfl, rfl⟩, .byte _ _ nofun nofun ⟨rfl, rfl⟩, List.forall_mem_nil _⟩,
        accessAt_irqOnAccesses _ 3 _ _ (configAt_inittick a c)⟩
    · exact List.forall_mem_nil _
  | rdtick =>
    simp only [programOf]
    split
    · refine forall_zipIdx_straight _ _ _ _ ?_
      simp only [rdtickSetAccesses, List.zipIdx_append, List.forall_mem_append]
      exact ⟨⟨List.forall_mem_singleton.mpr (.bit _ (fun _ => false) nofun ⟨rfl, rfl⟩), accessAt_snapAccesses _⟩,
        List.forall_mem_singleton.mpr (.bit _ (fun _ => true) nofun ⟨rfl, rfl⟩)⟩
    · refine forall_zipIdx_straight _ _ _ _ ?_
      simp only [rdtickSavedAccesses, List.zipIdx_append, List.zipIdx_cons, List.forall_mem_append,
        List.forall_mem_cons]
      exact ⟨⟨⟨.latch _ (fun _ fg => { LatchesKept.refl fg with g := fun _ => rfl }) ⟨rfl, rfl⟩,
          .bit _ (fun _ => false) nofun ⟨rfl, rfl⟩, List.forall_mem_nil _⟩, accessAt_snapAccesses _⟩,
        .bit _ _ nofun ⟨rfl, rfl⟩, List.forall_mem_nil _⟩
  | delayus n => exact accessAt_delayProgram _ rfl
  | delayms n => exact accessAt_delayProgram _ rfl

/-! ## What follows for one access -/

theorem AccessAt.tick {i : Instr} {k : Nat} {e : State → State} (h : AccessAt i k e) (s : State) (j : Fin 4) :
    readByte (.tick j) (e s) = readByte (.tick j) s := by
  cases h with
  | readMode | latch => rfl
  | writeMode => simp
  | byte c v _ htick => exact readByte_writeByte_ne _ _ _ _ (htick j).symm
  | bit | countDown => simp

theorem AccessAt.ovf {i : Instr} {k : Nat} {e : State → State} (h : AccessAt i k e) (s : State) (t : Timer)
    (ho : readBit (.ovf t) (e s) = true) : readBit (.ovf t) s = true := by
  cases h with
  | readMode | latch => exact ho
  | writeMode | byte => simpa using ho
  | bit b v hv =>
    by_cases hb : b = .ovf t
    · subst hb
      rw [readBit_writeBit_same, hv t rfl] at ho
      cases ho
    · rwa [readBit_writeBit_ne _ _ _ _ (Ne.symm hb)] at ho
  | countDown =>
    rw [readBit_onFg, readBit_writeBit] at ho
    split at ho
    · cases ho
    · exact ho

theorem AccessAt.latchesKept {i : Instr} {k : Nat} {e : State → State} (h : AccessAt i k e) (s : State) :
    LatchesKept s.fg (e s).fg := by
  cases h with
  | readMode => exact { LatchesKept.refl s.fg with }
  | latch g hg => exact hg s s.fg
  | writeMode | byte | bit => exact .refl s.fg
  | countDown => exact { LatchesKept.refl s.fg with loop := fun _ => rfl }

/-- `MODE` is written from a latch `T` that holds what `MODE` holds, so its fields keep their bit 3. -/
theorem AccessAt.modeBit3Clear {i : Instr} {k : Nat} {e : State → State} (h : AccessAt i k e) (s : State)
    (ht : writesModeNext i k = true → s.fg.t = some (readByte .mode s)) (hs : ModeBit3Clear s) :
    ModeBit3Clear (e s) := by
  unfold ModeBit3Clear at hs ⊢
  cases h with
  | readMode | latch => exact hs
  | writeMode g hg hw =>
    rw [readByte_writeByte_same, latchT, ht hw]
    exact hg _ hs
  | byte c v hmode => rwa [readByte_writeByte_ne _ _ _ _ hmode.symm]
  | bit | countDown => simpa using hs

/-- One label before `MODE` is written, `T` is read. -/
theorem AccessAt.t_eq_mode {i : Instr} {k : Nat} {e : State → State} (h : AccessAt i k e) (s : State)
    (hw : writesModeNext i (k + 1) = true) : (e s).fg.t = some (readByte .mode (e s)) := by
  cases h with
  | readMode => rfl
  | writeMode _ _ _ hno => rw [hno] at hw; cases hw
  | latch _ _ haway | byte _ _ _ _ haway | bit _ _ _ haway | countDown haway => rw [haway.2] at hw; cases hw

/-- A foreground step from a busy state is an access at the current label and the sequencer's move; `exec` of a command
without steps answers at once. -/
theorem exec_busy_access (i : Instr) (s s' : State) (hb : s.fg.busy = true) (h : exec i s = .next s') :
    s' = complete 0 s ∨
    (hasSteps i = true ∧ ∃ m, (m, s.fg.upc) ∈ (programOf s.cfg i).zipIdx (firstLabel s.cfg i) ∧
      AccessAt i s.fg.upc (fun u => (m u).1) ∧ s' = advance (m s)) := by
  rcases exec_next i s s' h with ⟨-, hc⟩ | ⟨-, hidle, -⟩ | ⟨hs, -, hk, m, hm, ha⟩
  · exact .inl hc
  · rw [hb] at hidle; cases hidle
  · have hmem := List.mk_mem_zipIdx_iff_le_and_getElem?_sub.mpr ⟨hk, hm⟩
    exact .inr ⟨hs, m, hmem, accessAt_programOf _ i _ hmem, ha⟩

/-- From an idle foreground `exec` accesses no cell. -/
theorem exec_idle_regs (i : Instr) (s s' : State) (hb : s.fg.busy = false) (h : exec i s = .next s') :
    s'.regs = s.regs := by
  rcases exec_next i s s' h with ⟨-, rfl⟩ | ⟨-, -, rfl⟩ | ⟨-, hbusy, -⟩
  · rfl
  · rfl
  · rw [hb] at hbusy; cases hbusy

/-- An `Issue` accesses no cell. -/
theorem runEvent_issue_regs (s s' : State) (h : runEvent .issue s = .next s') : s'.regs = s.regs := by
  rcases runEvent_cases .issue s s' h with ⟨-, rfl⟩ | ⟨-, hb, -, w, rest, -, hi⟩ | ⟨he, -⟩ | ⟨_, he, -⟩ | ⟨he, -⟩ |
    ⟨_, he, -⟩ | ⟨he, -⟩ | ⟨he, -⟩
  · rfl
  · rcases hi with ⟨i, -, hx⟩ | ⟨-, rfl⟩
    · exact exec_idle_regs i (fetched w rest s) s' hb hx
    · rfl
  all_goals cases he

/-! ## The access matrix -/

/-- The byte cells a step of an agent may change (10_state.md R34). -/
def MayChangeByte (e : Event) (s : State) (c : ByteCell) : Prop :=
  match e with
  | .fgStep => ∀ k, c ≠ .tick k
  | .count t => c = .cl t ∨ c = .ch t
  | .countHigh => c = .ch .t0
  | .hStep => ∃ f below, s.hs = f :: below ∧ (c = .cl f.t ∨ c = .ch f.t ∨ f.upc = .h4 ∧ ∃ k, c = .tick k)
  | .issue | .dispatch _ | .reset => False

/-- The bit cells a step of an agent may change, and to which value (10_state.md R34). -/
def MayChangeBit (e : Event) (b : BitCell) (v : Bool) : Prop :=
  match e with
  | .fgStep => ∀ t, b = .ovf t → v = false
  | .count t => b = .ovf t ∧ v = true
  | .countHigh => b = .ovf .t1 ∧ v = true
  | .dispatch t => b = .ovf t ∧ v = false
  | .issue | .hStep | .reset => False

/-- A flag that changes and is never cleared is now set. -/
theorem eq_true_of_ne_of_imp {v v' : Bool} (hset : v = true → v' = true) (hne : v' ≠ v) : v' = true := by
  revert v v'; decide

/-- A handler's step changes only the cells of its row of the matrix. -/
theorem handlerStep_mayChangeByte (f : Frame) (below : List Frame) (s : State) (hh : s.hs = f :: below) (c : ByteCell)
    (hc : readByte c (handlerStep f s) ≠ readByte c s) : MayChangeByte .hStep s c := by
  obtain ⟨hbytes, -⟩ := handlerStep_frame f s
  refine ⟨f, below, hh, ?_⟩
  by_contra hno
  simp only [not_or, not_and, not_exists] at hno
  obtain ⟨hcl, hch, htick⟩ := hno
  by_cases h4 : f.upc = .h4
  · exact hc (hbytes c hcl hch (htick h4))
  · cases c with
    | tick k => exact hc (handlerStep_tick f s h4 k)
    | mode | prvL | prvH | cl | ch => exact hc (hbytes _ hcl hch nofun)

/-- No step but `Reset` changes a byte cell outside its row of the matrix. -/
theorem runEvent_mayChangeByte (e : Event) (s s' : State) (h : runEvent e s = .next s') (he : e ≠ .reset)
    (c : ByteCell) (hc : readByte c s' ≠ readByte c s) : MayChangeByte e s c := by
  rcases runEvent_cases e s s' h with ⟨-, rfl⟩ | ⟨rfl, -⟩ | ⟨rfl, hb, -, i, -, hx⟩ | ⟨t, rfl, -, hx⟩ | ⟨rfl, -, rfl⟩ |
    ⟨t, rfl, -, rfl⟩ | ⟨rfl, f, below, hh, rfl⟩ | ⟨hr, -⟩
  · exact absurd rfl hc
  · exact hc (readByte_congr (runEvent_issue_regs s s' h) c)
  · rintro k rfl
    rcases exec_busy_access i s s' hb hx with rfl | ⟨-, m, -, ha, rfl⟩
    · exact hc rfl
    · exact hc ((readByte_advance _ _).trans (ha.tick s k))
  · obtain ⟨hbytes, -⟩ := countStep_frame t s s' hx
    exact Decidable.or_iff_not_imp_left.mpr fun hcl => by_contra fun hch => hc (hbytes c hcl hch)
  · obtain ⟨-, -, hbytes, -⟩ := count8_spec (.ch .t0) .t1 s
    exact by_contra fun hch => hc (hbytes c hch)
  · exact hc (readByte_takeInterrupt c t s)
  · exact handlerStep_mayChangeByte f below s hh c hc
  · exact absurd hr he

/-- No step but `Reset` changes a bit cell outside its row of the matrix. -/
theorem runEvent_mayChangeBit (e : Event) (s s' : State) (h : runEvent e s = .next s') (he : e ≠ .reset)
    (b : BitCell) (hc : readBit b s' ≠ readBit b s) : MayChangeBit e b (readBit b s') := by
  rcases runEvent_cases e s s' h with ⟨-, rfl⟩ | ⟨rfl, -⟩ | ⟨rfl, hb, -, i, -, hx⟩ | ⟨t, rfl, -, hx⟩ | ⟨rfl, -, rfl⟩ |
    ⟨t, rfl, -, rfl⟩ | ⟨rfl, f, below, -, rfl⟩ | ⟨hr, -⟩
  · exact absurd rfl hc
  · exact hc (readBit_congr (runEvent_issue_regs s s' h) b)
  · rintro t rfl
    rcases exec_busy_access i s s' hb hx with rfl | ⟨-, m, -, ha, rfl⟩
    · exact absurd rfl hc
    · rw [readBit_advance] at hc ⊢
      exact Bool.eq_false_of_not_eq_true fun ho => hc (ho.trans (ha.ovf s t ho).symm)
  · obtain ⟨-, hbits, hset, -⟩ := countStep_frame t s s' hx
    obtain rfl : b = .ovf t := by_contra fun hb => hc (hbits b hb)
    exact ⟨rfl, eq_true_of_ne_of_imp hset hc⟩
  · obtain ⟨-, hovf, -, hbits, -⟩ := count8_spec (.ch .t0) .t1 s
    obtain rfl : b = .ovf .t1 := by_contra fun hb => hc (hbits b hb)
    exact ⟨rfl, eq_true_of_ne_of_imp (fun ho => hovf.trans (by rw [ho, Bool.true_or])) hc⟩
  · rw [readBit_takeInterrupt] at hc ⊢
    obtain rfl : b = .ovf t := by_contra fun hb => hc (if_neg hb)
    exact ⟨rfl, if_pos rfl⟩
  · obtain ⟨-, hbits, -⟩ := handlerStep_frame f s
    exact hc (hbits b)
  · exact absurd hr he

/-- A byte cell beside the count registers and `TICK` is the foreground's alone. -/
theorem MayChangeByte.eq_fgStep {e : Event} {s : State} {c : ByteCell} (h : MayChangeByte e s c)
    (hcl : ∀ t, c ≠ .cl t) (hch : ∀ t, c ≠ .ch t) (htick : ∀ k, c ≠ .tick k) : e = .fgStep := by
  cases e with
  | fgStep => rfl
  | count t => exact absurd h (not_or.mpr ⟨hcl t, hch t⟩)
  | countHigh => exact absurd h (hch .t0)
  | hStep =>
    obtain ⟨f, -, -, h | h | ⟨-, k, h⟩⟩ := h
    · exact absurd h (hcl f.t)
    · exact absurd h (hch f.t)
    · exact absurd h (htick k)
  | issue | dispatch t | reset => exact h.elim

/-- `TICK` is changed by a handler's last step alone. -/
theorem MayChangeByte.of_tick {e : Event} {s : State} {k : Fin 4} (h : MayChangeByte e s (.tick k)) :
    e = .hStep ∧ ∃ f below, s.hs = f :: below ∧ f.upc = .h4 := by
  cases e with
  | hStep =>
    obtain ⟨f, below, hh, h | h | ⟨h4, -⟩⟩ := h
    · cases h
    · cases h
    · exact ⟨rfl, f, below, hh, h4⟩
  | fgStep => exact absurd rfl (h k)
  | count t => rcases h with h | h <;> cases h
  | countHigh => cases h
  | issue | dispatch t | reset => exact h.elim

/-- The agents that change a timer's count registers. -/
theorem MayChangeByte.of_count {e : Event} {s : State} {t : Timer} {c : ByteCell} (h : MayChangeByte e s c)
    (hc : c = .cl t ∨ c = .ch t) :
    e = .fgStep ∨ e = .count t ∨ (e = .countHigh ∧ t = .t0) ∨
      e = .hStep ∧ ∃ f below, s.hs = f :: below ∧ f.t = t := by
  cases e with
  | fgStep => exact .inl rfl
  | count u => rcases hc with rfl | rfl <;> rcases h with h | h <;> cases h <;> exact .inr (.inl rfl)
  | countHigh => rcases hc with rfl | rfl <;> cases h; exact .inr (.inr (.inl ⟨rfl, rfl⟩))
  | hStep =>
    obtain ⟨f, below, hh, h⟩ := h
    refine .inr (.inr (.inr ⟨rfl, f, below, hh, ?_⟩))
    rcases hc with rfl | rfl <;> rcases h with h | h | ⟨-, k, h⟩ <;> cases h <;> rfl
  | issue | dispatch u | reset => exact h.elim

/-- A bit cell beside the flags is the foreground's alone. -/
theorem MayChangeBit.eq_fgStep {e : Event} {b : BitCell} {v : Bool} (h : MayChangeBit e b v)
    (hovf : ∀ t, b ≠ .ovf t) : e = .fgStep := by
  cases e with
  | fgStep => rfl
  | count t | dispatch t => exact absurd h.1 (hovf t)
  | countHigh => exact absurd h.1 (hovf .t1)
  | issue | hStep | reset => exact h.elim

/-- A flag is raised by a count alone. -/
theorem MayChangeBit.of_raised {e : Event} {t : Timer} (h : MayChangeBit e (.ovf t) true) :
    e = .count t ∨ e = .countHigh ∧ t = .t1 := by
  cases e with
  | count u => obtain ⟨hb, -⟩ := h; cases hb; exact .inl rfl
  | countHigh => obtain ⟨hb, -⟩ := h; cases hb; exact .inr ⟨rfl, rfl⟩
  | fgStep => cases h t rfl
  | dispatch u => cases h.2
  | issue | hStep | reset => exact h.elim

/-- A flag is cleared by the foreground or its timer's dispatch alone. -/
theorem MayChangeBit.of_cleared {e : Event} {t : Timer} (h : MayChangeBit e (.ovf t) false) :
    e = .fgStep ∨ e = .dispatch t := by
  cases e with
  | fgStep => exact .inl rfl
  | dispatch u => obtain ⟨hb, -⟩ := h; cases hb; exact .inr rfl
  | count u | countHigh => cases h.2
  | issue | hStep | reset => exact h.elim

theorem exists_byte_of_prvOf_ne {s s' : State} (h : prvOf s' ≠ prvOf s) :
    ∃ c, (c = .prvH ∨ c = .prvL) ∧ readByte c s' ≠ readByte c s := by
  by_contra! hno
  exact h (by rw [prvOf, hno _ (.inl rfl), hno _ (.inr rfl), prvOf])

theorem exists_byte_of_countOf_ne {t : Timer} {s s' : State} (h : countOf t s' ≠ countOf t s) :
    ∃ c, (c = .cl t ∨ c = .ch t) ∧ readByte c s' ≠ readByte c s := by
  by_contra! hno
  exact h (by rw [countOf, hno _ (.inl rfl), hno _ (.inr rfl), countOf])

theorem exists_byte_of_tickOf_ne {s s' : State} (h : tickOf s' ≠ tickOf s) :
    ∃ k, readByte (.tick k) s' ≠ readByte (.tick k) s := by
  by_contra! hno
  exact h (by simp only [tickOf, hno])

/-- Settles O54: a view that changed has a cell that changed, and the cell's row of the matrix says by whom. -/
theorem onlyTheMatrixWrites : Obligations.OnlyTheMatrixWrites := by
  intro e s s' h he
  have hbyte := runEvent_mayChangeByte e s s' h he
  have hbit := runEvent_mayChangeBit e s s' h he
  refine ⟨fun hc => ?_, fun t hc => ?_, fun t hc => ?_, fun hc => ?_, fun hc => ?_, fun hc => ?_, fun t hc => ?_,
    fun t h0 h1 => ?_, fun t h1 h0 => ?_⟩
  · exact (hbyte .mode hc).eq_fgStep nofun nofun nofun
  · exact (hbit (.run t) hc).eq_fgStep nofun
  · exact (hbit (.ien t) hc).eq_fgStep nofun
  · exact (hbit .gie hc).eq_fgStep nofun
  · obtain ⟨c, rfl | rfl, hne⟩ := exists_byte_of_prvOf_ne hc
    · exact (hbyte .prvH hne).eq_fgStep nofun nofun nofun
    · exact (hbyte .prvL hne).eq_fgStep nofun nofun nofun
  · obtain ⟨k, hne⟩ := exists_byte_of_tickOf_ne hc
    exact (hbyte _ hne).of_tick
  · obtain ⟨c, hcell, hne⟩ := exists_byte_of_countOf_ne hc
    exact (hbyte c hne).of_count hcell
  · have hm := hbit (.ovf t) (by simp [h0, h1])
    rw [h1] at hm
    exact hm.of_raised
  · have hm := hbit (.ovf t) (by simp [h0, h1])
    rw [h0] at hm
    exact hm.of_cleared

/-! ## Where a foreground step leaves the sequencer -/

/-- The label a step at label `k` goes on to; none when it completes the operation (10_state.md R35). -/
def nextLabel (k : Nat) : Seq → Option Nat
  | .next => some (k + 1)
  | .goto j => some j
  | .done _ => none

/-- The sequencer's move ends the operation, or goes to the next label and touches nothing else. -/
theorem advance_cases (r : State × Seq) :
    (advance r).fg.busy = false ∨ ∃ k, nextLabel r.1.fg.upc r.2 = some k ∧ advance r = atLabel k r.1 := by
  obtain ⟨s, q⟩ := r
  cases q with
  | next => exact .inr ⟨_, rfl, rfl⟩
  | goto j => exact .inr ⟨_, rfl, rfl⟩
  | done v => exact .inl rfl

theorem length_straight (result : State → Word) : ∀ l, (straight result l).length = l.length
  | [] => rfl
  | [_] => rfl
  | _ :: e :: rest => congrArg (· + 1) (length_straight result (e :: rest))

/-- Every command but the delays is a straight line. -/
theorem programOf_eq_straight (p : Config.Params) (i : Instr) (h : isDelay i = false) :
    ∃ result l, programOf p i = straight result l := by
  cases i with
  | delayus | delayms => cases h
  | cfgmode | loadcnt | start | stop | rdovf | irqmodeOff | irqmodeOn | inittick =>
    simp only [programOf]
    split
    · exact ⟨_, _, rfl⟩
    · exact ⟨fun _ => 0, [], rfl⟩
  | rdtick =>
    simp only [programOf]
    split <;> exact ⟨_, _, rfl⟩

/-- A step of a straight line that does not complete goes to the next label, which is one of the program's. -/
theorem straight_nextLabel (result : State → Word) (l : List (State → State)) (base k k' : Nat) (m : Micro) (s : State)
    (hm : (m, k) ∈ (straight result l).zipIdx base) (hk : nextLabel k (m s).2 = some k') :
    k' = k + 1 ∧ k + 1 < base + l.length := by
  obtain ⟨hbase, hj⟩ := List.mk_mem_zipIdx_iff_le_and_getElem?_sub.mp hm
  rw [straight_getElem?, Option.map_eq_some_iff] at hj
  obtain ⟨e, he, rfl⟩ := hj
  obtain ⟨hlt, -⟩ := List.getElem?_eq_some_iff.mp he
  by_cases hlast : k - base + 1 = l.length
  · simp [hlast, nextLabel] at hk
  · simp only [hlast, if_false, nextLabel, Option.some.injEq] at hk
    omega

/-- A step of a delay that does not complete: it goes to the next label, back to the poll `S8`, or round again to `S5`
with a count that is not used up (42_delay.md R95). -/
def DelayMove (k : Nat) (m : Micro) : Prop :=
  ∀ s k', nextLabel k (m s).2 = some k' →
    (k' = k + 1 ∧ k' ≤ 10 ∨ k' = 5 ∨ k' = 8) ∧ (s.fg.loop ≠ some 0 → (m s).1.fg.loop ≠ some 0)

theorem delayMove_next (k : Nat) (e : State → State) (hk : k < 10) (he : ∀ s, (e s).fg.loop = s.fg.loop) :
    DelayMove k fun s => (e s, .next) := by
  intro s k' h
  cases h
  exact ⟨.inl ⟨rfl, hk⟩, fun hl => by rwa [he]⟩

theorem delayMove_poll : DelayMove 8 delayPoll := by
  intro s k' h
  refine ⟨?_, id⟩
  simp only [delayPoll] at h
  split at h <;> cases h <;> simp

theorem delayMove_clear : DelayMove 10 delayClear := by
  intro s k' h
  simp only [delayClear] at h ⊢
  split at h
  · cases h
  · next hl =>
    cases h
    exact ⟨.inr (.inl rfl), fun _ h0 => hl (Option.some.inj h0)⟩

theorem delayMove_delayProgram : ∀ x ∈ delayProgram.zipIdx 1, DelayMove x.2 x.1 := by
  simp only [delayProgram, configAccesses, loadAccesses, List.cons_append, List.nil_append, List.map_cons,
    List.map_nil, List.zipIdx_cons, List.forall_mem_cons]
  refine ⟨?_, ?_, ?_, ?_, ?_, ?_, ?_, delayMove_poll, ?_, delayMove_clear, List.forall_mem_nil _⟩ <;>
    exact delayMove_next _ _ (by decide) fun _ => rfl

/-- A step that does not complete goes to a label of its command: the next one, or in a delay `S5` or `S8`. -/
theorem programOf_nextLabel (p : Config.Params) (i : Instr) (k k' : Nat) (m : Micro) (s : State)
    (hs : hasSteps i = true) (hm : (m, k) ∈ (programOf p i).zipIdx (firstLabel p i))
    (hk : nextLabel k (m s).2 = some k') :
    labelOf p i k' ∧ (k' = k + 1 ∨ isDelay i = true ∧ (k' = 5 ∨ k' = 8)) := by
  have hbase : firstLabel p i ≤ k := List.le_snd_of_mem_zipIdx hm
  cases hd : isDelay i with
  | false =>
    obtain ⟨result, l, hl⟩ := programOf_eq_straight p i hd
    have hlen := programOf_length p i hs
    rw [hl] at hm hlen
    rw [length_straight] at hlen
    obtain ⟨rfl, hlt⟩ := straight_nextLabel result l _ k k' m s hm hk
    exact ⟨⟨by omega, by omega⟩, .inl rfl⟩
  | true =>
    have hprog : firstLabel p i = 1 ∧ labelCount p i = 10 ∧ programOf p i = delayProgram := by
      cases i with
      | delayus | delayms => exact ⟨rfl, rfl, rfl⟩
      | cfgmode | loadcnt | start | stop | rdovf | irqmodeOff | irqmodeOn | inittick | rdtick => cases hd
    obtain ⟨hfirst, hcount, hdelay⟩ := hprog
    rw [hdelay, hfirst] at hm
    obtain ⟨hto, -⟩ := delayMove_delayProgram _ hm s k' hk
    refine ⟨⟨by omega, by omega⟩, ?_⟩
    rcases hto with ⟨rfl, -⟩ | hto
    · exact .inl rfl
    · exact .inr ⟨rfl, hto⟩

/-! ## The latches a command still has to read -/

/-- The latches beside `T` that the command's later steps read hold values (10_state.md R38): those of `valuesReady`, and
the saved `GIE` of RDTICK. -/
def ReadsReady (p : Config.Params) (i : Instr) (fg : Fg) : Prop :=
  valuesReady i fg ∧ (i = .rdtick → p.gieRestore = .saved → 1 ≤ fg.upc → fg.g.isSome = true)

/-- What a step of RDTICK at label `k` has put in the latches its later labels need (41_interrupt_tick.md R89). -/
def RdtickFills (k : Nat) (e : State → State) : Prop :=
  ∀ s, (1 = k + 1 → (e s).fg.g.isSome = true) ∧ (3 = k + 1 → (e s).fg.snap0.isSome = true) ∧
    (4 = k + 1 → (e s).fg.snap1.isSome = true) ∧ (5 = k + 1 → (e s).fg.snap2.isSome = true) ∧
    (6 = k + 1 → (e s).fg.snap3.isSome = true)

theorem rdtickFills_programOf (p : Config.Params) :
    ∀ x ∈ (programOf p .rdtick).zipIdx (firstLabel p .rdtick), RdtickFills x.2 fun s => (x.1 s).1 := by
  cases hg : p.gieRestore with
  | set =>
    simp only [programOf, firstLabel, hg]
    refine forall_zipIdx_straight _ _ _ _ ?_
    simp [rdtickSetAccesses, snapAccesses, RdtickFills]
  | saved =>
    simp only [programOf, firstLabel, hg]
    refine forall_zipIdx_straight _ _ _ _ ?_
    simp [rdtickSavedAccesses, snapAccesses, RdtickFills]

/-- A step that does not complete leaves the latches of the command's later steps ready. -/
theorem readsReady_atLabel (p : Config.Params) (i : Instr) (k' : Nat) (m : Micro) (s : State)
    (hm : (m, s.fg.upc) ∈ (programOf p i).zipIdx (firstLabel p i)) (hk : nextLabel s.fg.upc (m s).2 = some k')
    (hnext : k' = s.fg.upc + 1 ∨ isDelay i = true) (hkept : LatchesKept s.fg (m s).1.fg) (h : ReadsReady p i s.fg) :
    ReadsReady p i (atLabel k' (m s).1).fg := by
  obtain ⟨hv, hg⟩ := h
  cases i with
  | cfgmode | loadcnt | start | stop | rdovf | irqmodeOff | irqmodeOn => exact ⟨trivial, nofun⟩
  | inittick a c => exact ⟨(congrArg Option.isSome hkept.r).trans hv, nofun⟩
  | delayus n | delayms n =>
    obtain ⟨hr, hloop, hne⟩ := hv
    obtain ⟨-, hcount⟩ := delayMove_delayProgram _ hm s k' hk
    exact ⟨⟨(congrArg Option.isSome hkept.r).trans hr, hkept.loop hloop, hcount hne⟩, nofun⟩
  | rdtick =>
    obtain ⟨h0, h1, h2, h3⟩ := hv
    obtain ⟨fg, f0, f1, f2, f3⟩ := rdtickFills_programOf p _ hm s
    obtain rfl : k' = s.fg.upc + 1 := hnext.resolve_right nofun
    refine ⟨⟨fun hle => ?_, fun hle => ?_, fun hle => ?_, fun hle => ?_⟩, fun _ hsaved hle => ?_⟩
    · exact (Nat.le_add_one_iff.mp hle).elim (fun hl => hkept.snap0 (h0 hl)) f0
    · exact (Nat.le_add_one_iff.mp hle).elim (fun hl => hkept.snap1 (h1 hl)) f1
    · exact (Nat.le_add_one_iff.mp hle).elim (fun hl => hkept.snap2 (h2 hl)) f2
    · exact (Nat.le_add_one_iff.mp hle).elim (fun hl => hkept.snap3 (h3 hl)) f3
    · exact (Nat.le_add_one_iff.mp hle).elim (fun hl => hkept.g (hg rfl hsaved hl)) fg

/-- What an issue computes makes the latches ready at the first label. -/
theorem readsReady_begin (i : Instr) (s : State) (hs : hasSteps i = true) :
    ReadsReady s.cfg i (begin i.opcode (firstLabel s.cfg i) (prepOf s.cfg i) s).fg := by
  cases i with
  | cfgmode | loadcnt | start | stop | rdovf | irqmodeOff | irqmodeOn => exact ⟨trivial, nofun⟩
  | inittick a c =>
    simp only [hasSteps, Instr.wellFormed, Bool.and_eq_true] at hs
    obtain ⟨-, hu⟩ := hs
    refine ⟨?_, nofun⟩
    simp [valuesReady, begin, prepOf, unitOf_of_validUnit c hu]
  | delayus n | delayms n =>
    have hn : n ≠ 0 := by simpa [hasSteps] using hs
    exact ⟨⟨rfl, rfl, fun h => hn (Option.some.inj h)⟩, nofun⟩
  | rdtick =>
    have hfirst : firstLabel s.cfg .rdtick ≤ 1 := by simp only [firstLabel]; split <;> decide
    refine ⟨⟨?_, ?_, ?_, ?_⟩, fun _ hsaved hle => ?_⟩
    iterate 4
      intro hle
      exact absurd (hle.trans hfirst) (by decide)
    simp [begin, prepOf, firstLabel, hsaved] at hle

/-! ## The foreground's part of the invariant -/

theorem foregroundOk_of_ready (i : Instr) (s : State) (hi : s.fg.instr = some i) (hs : hasSteps i = true)
    (hl : labelOf s.cfg i s.fg.upc) (ht : writesModeNext i s.fg.upc = true → s.fg.t = some (readByte .mode s))
    (hr : ReadsReady s.cfg i s.fg) : ForegroundOk s := by
  obtain ⟨hv, hg⟩ := hr
  exact fun _ => ⟨i, hi, hs, hl, ⟨fun hw => by rw [ht hw]; rfl, hv⟩, ht, hg⟩

theorem writesModeNext_firstLabel (p : Config.Params) (i : Instr) : writesModeNext i (firstLabel p i) = false := by
  cases i <;> rfl

theorem labelCount_pos (p : Config.Params) (i : Instr) : 0 < labelCount p i := by
  cases i with
  | rdtick => simp only [labelCount]; split <;> decide
  | cfgmode | loadcnt | start | stop | rdovf | irqmodeOff | irqmodeOn | inittick | delayus | delayms =>
    exact Nat.succ_pos _

theorem begin_upc (p : Config.Params) (i : Instr) (op : Opcode) (base : Nat) (s : State) :
    (begin op base (prepOf p i) s).fg.upc = base := by
  simp only [begin, onFg_fg]
  rw [prepOf_rest]

/-- The issue of a command leaves the foreground at its first label with its latches ready. -/
theorem foregroundOk_begin (i : Instr) (s : State) (hs : hasSteps i = true)
    (hi : instrOfFields i.opcode s.fg.a s.fg.b s.fg.c = i) :
    ForegroundOk (begin i.opcode (firstLabel s.cfg i) (prepOf s.cfg i) s) := by
  refine foregroundOk_of_ready i _ (instr_begin i s.cfg s hi) hs ?_ ?_ (readsReady_begin i s hs)
  · rw [begin_upc]
    exact ⟨le_rfl, Nat.lt_add_of_pos_right (labelCount_pos s.cfg i)⟩
  · rw [begin_upc, writesModeNext_firstLabel]
    nofun

/-- A foreground step that does not complete leaves the foreground at the next label with its latches ready. -/
theorem foregroundOk_atLabel (i : Instr) (k' : Nat) (m : Micro) (s : State) (hi : s.fg.instr = some i)
    (hs : hasSteps i = true) (hm : (m, s.fg.upc) ∈ (programOf s.cfg i).zipIdx (firstLabel s.cfg i))
    (ha : AccessAt i s.fg.upc fun u => (m u).1) (hk : nextLabel s.fg.upc (m s).2 = some k')
    (hcfg : (m s).1.cfg = s.cfg) (hr : ReadsReady s.cfg i s.fg) : ForegroundOk (atLabel k' (m s).1) := by
  have hkept := ha.latchesKept s
  obtain ⟨hl, hnext⟩ := programOf_nextLabel s.cfg i _ k' m s hs hm hk
  refine foregroundOk_of_ready i _ (hkept.instr.trans hi) hs (hcfg.symm ▸ hl) ?_
    (hcfg.symm ▸ readsReady_atLabel s.cfg i k' m s hm hk (hnext.imp_right And.left) hkept hr)
  intro hw
  rcases hnext with rfl | ⟨hd, hto⟩
  · exact ha.t_eq_mode s hw
  · have hno : writesModeNext i k' = false := by
      have haway := (configAt_of_isDelay i hd).awayFromMode
      rcases hto with rfl | rfl
      · exact (haway 4 (by decide)).1
      · exact (haway 7 (by decide)).1
    exact absurd hw (by simp [atLabel, hno])

/-! ## The parts of the invariant under each agent's step -/

/-- The foreground's part of the invariant and bit 3 of the mode fields: what the handlers do not enter into. -/
def ForegroundInv (s : State) : Prop := ModeBit3Clear s ∧ ForegroundOk s

theorem HardwareFrame.foregroundInv {s s' : State} (h : HardwareFrame s s') (hs : ForegroundInv s) :
    ForegroundInv s' := by
  have hmode : readByte .mode s' = readByte .mode s := h.bytes .mode nofun nofun nofun
  simpa only [ForegroundInv, ModeBit3Clear, ForegroundOk, hmode, h.fg, h.cfg] using hs

theorem foregroundInv_of_idle (s s' : State) (hregs : s'.regs = s.regs) (hb : s'.fg.busy = false)
    (hs : ForegroundInv s) : ForegroundInv s' := by
  obtain ⟨hbit3, -⟩ := hs
  exact ⟨by rwa [ModeBit3Clear, readByte_congr hregs], foregroundOk_of_idle s' hb⟩

/-- The issue of the next word: it begins the command decoded, or is answered at once. -/
theorem foregroundInv_issue (w : Word) (i : Instr) (rest : List Word) (s s' : State) (hb : s.fg.busy = false)
    (hd : decode w = .ok i) (hx : exec i (fetched w rest s) = .next s') (hs : ForegroundInv s) :
    ForegroundInv s' := by
  rcases exec_next i _ s' hx with ⟨-, rfl⟩ | ⟨hsteps, -, rfl⟩ | ⟨-, hbusy, -⟩
  · exact foregroundInv_of_idle s _ rfl rfl hs
  · obtain ⟨hbit3, -⟩ := hs
    obtain ⟨-, hi⟩ := decode_ok w i hd
    exact ⟨hbit3, foregroundOk_begin i (fetched w rest s) hsteps hi⟩
  · rw [fetched_fg, hb] at hbusy
    cases hbusy

/-- A step of the command in progress. -/
theorem foregroundInv_fgStep (i : Instr) (s s' : State) (hb : s.fg.busy = true) (hi : s.fg.instr = some i)
    (hx : exec i s = .next s') (hs : ForegroundInv s) : ForegroundInv s' := by
  rcases exec_busy_access i s s' hb hx with rfl | ⟨hsteps, m, hm, ha, rfl⟩
  · exact foregroundInv_of_idle s _ rfl rfl hs
  · obtain ⟨hbit3, hfg⟩ := hs
    obtain ⟨j, hj, -, -, ⟨-, hv⟩, ht, hg⟩ := hfg hb
    obtain rfl : i = j := Option.some.inj (hi.symm.trans hj)
    have hbit3' := ha.modeBit3Clear s ht hbit3
    refine ⟨by rwa [ModeBit3Clear, readByte_advance], ?_⟩
    obtain hdone | ⟨k', hk, hto⟩ := advance_cases (m s)
    · exact foregroundOk_of_idle _ hdone
    · obtain ⟨-, hcfg, -⟩ := exec_rest i s _ hx
      rw [hto] at hcfg ⊢
      rw [(ha.latchesKept s).upc] at hk
      exact foregroundOk_atLabel i k' m s hi hsteps hm ha hk hcfg ⟨hv, hg⟩

/-- The stack's part of the invariant reads the stack and the parameters alone. -/
theorem framesOk_congr {s s' : State} (hhs : s'.hs = s.hs) (hcfg : s'.cfg = s.cfg) (h : FramesOk s) : FramesOk s' := by
  simpa only [FramesOk, hhs, hcfg] using h

/-- A dispatch pushes the frame of a timer not in service, and onto an empty stack where handlers do not nest. -/
theorem framesOk_takeInterrupt (t : Timer) (s : State) (he : dispatchEnabled t s = true) (h : FramesOk s) :
    FramesOk (takeInterrupt t s) := by
  obtain ⟨-, -, -, hnew, hroom⟩ := (dispatchReady_iff t s).mp (dispatchReady_of_enabled t s he)
  obtain ⟨hnodup, -, hframes⟩ := h
  simp only [FramesOk, takeInterrupt_hs, takeInterrupt_cfg, List.map_cons, List.nodup_cons, List.mem_map, not_exists,
    not_and, List.forall_mem_cons]
  refine ⟨⟨hnew, hnodup⟩, fun hnone => ?_, by simp, hframes⟩
  rcases hroom with hempty | hcross
  · simp [hempty]
  · rw [hnone] at hcross
    cases hcross

/-- A frame is past `H3` exactly when it holds a read of the tick counter, and only such a frame is raced. -/
def FrameOk (f : Frame) : Prop :=
  (f.tickread = true ↔ f.upc = .h4) ∧ (f.tickread = true → f.tt.isSome = true) ∧ (f.raced = true → f.tickread = true)

theorem FrameOk.markRaced {f : Frame} (h : FrameOk f) : FrameOk (markRaced f) := by
  obtain ⟨hread, htt, hraced⟩ := h
  refine ⟨hread, htt, fun hr => ?_⟩
  rw [markRaced_raced, Bool.or_eq_true] at hr
  exact hr.elim hraced id

/-- A step before `H4` moves the top frame on, which stays one of its timer and well-formed. -/
theorem handlerStep_top (f : Frame) (s : State) (hf : FrameOk f) (h4 : f.upc ≠ .h4) :
    ∃ f', (handlerStep f s).hs = f' :: s.hs.tail ∧ f'.t = f.t ∧ FrameOk f' := by
  obtain ⟨hread, htt, hraced⟩ := hf
  have hnot : f.tickread ≠ true := fun h => h4 (hread.mp h)
  unfold handlerStep
  split
  · exact ⟨_, rfl, rfl, by simp [hnot], htt, hraced⟩
  · exact ⟨_, rfl, rfl, by simp [hnot], htt, hraced⟩
  · exact ⟨_, rfl, rfl, by simp, fun _ => rfl, fun _ => rfl⟩
  · next h => exact absurd h h4

theorem framesOk_handlerStep (f : Frame) (below : List Frame) (s : State) (hh : s.hs = f :: below) (h : FramesOk s) :
    FramesOk (handlerStep f s) := by
  obtain ⟨hnodup, hroom, hframes⟩ := h
  obtain ⟨-, -, -, hcfg, -⟩ := handlerStep_frame f s
  rw [hh] at hnodup hroom hframes
  obtain ⟨hf, hbelow⟩ := List.forall_mem_cons.mp hframes
  by_cases h4 : f.upc = .h4
  · have hhs : (handlerStep f s).hs = below.map markRaced := by simp [handlerStep, h4, handlerH4, hh]
    have hts : (below.map markRaced).map Frame.t = below.map Frame.t := by simp [Function.comp_def]
    rw [FramesOk, hhs, hcfg, hts]
    refine ⟨hnodup.of_cons, fun hnone => ?_, List.forall_mem_map.mpr fun g hg => FrameOk.markRaced (hbelow g hg)⟩
    have := hroom hnone
    simp only [List.length_cons, List.length_map] at this ⊢
    omega
  · obtain ⟨f', hhs, ht, hf'⟩ := handlerStep_top f s hf h4
    rw [hh, List.tail_cons] at hhs
    rw [FramesOk, hhs, hcfg]
    exact ⟨by simpa [ht] using hnodup, hroom, List.forall_mem_cons.mpr ⟨hf', hbelow⟩⟩

/-! ## Every step keeps the invariant -/

theorem runEvent_foregroundInv (e : Event) (s s' : State) (h : runEvent e s = .next s') (hs : ForegroundInv s) :
    ForegroundInv s' := by
  rcases runEvent_cases e s s' h with ⟨-, rfl⟩ | ⟨-, hb, -, w, rest, -, hi⟩ | ⟨-, hb, -, i, hi, hx⟩ |
    ⟨t, -, -, hx⟩ | ⟨-, -, rfl⟩ | ⟨t, -, -, rfl⟩ | ⟨-, f, -, -, rfl⟩ | ⟨-, rfl⟩
  · exact hs
  · rcases hi with ⟨i, hd, hx⟩ | ⟨-, rfl⟩
    · exact foregroundInv_issue w i rest s s' hb hd hx hs
    · exact foregroundInv_of_idle s _ rfl rfl hs
  · exact foregroundInv_fgStep i s s' hb hi hx hs
  · exact (countStep_hardwareFrame t s s' hx).foregroundInv hs
  · exact (countHigh_hardwareFrame s).foregroundInv hs
  · exact (takeInterrupt_hardwareFrame t s).foregroundInv hs
  · exact (handlerStep_hardwareFrame f s).foregroundInv hs
  · exact ⟨modeBit3Clear_of_reset _ rfl, foregroundOk_of_idle _ rfl⟩

theorem runEvent_framesOk (e : Event) (s s' : State) (h : runEvent e s = .next s') (hs : FramesOk s) :
    FramesOk s' := by
  have hcfg := runEvent_cfg e s s' h
  rcases runEvent_cases e s s' h with ⟨-, rfl⟩ | ⟨-, -, -, w, rest, -, hi⟩ | ⟨-, -, -, i, -, hx⟩ |
    ⟨t, -, -, hx⟩ | ⟨-, -, rfl⟩ | ⟨t, -, he, rfl⟩ | ⟨-, f, below, hh, rfl⟩ | ⟨-, rfl⟩
  · exact hs
  · rcases hi with ⟨i, -, hx⟩ | ⟨-, rfl⟩
    · obtain ⟨hhs, -⟩ := exec_rest i _ s' hx
      exact framesOk_congr hhs hcfg hs
    · exact hs
  · obtain ⟨hhs, -⟩ := exec_rest i s s' hx
    exact framesOk_congr hhs hcfg hs
  · obtain ⟨-, -, -, -, hhs, -⟩ := countStep_frame t s s' hx
    exact framesOk_congr hhs hcfg hs
  · obtain ⟨-, -, -, -, hrest⟩ := count8_spec (.ch .t0) .t1 s
    exact framesOk_congr (by rw [countHigh, hrest]) hcfg hs
  · exact framesOk_takeInterrupt t s he hs
  · exact framesOk_handlerStep f below s hh hs
  · exact framesOk_of_empty _ rfl

theorem runEvent_inv (e : Event) (s s' : State) (h : runEvent e s = .next s') (hs : Inv s) : Inv s' := by
  obtain ⟨hbit3, hfg⟩ := runEvent_foregroundInv e s s' h ⟨hs.bit3, hs.foreground⟩
  exact ⟨by rw [runEvent_cfg e s s' h]; exact hs.oscPos, hbit3, runEvent_framesOk e s s' h hs.frames, hfg⟩

/-- Choosing the next event keeps the invariant. -/
theorem inv_nextEvent (s : State) (h : Inv s) : Inv (nextEvent s).2 := by
  obtain ⟨hregs, -, hhs, hcfg, -⟩ := nextEvent_rest s
  exact ⟨by rw [hcfg]; exact h.oscPos, by rw [ModeBit3Clear, readByte_congr hregs]; exact h.bit3,
    framesOk_congr hhs hcfg h.frames, foregroundOk_nextEvent s h.foreground⟩

/-- Settles O58: the event chosen is run in a state that keeps the invariant, and each agent's step keeps each part. -/
theorem everyStepKeepsTheInvariant : Obligations.EveryStepKeepsTheInvariant :=
  fun s s' hs h => runEvent_inv _ _ s' h (inv_nextEvent s hs)

end Sys2Proof.Machine
end

section
/-! PROOF. Reads and writes of single cells, and where the bytes of the wide values are (20_memory.md R50, R53). -/

namespace Sys2Proof.Machine

open Sys2Proof

/-- Settles O6: each clause is a read-after-write law of the cells. -/
theorem readReturnsTheLastWrite : Obligations.ReadReturnsTheLastWrite := fun s =>
  ⟨fun c c' v => readByte_writeByte c c' v s, fun b b' v => readBit_writeBit b b' v s,
    fun c b v => readByte_writeBit c b v s, fun b c v => readBit_writeByte b c v s⟩

/-- The byte a word joins at place `i` is its bits `8i` to `8i+7`: the low or high byte of one of its halves. -/
theorem wordByte_joinWord (b : Fin 4 → Byte) (i : Fin 4) :
    wordByte (joinWord (b 3) (b 2) (b 1) (b 0)) i = b i := by
  unfold wordByte joinWord
  match i with
  | 0 => exact (BitVec.extractLsb'_append_eq_of_add_le (by decide)).trans (loByte_joinHalf _ _)
  | 1 => exact (BitVec.extractLsb'_append_eq_of_add_le (by decide)).trans (hiByte_joinHalf _ _)
  | 2 => exact (BitVec.extractLsb'_append_eq_of_le (by decide)).trans (loByte_joinHalf _ _)
  | 3 => exact (BitVec.extractLsb'_append_eq_of_le (by decide)).trans (hiByte_joinHalf _ _)

/-- Settles O8: the views of a count, of `PRV` and of `TICK` join the bytes that `loByte`, `hiByte` and `wordByte`
take out again. -/
theorem halvesAndBytesOfWideCells : Obligations.HalvesAndBytesOfWideCells := fun s _ =>
  ⟨rfl, loByte_joinHalf _ _, hiByte_joinHalf _ _, loByte_joinHalf _ _, hiByte_joinHalf _ _,
    wordByte_joinWord fun i => readByte (.tick i) s⟩

end Sys2Proof.Machine
end

section
/-! PROOF. The word taken apart into its fields and put together again: the decoder against the encoder, the fields a
format ignores, the reserved opcodes, and the values of the selectors (30_encoding.md R60 to R68). -/

namespace Sys2Proof

open Sys2Proof.Machine

/-! ## Decoding what was encoded -/

/-- The fields of an encoded command are its operands: the decoder's choice of fields gives the command back. -/
theorem instrOfFields_encode (i : Instr) :
    instrOfFields i.opcode (fieldA (encode i)) (fieldB (encode i)) (fieldC (encode i)) = i := by
  cases i <;> simp [encode, Instr.opcode, instrOfFields]

/-- Settles O1: the opcode byte names the command's operation, and its fields are the command's operands. -/
theorem decodeOfEncodeIsTheCommand : Obligations.DecodeOfEncodeIsTheCommand := fun i => by
  have hop : opcodeOfByte (fieldOp (encode i)) = some i.opcode := by
    rw [fieldOp_encode, opcodeOfByte_opcodeByte]
  rw [decode_eq _ _ hop, instrOfFields_encode]

/-! ## Words under a mask -/

@[simp] theorem fieldOp_and (w m : Word) : fieldOp (w &&& m) = fieldOp w &&& fieldOp m := BitVec.extractLsb'_and

@[simp] theorem fieldA_and (w m : Word) : fieldA (w &&& m) = fieldA w &&& fieldA m := BitVec.extractLsb'_and

@[simp] theorem fieldB_and (w m : Word) : fieldB (w &&& m) = fieldB w &&& fieldB m := BitVec.extractLsb'_and

@[simp] theorem fieldC_and (w m : Word) : fieldC (w &&& m) = fieldC w &&& fieldC m := BitVec.extractLsb'_and

/-- A word is its four fields. -/
theorem wordOfFields_fields (w : Word) : wordOfFields (fieldOp w) (fieldA w) (immOf (fieldB w) (fieldC w)) = w :=
  joinWord_bytes w

/-- Words that agree field by field are equal. -/
theorem word_eq_of_fields {w w' : Word} (hop : fieldOp w = fieldOp w') (ha : fieldA w = fieldA w')
    (hb : fieldB w = fieldB w') (hc : fieldC w = fieldC w') : w = w' := by
  rw [← wordOfFields_fields w, hop, ha, hb, hc, wordOfFields_fields]

/-! ## The fields a format ignores -/

/-- A byte under the full mask, spelled as `simp` writes the mask. -/
theorem byte_and_255 (b : Byte) : b &&& 255#8 = b := BitVec.and_allOnes

/-- Every format uses the opcode byte. -/
theorem fieldOp_usedFields (op : Opcode) : fieldOp (usedFields op) = 0xFF := by cases op <;> rfl

/-- Every format but those of RDTICK and the delays uses `A`. -/
theorem fieldA_usedFields (op : Opcode) :
    fieldA (usedFields op) = match op with | .rdtick | .delayus | .delayms => 0x00 | _ => 0xFF := by
  cases op <;> rfl

/-- The formats with an immediate or a timer-or-counter selector use `B`. -/
theorem fieldB_usedFields (op : Opcode) :
    fieldB (usedFields op) = match op with
      | .cfgmode | .loadcnt | .irqmodeOn | .delayus | .delayms => 0xFF
      | _ => 0x00 := by
  cases op <;> rfl

/-- The formats with an immediate, a mode or a unit use `C`. -/
theorem fieldC_usedFields (op : Opcode) :
    fieldC (usedFields op) = match op with
      | .cfgmode | .loadcnt | .irqmodeOn | .inittick | .delayus | .delayms => 0xFF
      | _ => 0x00 := by
  cases op <;> rfl

/-- An operation makes the same command of the fields with those its format ignores cleared. -/
theorem instrOfFields_and_usedFields (op : Opcode) (a b c : Byte) :
    instrOfFields op (a &&& fieldA (usedFields op)) (b &&& fieldB (usedFields op)) (c &&& fieldC (usedFields op)) =
      instrOfFields op a b c := by
  cases op <;> simp [instrOfFields, fieldA_usedFields, fieldB_usedFields, fieldC_usedFields, byte_and_255]

/-- Decoding is the same with the fields the format ignores cleared. -/
theorem decode_and_usedFields (w : Word) (op : Opcode) (h : opcodeOfByte (fieldOp w) = some op) :
    decode (w &&& usedFields op) = decode w := by
  have hop : fieldOp (w &&& usedFields op) = fieldOp w := by
    rw [fieldOp_and, fieldOp_usedFields]; exact byte_and_255 _
  rw [decode_eq _ op (hop ▸ h), decode_eq w op h, fieldA_and, fieldB_and, fieldC_and, instrOfFields_and_usedFields]

/-- The encoder leaves the fields the format ignores at 0. -/
theorem encode_and_usedFields (i : Instr) : encode i &&& usedFields i.opcode = encode i := by
  refine word_eq_of_fields ?_ ?_ ?_ ?_
  · rw [fieldOp_and, fieldOp_usedFields]; exact byte_and_255 _
  · rw [fieldA_and, fieldA_usedFields]
    cases i <;> simp [encode, Instr.opcode, byte_and_255]
  · rw [fieldB_and, fieldB_usedFields]
    cases i <;> simp [encode, Instr.opcode, byte_and_255]
  · rw [fieldC_and, fieldC_usedFields]
    cases i <;> simp [encode, Instr.opcode, byte_and_255]

/-- Settles O2: the mask clears neither the opcode nor a field the format uses, and the encoder sets no other. -/
theorem ignoredFieldsHaveNoEffect : Obligations.IgnoredFieldsHaveNoEffect :=
  ⟨fun w op h => (decode_and_usedFields w op h).symm, encode_and_usedFields, fun op => by cases op <;> rfl⟩

/-! ## The reserved opcodes -/

/-- The opcode map lists `0x01` to `0x0B` and nothing else. -/
theorem opcodeOfByte_eq_none_iff (b : Byte) : opcodeOfByte b = none ↔ b = 0x00 ∨ 0x0C ≤ b.toNat := by
  revert b; decide

/-- A word with a reserved opcode is rejected by that opcode's name. -/
theorem decode_reserved (w : Word) (h : fieldOp w = 0x00 ∨ 0x0C ≤ (fieldOp w).toNat) :
    decode w = .error (.reservedOpcode (fieldOp w)) := by
  simp only [decode, (opcodeOfByte_eq_none_iff _).mpr h]

/-- The mask `0xFF000000` is RDTICK's: it keeps the opcode byte alone, so words with the same one agree under it. -/
theorem and_topByte_eq_of_fieldOp_eq {w w' : Word} (h : fieldOp w = fieldOp w') :
    w &&& 0xFF000000 = w' &&& 0xFF000000 := by
  change w &&& usedFields .rdtick = w' &&& usedFields .rdtick
  refine word_eq_of_fields ?_ ?_ ?_ ?_
  · rw [fieldOp_and, fieldOp_and, h]
  · simp [fieldA_usedFields]
  · simp [fieldB_usedFields]
  · simp [fieldC_usedFields]

/-- Settles O3: the reserved opcodes are those the map does not list, and a command decoded has the word's opcode. -/
theorem decodeRejectsExactlyReserved : Obligations.DecodeRejectsExactlyReserved := by
  refine fun w => ⟨decode_reserved w, fun h => ?_⟩
  obtain ⟨op, hop⟩ := Option.ne_none_iff_exists'.mp ((opcodeOfByte_eq_none_iff (fieldOp w)).not.mpr h)
  have hd := decode_eq w op hop
  obtain ⟨hi, -⟩ := decode_ok w _ hd
  refine ⟨_, hd, and_topByte_eq_of_fieldOp_eq ?_⟩
  rw [fieldOp_encode]
  exact opcodeByte_of_opcodeOfByte _ _ hi

/-- Settles O10: the decoder rejects the word, so its `Issue` answers 0 in the state that took it from the host. -/
theorem reservedWordIsNoOp : Obligations.ReservedWordIsNoOp := by
  intro w rest s hw hb hh hc
  have hissue : enabled .issue s = true := (enabled_issue_iff s).mpr ⟨hb, hh, by simp [hc]⟩
  rw [runEvent_enabled _ _ hissue]
  simp only [effect, issueStep, hc, decode_reserved w hw, noOp, complete, fetched, fieldA, fieldB, fieldC, hb]

/-! ## The spec's own words -/

/-- Settles O4: fifteen fixed words, each decoded by evaluation. -/
theorem specWordsDecode : Obligations.SpecWordsDecode :=
  ⟨rfl, rfl, rfl, rfl, rfl, rfl, rfl, rfl, rfl, rfl, rfl, rfl, rfl, rfl, rfl⟩

/-! ## The selectors -/

/-- Settles O5: the tables byte by byte, and the validity checks by the laws that tie them to the tables. -/
theorem selectorValues : Obligations.SelectorValues :=
  ⟨by decide, by decide, by decide, by decide, validTimer_eq, validCtSel_eq, validMode_eq, validUnit_eq⟩

end Sys2Proof
end

section
/-! PROOF. What `exec` does at a label of a straight line, and from it the register primitives CFGMODE, LOADCNT, START,
STOP and RDOVF: their encodings, their steps and their frames (40_register_primitives.md R75 to R82). -/

namespace Sys2Proof.Machine

open Sys2Proof

/-! ## The selectors and fields of a word -/

/-- The timers' selector bytes (30_encoding.md R64). -/
theorem timerOf_eq_some_iff (a : Byte) (t : Timer) :
    timerOf a = some t ↔ a = 0 ∧ t = .t0 ∨ a = 1 ∧ t = .t1 := by
  revert a; cases t <;> decide

theorem validTimer_of_timerOf {a : Byte} {t : Timer} (h : timerOf a = some t) : validTimer a = true := by
  rw [validTimer_eq, h, Option.isSome_some]

/-- A word that carries an operation's opcode byte decodes to the operation on its fields. -/
theorem decode_of_opcodeByte (w : Word) (op : Opcode) (h : fieldOp w = opcodeByte op) :
    decode w = .ok (instrOfFields op (fieldA w) (fieldB w) (fieldC w)) :=
  decode_eq w op (by rw [h, opcodeOfByte_opcodeByte])

/-- The immediate is the low half of the word (30_encoding.md R61). -/
theorem immOf_fields (w : Word) : immOf (fieldB w) (fieldC w) = w.extractLsb' 0 16 :=
  BitVec.extractLsb'_append_extractLsb'_eq_extractLsb' rfl

/-! ## Invalid selectors -/

/-- Settles O9: an ill-formed command has no access steps, and an answer leaves an idle foreground as it was. -/
theorem invalidSelectorIsNoOp : Obligations.InvalidSelectorIsNoOp := by
  intro i s h hb
  rw [exec_noSteps i s (hasSteps_of_not_wellFormed i h)]
  simp only [noOp, complete, ← hb]

/-! ## The steps of a straight line -/

section StraightLine

variable {i : Instr} {s : State} {result : State → Word} {l : List (State → State)} {e : State → State} {k : Nat}

/-- The micro-step at the `k`-th label of a straight line. -/
theorem exec_straight (hs : hasSteps i = true) (hb : s.fg.busy = true) (hp : programOf s.cfg i = straight result l)
    (hk : s.fg.upc = firstLabel s.cfg i + k) (he : l[k]? = some e) :
    exec i s = .next (advance (e s, if k + 1 = l.length then .done (result (e s)) else .next)) := by
  refine exec_busy i s (fun u => (e u, if k + 1 = l.length then .done (result (e u)) else .next)) hs hb
    (hk ▸ Nat.le_add_right _ _) ?_
  rw [hp, hk, Nat.add_sub_cancel_left, straight_getElem?, he, Option.map_some]

/-- Before the last label, a straight line makes the access and goes on to the next label. -/
theorem exec_straight_next (hs : hasSteps i = true) (hb : s.fg.busy = true)
    (hp : programOf s.cfg i = straight result l) (hk : s.fg.upc = firstLabel s.cfg i + k) (he : l[k]? = some e)
    (hlt : k + 1 < l.length) (hupc : (e s).fg.upc = s.fg.upc) :
    exec i s = .next (atLabel (firstLabel s.cfg i + k + 1) (e s)) := by
  rw [exec_straight hs hb hp hk he, if_neg hlt.ne]
  exact congrArg (fun n => Host.Outcome.next (atLabel (n + 1) (e s))) (hupc.trans hk)

/-- At the last label, a straight line makes the access and answers. -/
theorem exec_straight_last (hs : hasSteps i = true) (hb : s.fg.busy = true)
    (hp : programOf s.cfg i = straight result l) (hk : s.fg.upc = firstLabel s.cfg i + k) (he : l[k]? = some e)
    (hlast : k + 1 = l.length) : exec i s = .next (complete (result (e s)) (e s)) := by
  rw [exec_straight hs hb hp hk he, if_pos hlast, advance_done]

end StraightLine

/-- The first of several steps with no other agent in between. -/
theorem execTimes_succ {i : Instr} {s u : State} (h : exec i s = .next u) (n : Nat) :
    execTimes (n + 1) i s = execTimes n i u := by
  rw [execTimes, h]

/-! ## The micro-programs of the register primitives -/

section Programs

variable {a : Byte} {t : Timer} (p : Config.Params)

theorem programOf_cfgmode {b c : Byte} {ct : CtSel} {m : TimerMode} (ht : timerOf a = some t)
    (hct : ctSelOf b = some ct) (hm : modeSelOf c = some m) :
    programOf p (.cfgmode a b c) = straight (fun _ => 0) (configAccesses t (modeField m ct)) := by
  simp only [programOf, ht, hct, hm]

theorem programOf_loadcnt (imm : Half) (ht : timerOf a = some t) :
    programOf p (.loadcnt a imm) = straight (fun _ => 0) (loadAccesses t fun _ => imm) := by
  simp only [programOf, ht]

theorem programOf_start (ht : timerOf a = some t) :
    programOf p (.start a) = straight (fun _ => 0) [writeBit (.run t) true] := by
  simp only [programOf, ht]

theorem programOf_stop (ht : timerOf a = some t) :
    programOf p (.stop a) = straight (fun _ => 0) (stopAccesses t) := by
  simp only [programOf, ht]

theorem programOf_rdovf (ht : timerOf a = some t) :
    programOf p (.rdovf a) = straight (fun u => zextBit (latchF u))
      [fun u => onFg (fun fg => { fg with f := some (readBit (.ovf t) u) }) u] := by
  simp only [programOf, ht]

end Programs

/-! ## The steps of the register primitives -/

/-- Settles O16: two accesses, the low half and then the high half. -/
theorem loadcntSteps : Obligations.LoadcntSteps := by
  refine ⟨fun w h => ?_, fun a imm s => ⟨fun ha hb => ?_, fun t hat => ?_⟩⟩
  · rw [decode_of_opcodeByte w .loadcnt h, instrOfFields, immOf_fields, fieldA]
  · exact invalidSelectorIsNoOp (.loadcnt a imm) s (decide_eq_false ha.not_gt) hb
  · have ht := (timerOf_eq_some_iff a t).mpr hat
    have hs : hasSteps (.loadcnt a imm) = true := validTimer_of_timerOf ht
    have hp := programOf_loadcnt s.cfg imm ht
    exact ⟨exec_idle _ s hs, fun hb => ⟨fun hk => exec_straight_next (k := 0) hs hb hp hk rfl Nat.one_lt_two rfl,
      fun hk => exec_straight_last (k := 1) hs hb hp hk rfl rfl⟩⟩

/-- Settles O17: one access, which sets the run bit. -/
theorem startStep : Obligations.StartStep := by
  refine ⟨fun w => decode_of_opcodeByte w .start, fun a s => ⟨fun ha hb => ?_, fun t hat => ?_⟩⟩
  · exact invalidSelectorIsNoOp (.start a) s (decide_eq_false ha.not_gt) hb
  · have ht := (timerOf_eq_some_iff a t).mpr hat
    have hs : hasSteps (.start a) = true := validTimer_of_timerOf ht
    exact ⟨exec_idle _ s hs,
      fun hb hk => exec_straight_last (k := 0) hs hb (programOf_start s.cfg ht) hk rfl rfl⟩

/-- Settles O18: two accesses, the run bit and then the flag. -/
theorem stopSteps : Obligations.StopSteps := by
  refine ⟨fun w => decode_of_opcodeByte w .stop, fun a s => ⟨fun ha hb => ?_, fun t hat => ?_⟩⟩
  · exact invalidSelectorIsNoOp (.stop a) s (decide_eq_false ha.not_gt) hb
  · have ht := (timerOf_eq_some_iff a t).mpr hat
    have hs : hasSteps (.stop a) = true := validTimer_of_timerOf ht
    have hp := programOf_stop s.cfg ht
    exact ⟨exec_idle _ s hs, fun hb => ⟨fun hk => exec_straight_next (k := 0) hs hb hp hk rfl Nat.one_lt_two rfl,
      fun hk => exec_straight_last (k := 1) hs hb hp hk rfl rfl⟩⟩

/-- Settles O19: one access, which reads the flag into the latch `F` that the answer is taken from. -/
theorem rdovfStep : Obligations.RdovfStep := by
  refine ⟨fun w => decode_of_opcodeByte w .rdovf, fun a s => ⟨fun ha hb => ?_, fun t hat => ?_⟩⟩
  · exact invalidSelectorIsNoOp (.rdovf a) s (decide_eq_false ha.not_gt) hb
  · have ht := (timerOf_eq_some_iff a t).mpr hat
    have hs : hasSteps (.rdovf a) = true := validTimer_of_timerOf ht
    exact ⟨exec_idle _ s hs,
      fun hb hk => exec_straight_last (k := 0) hs hb (programOf_rdovf s.cfg ht) hk rfl rfl⟩

/-! ## The mode field of CFGMODE -/

/-- The mask that clears a timer's nibble, by the selector byte (00_scope.md R19). -/
theorem clearNibble_of_timerOf {a : Byte} {t : Timer} (h : timerOf a = some t) (v : Byte) :
    clearNibble t v = v &&& ~~~(if a = 0 then 0x0F else 0xF0 : Byte) := by
  rcases (timerOf_eq_some_iff a t).mp h with ⟨rfl, rfl⟩ | ⟨rfl, rfl⟩ <;> rfl

theorem nibbleShift_of_timerOf {a : Byte} {t : Timer} (h : timerOf a = some t) : nibbleShift t = 4 * a.toNat := by
  rcases (timerOf_eq_some_iff a t).mp h with ⟨rfl, rfl⟩ | ⟨rfl, rfl⟩ <;> rfl

theorem modeBits_of_modeSelOf {c : Byte} {m : TimerMode} (h : modeSelOf c = some m) : modeBits m = c := by
  revert c; cases m <;> decide

theorem ctBits_of_ctSelOf {b : Byte} {ct : CtSel} (h : ctSelOf b = some ct) : ctBits ct = b := by
  revert b; cases ct <;> decide

theorem orNibble_of_selectors {a b c : Byte} {t : Timer} {ct : CtSel} {m : TimerMode} (ht : timerOf a = some t)
    (hct : ctSelOf b = some ct) (hm : modeSelOf c = some m) (v : Byte) :
    orNibble t (modeField m ct) v = v ||| ((c ||| (b <<< 2)) <<< (4 * a.toNat)) := by
  rw [orNibble, modeField, nibbleShift_of_timerOf ht, modeBits_of_modeSelOf hm, ctBits_of_ctSelOf hct]

theorem exists_timerOf {a : Byte} (h : a.toNat < 2) : ∃ t, timerOf a = some t :=
  Option.isSome_iff_exists.mp (validTimer_eq a ▸ decide_eq_true h)

theorem exists_ctSelOf {b : Byte} (h : b.toNat < 2) : ∃ ct, ctSelOf b = some ct :=
  Option.isSome_iff_exists.mp (validCtSel_eq b ▸ decide_eq_true h)

theorem exists_modeSelOf {c : Byte} (h : c.toNat < 4) : ∃ m, modeSelOf c = some m :=
  Option.isSome_iff_exists.mp (validMode_eq c ▸ decide_eq_true h)

theorem latchT_eq {s : State} {v : Byte} (h : s.fg.t = some v) : latchT s = v := by
  rw [latchT, h, Option.getD_some]

/-- CFGMODE has steps exactly when its three selectors are valid (40_register_primitives.md R76). -/
theorem hasSteps_cfgmode_iff (a b c : Byte) :
    hasSteps (.cfgmode a b c) = true ↔ a.toNat < 2 ∧ b.toNat < 2 ∧ c.toNat < 4 := by
  simp [hasSteps, Instr.wellFormed, validTimer, validCtSel, validMode, and_assoc]

/-- Settles O15: four accesses, with the nibble and the field read off the selector bytes. -/
theorem cfgmodeSteps : Obligations.CfgmodeSteps := by
  refine ⟨fun w => decode_of_opcodeByte w .cfgmode, fun a b c s => ⟨fun hbad hb => ?_, fun ha hbsel hc => ?_⟩⟩
  · refine invalidSelectorIsNoOp (.cfgmode a b c) s (Bool.eq_false_of_not_eq_true fun hw => ?_) hb
    obtain ⟨ha, hbsel, hc⟩ := (hasSteps_cfgmode_iff a b c).mp hw
    omega
  · have hs := (hasSteps_cfgmode_iff a b c).mpr ⟨ha, hbsel, hc⟩
    obtain ⟨t, ht⟩ := exists_timerOf ha
    obtain ⟨ct, hct⟩ := exists_ctSelOf hbsel
    obtain ⟨m, hm⟩ := exists_modeSelOf hc
    have hp := programOf_cfgmode s.cfg ht hct hm
    refine ⟨exec_idle _ s hs, fun hb => ⟨fun hk => ?_, fun v hk hv => ?_, fun hk => ?_, fun v hk hv => ?_⟩⟩
    · exact exec_straight_next (k := 0) hs hb hp hk rfl (by simp [configAccesses]) rfl
    · have hclear := exec_straight_next (k := 1) hs hb hp hk rfl (by simp [configAccesses]) rfl
      rwa [latchT_eq hv, clearNibble_of_timerOf ht] at hclear
    · exact exec_straight_next (k := 2) hs hb hp hk rfl (by simp [configAccesses]) rfl
    · have hor := exec_straight_last (k := 3) hs hb hp hk rfl rfl
      rwa [latchT_eq hv, orNibble_of_selectors ht hct hm] at hor

/-! ## LOADCNT as a whole -/

/-- The issue of a LOADCNT and its two steps, with no other agent in between. -/
theorem execTimes_loadcnt (a : Byte) (imm : Half) (t : Timer) (s : State) (ht : a = 0 ∧ t = .t0 ∨ a = 1 ∧ t = .t1)
    (hb : s.fg.busy = false) :
    execTimes 3 (.loadcnt a imm) s = .next (complete 0 (writeByte (.ch t) (hiByte imm)
      (atLabel 2 (writeByte (.cl t) (loByte imm) (begin .loadcnt 1 id s))))) := by
  obtain ⟨-, hrule⟩ := loadcntSteps
  have hlabels (u : State) := (hrule a imm u).2 t ht
  obtain ⟨hissue, -⟩ := hlabels s
  obtain ⟨-, hfirst⟩ := hlabels (begin .loadcnt 1 id s)
  obtain ⟨hlow, -⟩ := hfirst rfl
  obtain ⟨-, hsecond⟩ := hlabels (atLabel 2 (writeByte (.cl t) (loByte imm) (begin .loadcnt 1 id s)))
  obtain ⟨-, hhigh⟩ := hsecond rfl
  rw [execTimes_succ (hissue hb), execTimes_succ (hlow rfl)]
  exact execTimes_succ (hhigh rfl) 0

/-- Settles O30: of the cells, its two steps write the halves of the count. -/
theorem loadcntWhole : Obligations.LoadcntWhole := by
  intro a imm t s ht hb
  refine ⟨_, execTimes_loadcnt a imm t s ht hb, rfl, rfl, ?_, fun b => ?_, fun c hcl hch => ?_⟩
  · simp [countOf, atLabel]
  · simp [atLabel]
  · simp [atLabel, hcl, hch]

/-! ## What the register primitives leave unchanged -/

/-- The access leaves every cell the command may not write as it was. -/
def CellsKept (i : Instr) (e : State → State) : Prop := ∀ s,
  (∀ c, ¬ mayWriteByte i c → readByte c (e s) = readByte c s) ∧
  ∀ b, ¬ mayWriteBit i b → readBit b (e s) = readBit b s

theorem cellsKept_writeByte {i : Instr} {c : ByteCell} (v : State → Byte) (h : mayWriteByte i c) :
    CellsKept i fun s => writeByte c (v s) s := fun s =>
  ⟨fun _ hc => readByte_writeByte_ne _ _ _ _ fun he => hc (he ▸ h), fun b _ => readBit_writeByte b c (v s) s⟩

theorem cellsKept_writeBit {i : Instr} {b : BitCell} (v : State → Bool) (h : mayWriteBit i b) :
    CellsKept i fun s => writeBit b (v s) s := fun s =>
  ⟨fun c _ => readByte_writeBit c b (v s) s, fun _ hb => readBit_writeBit_ne _ _ _ _ fun he => hb (he ▸ h)⟩

theorem cellsKept_onFg (i : Instr) (g : State → Fg → Fg) : CellsKept i fun s => onFg (g s) s :=
  fun _ => ⟨fun _ _ => rfl, fun _ _ => rfl⟩

theorem cellsKept_configAccesses {i : Instr} (t : Timer) (f : Byte) (h : mayWriteByte i .mode) :
    ∀ e ∈ configAccesses t f, CellsKept i e := by
  simp only [configAccesses, List.forall_mem_cons]
  exact ⟨cellsKept_onFg i _, cellsKept_writeByte _ h, cellsKept_onFg i _, cellsKept_writeByte _ h,
    List.forall_mem_nil _⟩

theorem cellsKept_loadAccesses {i : Instr} (t : Timer) (v : State → Half) (hcl : mayWriteByte i (.cl t))
    (hch : mayWriteByte i (.ch t)) : ∀ e ∈ loadAccesses t v, CellsKept i e := by
  simp only [loadAccesses, List.forall_mem_cons]
  exact ⟨cellsKept_writeByte _ hcl, cellsKept_writeByte _ hch, List.forall_mem_nil _⟩

/-- A straight line writes no more cells than its accesses do. -/
theorem cellsKept_straight {i : Instr} (result : State → Word) (l : List (State → State))
    (h : ∀ e ∈ l, CellsKept i e) : ∀ m ∈ straight result l, CellsKept i fun s => (m s).1 := by
  intro m hm
  obtain ⟨k, hk⟩ := List.mem_iff_getElem?.mp hm
  exact forall_zipIdx_straight (fun _ e => CellsKept i e) result l 0
    (fun x hx => h x.1 (List.fst_mem_of_mem_zipIdx hx)) (m, k) (List.mk_mem_zipIdx_iff_getElem?.mpr hk)

/-- A command whose micro-steps write only its cells keeps its frame, whatever its `exec` is: issue, step or no-op. -/
theorem execFrame_of_cellsKept (i : Instr) (s s' : State)
    (hprog : ∀ m ∈ programOf s.cfg i, CellsKept i fun u => (m u).1) (h : exec i s = .next s') :
    ExecFrame i s s' := by
  obtain ⟨hhs, hcfg, hsched, hdraws⟩ := exec_rest i s s' h
  obtain ⟨hcommands, hanswer⟩ := exec_answers i s s' h
  suffices hcells : (∀ c, ¬ mayWriteByte i c → readByte c s' = readByte c s) ∧
      ∀ b, ¬ mayWriteBit i b → readBit b s' = readBit b s by
    exact ⟨hcells.1, hcells.2, hhs, hcfg, hsched, hcommands, hdraws, hanswer.imp And.right And.right⟩
  rcases exec_next i s s' h with ⟨-, rfl⟩ | ⟨-, -, rfl⟩ | ⟨-, -, -, m, hm, rfl⟩
  · exact ⟨fun _ _ => rfl, fun _ _ => rfl⟩
  · exact ⟨fun _ _ => rfl, fun _ _ => rfl⟩
  · simpa only [readByte_advance, readBit_advance] using hprog m (List.mem_of_getElem? hm) s

/-- The micro-steps of the register primitives write only the cells the rules name. -/
theorem cellsKept_registerPrimitive (p : Config.Params) (i : Instr)
    (hi : i.opcode = .cfgmode ∨ i.opcode = .loadcnt ∨ i.opcode = .start ∨ i.opcode = .stop ∨ i.opcode = .rdovf) :
    ∀ m ∈ programOf p i, CellsKept i fun u => (m u).1 := by
  cases i with
  | cfgmode a b c =>
    simp only [programOf]
    split
    · exact cellsKept_straight _ _ (cellsKept_configAccesses _ _ rfl)
    · exact List.forall_mem_nil _
  | loadcnt a imm =>
    simp only [programOf]
    split
    · next t ht =>
      exact cellsKept_straight _ _ (cellsKept_loadAccesses t _ ⟨t, ht, .inl rfl⟩ ⟨t, ht, .inr rfl⟩)
    · exact List.forall_mem_nil _
  | start a =>
    simp only [programOf]
    split
    · next t ht => exact List.forall_mem_singleton.mpr (cellsKept_writeBit (fun _ => true) ⟨t, ht, rfl⟩)
    · exact List.forall_mem_nil _
  | stop a =>
    simp only [programOf]
    split
    · next t ht =>
      refine cellsKept_straight _ _ (List.forall_mem_cons.mpr ⟨?_, List.forall_mem_singleton.mpr ?_⟩)
      · exact cellsKept_writeBit (fun _ => false) ⟨t, ht, .inl rfl⟩
      · exact cellsKept_writeBit (fun _ => false) ⟨t, ht, .inr rfl⟩
    · exact List.forall_mem_nil _
  | rdovf a =>
    simp only [programOf]
    split
    · exact List.forall_mem_singleton.mpr (cellsKept_onFg _ _)
    · exact List.forall_mem_nil _
  | irqmodeOff | irqmodeOn | inittick | rdtick | delayus | delayms => simp [Instr.opcode] at hi

/-- Settles O26: every micro-step of the five writes only its command's cells. -/
theorem registerPrimitivesFrame : Obligations.RegisterPrimitivesFrame := fun i s s' hi h =>
  execFrame_of_cellsKept i s s' (cellsKept_registerPrimitive s.cfg i hi) h

end Sys2Proof.Machine
end

section
/-! PROOF. CFGMODE in every run: what `MODE`, the latch `T` and the answers hold from its first step until it has just
been answered, whatever the other agents do (40_register_primitives.md R76, 70_reset_and_hazards.md R152). -/

namespace Sys2Proof.Machine

open Sys2Proof

/-- A foreground step with a command in progress is `exec` of it, or a handler in service holds it back. -/
theorem runEvent_fgStep_cases (i : Instr) (s s' : State) (hb : s.fg.busy = true) (hi : s.fg.instr = some i)
    (h : runEvent .fgStep s = .next s') : s' = s ∨ exec i s = .next s' := by
  by_cases hh : s.hs = []
  · exact .inr (runEvent_fgStep_busy i s hb hh hi ▸ h)
  · rw [runEvent_of_not_enabled .fgStep s (by simp [enabled_fgStep_iff, hh])] at h
    cases h
    exact .inl rfl

/-- A `MODE` byte with the nibble of the timer that the selector byte `a` names cleared. -/
def clearedMode (a v : Byte) : Byte := v &&& ~~~(if a = 0 then 0x0F else 0xF0 : Byte)

/-- The `MODE` byte that CFGMODE makes of `v`. -/
def configuredMode (a b c v : Byte) : Byte := clearedMode a v ||| ((c ||| (b <<< 2)) <<< (4 * a.toNat))

/-- CFGMODE at one of its labels: what `MODE` holds, by what it held in the state `s₀` of `S1`, and the latch `T` where
the next step writes `MODE` from it. -/
def CfgmodeLabel (a : Byte) (s₀ s : State) : Prop :=
  s.fg.upc = 1 ∧ readByte .mode s = readByte .mode s₀ ∨
  s.fg.upc = 2 ∧ readByte .mode s = readByte .mode s₀ ∧ s.fg.t = some (readByte .mode s₀) ∨
  s.fg.upc = 3 ∧ readByte .mode s = clearedMode a (readByte .mode s₀) ∨
  s.fg.upc = 4 ∧ readByte .mode s = clearedMode a (readByte .mode s₀) ∧
    s.fg.t = some (clearedMode a (readByte .mode s₀))

/-- The CFGMODE that was at `S1` in `s₀` is in progress, with nothing answered since. -/
structure CfgmodeInProgress (a b c : Byte) (s₀ s : State) : Prop where
  busy      : s.fg.busy = true
  instr     : s.fg.instr = some (.cfgmode a b c)
  responses : s.responses = s₀.responses
  label     : CfgmodeLabel a s₀ s

/-- The CFGMODE that was at `S1` in `s₀` has just been answered: with 0, and with its field in `MODE`. -/
structure CfgmodeAnswered (a b c : Byte) (s₀ s : State) : Prop where
  idle      : s.fg.busy = false
  responses : s.responses = 0 :: s₀.responses
  mode      : readByte .mode s = configuredMode a b c (readByte .mode s₀)

/-- Until the next issue, which takes a word off the host's list, CFGMODE is in progress or has just been answered. -/
structure CfgmodeUntilNextIssue (a b c : Byte) (s₀ s : State) : Prop where
  waiting : s.commands.length ≤ s₀.commands.length
  since   : s.commands.length = s₀.commands.length → CfgmodeInProgress a b c s₀ s ∨ CfgmodeAnswered a b c s₀ s

section CfgmodeRun

variable {a b c : Byte} {s₀ s s' : State}

/-- The hardware moves neither the foreground nor `MODE` nor the host's lists. -/
theorem CfgmodeUntilNextIssue.of_hardwareFrame (hs : CfgmodeUntilNextIssue a b c s₀ s) (h : HardwareFrame s s') :
    CfgmodeUntilNextIssue a b c s₀ s' := by
  have hmode : readByte .mode s' = readByte .mode s := h.bytes .mode nofun nofun nofun
  refine ⟨h.commands ▸ hs.waiting, fun hc => (hs.since (h.commands ▸ hc)).imp (fun hp => ?_) fun hp => ?_⟩
  · exact ⟨h.fg ▸ hp.busy, h.fg ▸ hp.instr, h.responses.trans hp.responses, by
      simpa only [CfgmodeLabel, h.fg, hmode] using hp.label⟩
  · exact ⟨h.fg ▸ hp.idle, h.responses.trans hp.responses, hmode.trans hp.mode⟩

/-- Each step of CFGMODE goes to the next label, or from the last one to the answer. -/
theorem CfgmodeInProgress.of_exec (ha : a.toNat < 2) (hb : b.toNat < 2) (hc : c.toNat < 4)
    (hs : CfgmodeInProgress a b c s₀ s) (h : exec (.cfgmode a b c) s = .next s') :
    CfgmodeInProgress a b c s₀ s' ∨ CfgmodeAnswered a b c s₀ s' := by
  obtain ⟨-, hrule⟩ := cfgmodeSteps
  obtain ⟨-, hvalid⟩ := hrule a b c s
  obtain ⟨-, hlabels⟩ := hvalid ha hb hc
  obtain ⟨h1, h2, h3, h4⟩ := hlabels hs.busy
  rcases hs.label with ⟨hk, hm⟩ | ⟨hk, hm, ht⟩ | ⟨hk, hm⟩ | ⟨hk, hm, ht⟩
  · rw [h1 hk] at h
    cases h
    exact .inl ⟨hs.busy, hs.instr, hs.responses, .inr (.inl ⟨rfl, hm, congrArg some hm⟩)⟩
  · rw [h2 _ hk ht] at h
    cases h
    exact .inl ⟨hs.busy, hs.instr, hs.responses, .inr (.inr (.inl ⟨rfl, rfl⟩))⟩
  · rw [h3 hk] at h
    cases h
    exact .inl ⟨hs.busy, hs.instr, hs.responses, .inr (.inr (.inr ⟨rfl, hm, congrArg some hm⟩))⟩
  · rw [h4 _ hk ht] at h
    cases h
    exact .inr ⟨rfl, congrArg (0 :: ·) hs.responses, rfl⟩

/-- A foreground step is CFGMODE's next one, while a handler in service holds it back and an idle foreground takes
none. -/
theorem CfgmodeUntilNextIssue.of_fgStep (ha : a.toNat < 2) (hb : b.toNat < 2) (hc : c.toNat < 4)
    (hs : CfgmodeUntilNextIssue a b c s₀ s) (hbusy : s.fg.busy = true) (hcommands : s'.commands = s.commands)
    (h : runEvent .fgStep s = .next s') : CfgmodeUntilNextIssue a b c s₀ s' := by
  refine ⟨hcommands ▸ hs.waiting, fun hlen => ?_⟩
  rcases hs.since (hcommands ▸ hlen) with hp | hp
  · rcases runEvent_fgStep_cases _ s s' hbusy hp.instr h with rfl | hx
    · exact .inl hp
    · exact hp.of_exec ha hb hc hx
  · rw [hp.idle] at hbusy
    cases hbusy

/-- No step but `Reset` leads out of the states up to the next issue, but an issue. -/
theorem CfgmodeUntilNextIssue.of_runEvent (ha : a.toNat < 2) (hb : b.toNat < 2) (hc : c.toNat < 4) (e : Event)
    (he : e ≠ .reset) (hs : CfgmodeUntilNextIssue a b c s₀ s) (h : runEvent e s = .next s') :
    CfgmodeUntilNextIssue a b c s₀ s' := by
  rcases runEvent_agent e s s' h with hf | ⟨-, -, ⟨w, hw⟩, -⟩ | ⟨rfl, hbusy, hcommands, -⟩ | ⟨hr, -⟩
  · exact hs.of_hardwareFrame hf
  · have hlt := hs.waiting
    rw [hw, List.length_cons] at hlt
    exact ⟨by omega, fun hlen => by omega⟩
  · exact hs.of_fgStep ha hb hc hbusy hcommands h
  · exact absurd hr he

end CfgmodeRun

/-- Settles O35: the answers count the issues, so when one answer has come and the foreground is idle no word has been
issued since, and `MODE` holds what CFGMODE wrote. -/
theorem cfgmodeInEveryRun : Obligations.CfgmodeInEveryRun := by
  intro a b c es r s s' ha hb hc hbusy hi hk hes hrun hr hidle
  have hstart : CfgmodeUntilNextIssue a b c s s := ⟨le_rfl, fun _ => .inl ⟨hbusy, hi, rfl, .inl ⟨hk, rfl⟩⟩⟩
  have hend : CfgmodeUntilNextIssue a b c s s' :=
    runOn_induct (CfgmodeUntilNextIssue a b c s) es s s'
      (fun e he u u' hu hx => hu.of_runEvent ha hb hc e (hes e he) hx) hstart hrun
  have hcount := runOn_accounted_eq es s s' hes hrun
  have hlen : s'.commands.length = s.commands.length := by
    simp only [accounted, awaited, hr, hidle, hbusy, List.length_cons, if_true, Bool.false_eq_true, if_false] at hcount
    omega
  rcases hend.since hlen with hp | hp
  · rw [hp.busy] at hidle
    cases hidle
  · exact ⟨List.head_eq_of_cons_eq (hr.symm.trans hp.responses), hp.mode⟩

end Sys2Proof.Machine
end

section
/-! PROOF. The reload function, and the encodings and steps of the interrupt-tick operations IRQMODE.OFF, IRQMODE.ON,
INITTICK and RDTICK (41_interrupt_tick.md R85 to R89). -/

namespace Sys2Proof.Machine

open Sys2Proof

/-! ## The reload function -/

/-- Under `truncate` the difference is taken modulo 65536 (41_interrupt_tick.md R85). -/
theorem toNat_reload_truncate (p : Config.Params) (u : TickUnit) (h : p.reloadClamp = .truncate) :
    ((reload p u).toNat : Int) = (65536 - (ticksPerUnit p.oscHz u : Int)) % 65536 := by
  simp only [reload, h, BitVec.toNat_ofInt]
  omega

/-- Under `saturate` the difference is held between 0 and 65535 (41_interrupt_tick.md R85). -/
theorem toNat_reload_saturate (p : Config.Params) (u : TickUnit) (h : p.reloadClamp = .saturate) :
    ((reload p u).toNat : Int) = min 65535 (max 0 (65536 - (ticksPerUnit p.oscHz u : Int))) := by
  simp only [reload, h, BitVec.toNat_ofNat]
  omega

/-- Settles O40: the two clamps one by one, and between 1 and 65536 ticks neither of them changes the difference. -/
theorem reloadFormula : Obligations.ReloadFormula := by
  intro p u ticks
  have hticks : ticks = ticksPerUnit p.oscHz u := by cases u <;> rfl
  clear_value ticks
  subst hticks
  refine ⟨toNat_reload_truncate p u, toNat_reload_saturate p u, fun hlow hhigh => ?_⟩
  cases hclamp : p.reloadClamp with
  | truncate =>
    have hreload := toNat_reload_truncate p u hclamp
    omega
  | saturate =>
    have hreload := toNat_reload_saturate p u hclamp
    omega

/-! ## The micro-programs -/

/-- The units' selector bytes (30_encoding.md R64). -/
theorem unitOf_eq_some_iff (c : Byte) (u : TickUnit) : unitOf c = some u ↔ c = 0 ∧ u = .ms ∨ c = 1 ∧ u = .us := by
  revert c; cases u <;> decide

section Programs

variable {a : Byte} {t : Timer} (p : Config.Params)

theorem programOf_irqmodeOff (ht : timerOf a = some t) :
    programOf p (.irqmodeOff a) = straight (fun _ => 0) [writeBit (.ien t) false, writeBit .gie false] := by
  simp only [programOf, ht]

theorem programOf_irqmodeOn (imm : Half) (ht : timerOf a = some t) :
    programOf p (.irqmodeOn a imm) = straight (fun _ => 0) (irqOnAccesses t fun _ => imm) := by
  simp only [programOf, ht]

theorem programOf_inittick {c : Byte} {u : TickUnit} (ht : timerOf a = some t) (hu : unitOf c = some u) :
    programOf p (.inittick a c) = straight (fun _ => 0) (cacheAccesses ++ irqOnAccesses t latchR) := by
  simp only [programOf, ht, hu]

variable {p}

theorem programOf_rdtick_set (h : p.gieRestore = .set) :
    programOf p .rdtick = straight latchSnap rdtickSetAccesses := by
  simp only [programOf, h]

theorem programOf_rdtick_saved (h : p.gieRestore = .saved) :
    programOf p .rdtick = straight latchSnap rdtickSavedAccesses := by
  simp only [programOf, h]

theorem firstLabel_rdtick_set (h : p.gieRestore = .set) : firstLabel p .rdtick = 1 := by
  simp only [firstLabel, h, reduceCtorEq, if_false]

theorem firstLabel_rdtick_saved (h : p.gieRestore = .saved) : firstLabel p .rdtick = 0 := by
  simp only [firstLabel, h, if_true]

end Programs

/-! ## The steps of IRQMODE.OFF -/

/-- Settles O20: two accesses, the timer's interrupt enable and then the global one. -/
theorem irqmodeOffSteps : Obligations.IrqmodeOffSteps := by
  refine ⟨fun w => decode_of_opcodeByte w .irqmodeOff, fun a s => ⟨fun ha hb => ?_, fun t hat => ?_⟩⟩
  · exact invalidSelectorIsNoOp (.irqmodeOff a) s (decide_eq_false ha.not_gt) hb
  · have ht := (timerOf_eq_some_iff a t).mpr hat
    have hs : hasSteps (.irqmodeOff a) = true := validTimer_of_timerOf ht
    have hp := programOf_irqmodeOff s.cfg ht
    exact ⟨exec_idle _ s hs, fun hb => ⟨fun hk => exec_straight_next (k := 0) hs hb hp hk rfl Nat.one_lt_two rfl,
      fun hk => exec_straight_last (k := 1) hs hb hp hk rfl rfl⟩⟩

/-! ## The steps of IRQMODE.ON, and of INITTICK after its cache of the reload value -/

/-- The field of 16-bit mode with selector Timer in the nibble the selector byte names (41_interrupt_tick.md R86). -/
theorem orNibble_bit16_timer {a : Byte} {t : Timer} (ht : timerOf a = some t) (v : Byte) :
    orNibble t (modeField .bit16 .timer) v = v ||| ((0x01 : Byte) <<< (4 * a.toNat)) := by
  rw [orNibble, nibbleShift_of_timerOf ht]
  rfl

/-- The nine steps of IRQMODE.ON on the value `r`, the first of them at label `n + 1` (41_interrupt_tick.md R86). -/
def IrqOnLabels (i : Instr) (a : Byte) (t : Timer) (r : Half) (n : Nat) (s : State) : Prop :=
  (s.fg.upc = n + 1 → exec i s = .next { s with fg := { s.fg with upc := n + 2, t := some (readByte .mode s) } }) ∧
  (∀ v, s.fg.upc = n + 2 → s.fg.t = some v →
    exec i s = .next (atLabel (n + 3) (writeByte .mode (v &&& ~~~(if a = 0 then 0x0F else 0xF0 : Byte)) s))) ∧
  (s.fg.upc = n + 3 → exec i s = .next { s with fg := { s.fg with upc := n + 4, t := some (readByte .mode s) } }) ∧
  (∀ v, s.fg.upc = n + 4 → s.fg.t = some v →
    exec i s = .next (atLabel (n + 5) (writeByte .mode (v ||| ((0x01 : Byte) <<< (4 * a.toNat))) s))) ∧
  (s.fg.upc = n + 5 → exec i s = .next (atLabel (n + 6) (writeByte (.cl t) (loByte r) s))) ∧
  (s.fg.upc = n + 6 → exec i s = .next (atLabel (n + 7) (writeByte (.ch t) (hiByte r) s))) ∧
  (s.fg.upc = n + 7 → exec i s = .next (atLabel (n + 8) (writeBit (.ien t) true s))) ∧
  (s.fg.upc = n + 8 → exec i s = .next (atLabel (n + 9) (writeBit (.run t) true s))) ∧
  (s.fg.upc = n + 9 → exec i s = .next (complete 0 (writeBit .gie true s)))

/-- A straight line that ends with the accesses of IRQMODE.ON takes its nine steps after those before them. -/
theorem irqOnLabels_of_programOf {i : Instr} {a : Byte} {t : Timer} {v : State → Half} {r : Half} {s : State}
    (pre : List (State → State)) (hs : hasSteps i = true) (hb : s.fg.busy = true) (ht : timerOf a = some t)
    (hfirst : firstLabel s.cfg i = 1)
    (hp : programOf s.cfg i = straight (fun _ => 0) (pre ++ irqOnAccesses t v)) (hv : v s = r) :
    IrqOnLabels i a t r pre.length s := by
  have hnext {k : Nat} {e : State → State} (he : (irqOnAccesses t v)[k]? = some e) (hlt : k < 8)
      (hupc : (e s).fg.upc = s.fg.upc) (hk : s.fg.upc = pre.length + (k + 1)) :
      exec i s = .next (atLabel (pre.length + (k + 2)) (e s)) := by
    have h := exec_straight_next (k := pre.length + k) hs hb hp (by omega)
      (by rwa [List.getElem?_append_right (Nat.le_add_right _ _), Nat.add_sub_cancel_left])
      (by simp [irqOnAccesses, configAccesses, loadAccesses]; omega) hupc
    rwa [hfirst, show 1 + (pre.length + k) + 1 = pre.length + (k + 2) by omega] at h
  refine ⟨hnext (k := 0) rfl (by decide) rfl, fun w hk hw => ?_, hnext (k := 2) rfl (by decide) rfl,
    fun w hk hw => ?_, fun hk => ?_, fun hk => ?_, hnext (k := 6) rfl (by decide) rfl,
    hnext (k := 7) rfl (by decide) rfl, fun hk => ?_⟩
  · have hclear := hnext (k := 1) rfl (by decide) rfl hk
    rwa [latchT_eq hw, clearNibble_of_timerOf ht] at hclear
  · have hor := hnext (k := 3) rfl (by decide) rfl hk
    rwa [latchT_eq hw, orNibble_bit16_timer ht] at hor
  · have hlow := hnext (k := 4) rfl (by decide) rfl hk
    rwa [hv] at hlow
  · have hhigh := hnext (k := 5) rfl (by decide) rfl hk
    rwa [hv] at hhigh
  · exact exec_straight_last (k := pre.length + 8) (result := fun _ => 0) hs hb hp (by omega)
      (by simp [irqOnAccesses, configAccesses, loadAccesses])
      (by simp [irqOnAccesses, configAccesses, loadAccesses])

/-- Settles O21: the nine steps on the immediate, none before them. -/
theorem irqmodeOnSteps : Obligations.IrqmodeOnSteps := by
  refine ⟨fun w h => ?_, fun a imm s => ⟨fun ha hb => ?_, fun t hat => ?_⟩⟩
  · rw [decode_of_opcodeByte w .irqmodeOn h, instrOfFields, immOf_fields, fieldA]
  · exact invalidSelectorIsNoOp (.irqmodeOn a imm) s (decide_eq_false ha.not_gt) hb
  · have ht := (timerOf_eq_some_iff a t).mpr hat
    have hs : hasSteps (.irqmodeOn a imm) = true := validTimer_of_timerOf ht
    exact ⟨exec_idle _ s hs, fun hb =>
      irqOnLabels_of_programOf [] hs hb ht rfl (programOf_irqmodeOn s.cfg imm ht) rfl⟩

theorem latchR_eq {s : State} {r : Half} (h : s.fg.r = some r) : latchR s = r := by
  rw [latchR, h, Option.getD_some]

/-- INITTICK has steps exactly when both its selectors are valid (41_interrupt_tick.md R88). -/
theorem hasSteps_inittick_iff (a c : Byte) : hasSteps (.inittick a c) = true ↔ a.toNat < 2 ∧ c.toNat < 2 := by
  simp [hasSteps, Instr.wellFormed, validTimer, validUnit]

theorem hasSteps_inittick {a c : Byte} {t : Timer} {u : TickUnit} (ht : timerOf a = some t) (hu : unitOf c = some u) :
    hasSteps (.inittick a c) = true := by
  simp [hasSteps, Instr.wellFormed, validTimer_eq, validUnit_eq, ht, hu]

theorem prepOf_inittick (p : Config.Params) (a : Byte) {c : Byte} {u : TickUnit} (hu : unitOf c = some u) :
    prepOf p (.inittick a c) = fun fg => { fg with r := some (reload p u) } := by
  funext fg
  simp only [prepOf, hu]

/-- Settles O22: two accesses that write the latch `R` to `PRV`, and the nine steps of IRQMODE.ON on it. -/
theorem inittickSteps : Obligations.InittickSteps := by
  refine ⟨fun w => decode_of_opcodeByte w .inittick, fun a c s => ⟨fun hbad hb => ?_, fun t u hat hcu => ?_⟩⟩
  · refine invalidSelectorIsNoOp (.inittick a c) s (Bool.eq_false_of_not_eq_true fun hw => ?_) hb
    obtain ⟨ha, hc⟩ := (hasSteps_inittick_iff a c).mp hw
    omega
  · have ht := (timerOf_eq_some_iff a t).mpr hat
    have hu := (unitOf_eq_some_iff c u).mpr hcu
    have hs := hasSteps_inittick ht hu
    have hp := programOf_inittick s.cfg ht hu
    refine ⟨fun hb => prepOf_inittick s.cfg a hu ▸ exec_idle _ s hs hb, fun r hb hr => ⟨fun hk => ?_, fun hk => ?_,
      irqOnLabels_of_programOf cacheAccesses hs hb ht rfl hp (latchR_eq hr)⟩⟩
    · have hlow := exec_straight_next (k := 0) hs hb hp hk rfl (Nat.one_lt_succ_succ _) rfl
      rwa [latchR_eq hr] at hlow
    · have hhigh := exec_straight_next (k := 1) hs hb hp hk rfl (Nat.succ_lt_succ (Nat.one_lt_succ_succ _)) rfl
      rwa [latchR_eq hr] at hhigh

/-! ## The steps of RDTICK -/

/-- `S1` to `S5` of RDTICK are the same steps under both values of `GIE_RESTORE` (41_interrupt_tick.md R89). -/
theorem exec_rdtick_next {s : State} {k : Nat} {e : State → State} (hb : s.fg.busy = true)
    (he : (writeBit .gie false :: snapAccesses)[k]? = some e) (hupc : (e s).fg.upc = s.fg.upc)
    (hk : s.fg.upc = k + 1) : exec .rdtick s = .next (atLabel (k + 2) (e s)) := by
  obtain ⟨hlt, -⟩ := List.getElem?_eq_some_iff.mp he
  cases hg : s.cfg.gieRestore with
  | set =>
    have hfirst := firstLabel_rdtick_set hg
    have h := exec_straight_next (k := k) rfl hb (programOf_rdtick_set hg) (by omega)
      (List.getElem?_append_left hlt ▸ he) (Nat.succ_lt_succ hlt) hupc
    rwa [hfirst, Nat.add_comm 1 k] at h
  | saved =>
    have hfirst := firstLabel_rdtick_saved hg
    have h := exec_straight_next (k := k + 1) rfl hb (programOf_rdtick_saved hg) (by omega)
      (List.getElem?_append_left hlt ▸ he) (Nat.succ_lt_succ (Nat.succ_lt_succ hlt)) hupc
    rwa [hfirst, Nat.zero_add] at h

/-- `S6` of RDTICK writes `GIE`, and answers what the four reads put in `SNAP`, under both values of `GIE_RESTORE`. -/
theorem exec_rdtick_last {s : State} (hb : s.fg.busy = true) (hk : s.fg.upc = 6) :
    exec .rdtick s =
      .next (complete (latchSnap s) (writeBit .gie (if s.cfg.gieRestore = .saved then latchG s else true) s)) := by
  cases hg : s.cfg.gieRestore with
  | set =>
    exact exec_straight_last (k := 5) (e := writeBit .gie true) rfl hb (programOf_rdtick_set hg)
      (by rw [firstLabel_rdtick_set hg, hk]) rfl rfl
  | saved =>
    exact exec_straight_last (k := 6) (e := fun u => writeBit .gie (latchG u) u) rfl hb (programOf_rdtick_saved hg)
      (by rw [firstLabel_rdtick_saved hg, hk]) rfl rfl

theorem latchG_eq {s : State} {g : Bool} (h : s.fg.g = some g) : latchG s = g := by
  rw [latchG, h, Option.getD_some]

theorem latchSnap_eq {s : State} {b0 b1 b2 b3 : Byte} (h0 : s.fg.snap0 = some b0) (h1 : s.fg.snap1 = some b1)
    (h2 : s.fg.snap2 = some b2) (h3 : s.fg.snap3 = some b3) : latchSnap s = joinWord b3 b2 b1 b0 := by
  simp only [latchSnap, h0, h1, h2, h3, Option.getD_some]

/-- Settles O23: `S0` stands before the common steps under `saved` alone, and `S6` differs in what it writes. -/
theorem rdtickSteps : Obligations.RdtickSteps := by
  refine ⟨fun w => decode_of_opcodeByte w .rdtick, fun s => ⟨fun hb hg => ?_, fun hb hg => ?_, fun hb =>
    ⟨fun hk hg => ?_, exec_rdtick_next (k := 0) hb rfl rfl, exec_rdtick_next (k := 1) hb rfl rfl,
      exec_rdtick_next (k := 2) hb rfl rfl, exec_rdtick_next (k := 3) hb rfl rfl,
      exec_rdtick_next (k := 4) hb rfl rfl, fun b0 b1 b2 b3 hk h0 h1 h2 h3 => ?_⟩⟩⟩
  · exact firstLabel_rdtick_set hg ▸ exec_idle .rdtick s rfl hb
  · exact firstLabel_rdtick_saved hg ▸ exec_idle .rdtick s rfl hb
  · have hfirst := firstLabel_rdtick_saved hg
    have h := exec_straight_next (k := 0) rfl hb (programOf_rdtick_saved hg) (by omega) rfl (by decide) rfl
    rwa [hfirst] at h
  · have h := exec_rdtick_last hb hk
    rw [latchSnap_eq h0 h1 h2 h3] at h
    refine ⟨fun hg => ?_, fun g hgl hg => ?_⟩
    · rwa [hg] at h
    · rwa [hg, if_pos rfl, latchG_eq hgl] at h

end Sys2Proof.Machine
end

section
/-! PROOF. What the interrupt-tick operations leave unchanged, and what each does with no other agent stepping in
between (41_interrupt_tick.md R86 to R89). -/

namespace Sys2Proof.Machine

open Sys2Proof

/-! ## What the interrupt-tick operations leave unchanged -/

theorem cellsKept_irqOnAccesses {i : Instr} (t : Timer) (v : State → Half)
    (hbyte : ∀ c, c = .mode ∨ c = .cl t ∨ c = .ch t → mayWriteByte i c)
    (hbit : ∀ b, b = .ien t ∨ b = .run t ∨ b = .gie → mayWriteBit i b) : ∀ e ∈ irqOnAccesses t v, CellsKept i e := by
  simp only [irqOnAccesses, List.forall_mem_append, List.forall_mem_cons]
  have hset (b : BitCell) (hb : b = .ien t ∨ b = .run t ∨ b = .gie) : CellsKept i (writeBit b true) :=
    cellsKept_writeBit (fun _ => true) (hbit b hb)
  exact ⟨⟨cellsKept_configAccesses t _ (hbyte _ (.inl rfl)),
      cellsKept_loadAccesses t v (hbyte _ (.inr (.inl rfl))) (hbyte _ (.inr (.inr rfl)))⟩,
    hset _ (.inl rfl), hset _ (.inr (.inl rfl)), hset _ (.inr (.inr rfl)), List.forall_mem_nil _⟩

theorem cellsKept_cacheAccesses {i : Instr} (hl : mayWriteByte i .prvL) (hh : mayWriteByte i .prvH) :
    ∀ e ∈ cacheAccesses, CellsKept i e := by
  simp only [cacheAccesses, List.forall_mem_cons]
  exact ⟨cellsKept_writeByte _ hl, cellsKept_writeByte _ hh, List.forall_mem_nil _⟩

theorem cellsKept_snapAccesses (i : Instr) : ∀ e ∈ snapAccesses, CellsKept i e := by
  simp only [snapAccesses, List.forall_mem_cons]
  exact ⟨cellsKept_onFg i _, cellsKept_onFg i _, cellsKept_onFg i _, cellsKept_onFg i _, List.forall_mem_nil _⟩

/-- The micro-steps of the interrupt-tick operations write only the cells the rules name. -/
theorem cellsKept_interruptTick (p : Config.Params) (i : Instr)
    (hi : i.opcode = .irqmodeOff ∨ i.opcode = .irqmodeOn ∨ i.opcode = .inittick ∨ i.opcode = .rdtick) :
    ∀ m ∈ programOf p i, CellsKept i fun u => (m u).1 := by
  cases i with
  | irqmodeOff a =>
    simp only [programOf]
    split
    · next t ht =>
      refine cellsKept_straight _ _ (List.forall_mem_cons.mpr ⟨?_, List.forall_mem_singleton.mpr ?_⟩)
      · exact cellsKept_writeBit (fun _ => false) ⟨t, ht, .inl rfl⟩
      · exact cellsKept_writeBit (fun _ => false) ⟨t, ht, .inr rfl⟩
    · exact List.forall_mem_nil _
  | irqmodeOn a imm =>
    simp only [programOf]
    split
    · next t ht =>
      exact cellsKept_straight _ _
        (cellsKept_irqOnAccesses t _ (fun _ hc => ⟨t, ht, hc⟩) fun _ hb => ⟨t, ht, hb⟩)
    · exact List.forall_mem_nil _
  | inittick a c =>
    simp only [programOf]
    split
    · next t _ ht _ =>
      refine cellsKept_straight _ _ (List.forall_mem_append.mpr ⟨?_, ?_⟩)
      · exact cellsKept_cacheAccesses ⟨t, ht, .inl rfl⟩ ⟨t, ht, .inr (.inl rfl)⟩
      · exact cellsKept_irqOnAccesses t _ (fun _ hc => ⟨t, ht, .inr (.inr hc)⟩) fun _ hb => ⟨t, ht, hb⟩
    · exact List.forall_mem_nil _
  | rdtick =>
    have hgie (v : State → Bool) : CellsKept .rdtick fun u => writeBit .gie (v u) u := cellsKept_writeBit v rfl
    simp only [programOf]
    split
    · refine cellsKept_straight _ _ ?_
      simp only [rdtickSetAccesses, List.forall_mem_append, List.forall_mem_singleton]
      exact ⟨⟨hgie fun _ => false, cellsKept_snapAccesses _⟩, hgie fun _ => true⟩
    · refine cellsKept_straight _ _ ?_
      simp only [rdtickSavedAccesses, List.forall_mem_append, List.forall_mem_cons]
      exact ⟨⟨⟨cellsKept_onFg _ _, hgie fun _ => false, List.forall_mem_nil _⟩, cellsKept_snapAccesses _⟩, hgie latchG,
        List.forall_mem_nil _⟩
  | cfgmode | loadcnt | start | stop | rdovf | delayus | delayms => simp [Instr.opcode] at hi

/-- Settles O27: every micro-step of the four writes only its command's cells. -/
theorem interruptTickFrame : Obligations.InterruptTickFrame := fun i s s' hi h =>
  execFrame_of_cellsKept i s s' (cellsKept_interruptTick s.cfg i hi) h

/-! ## A straight line as a whole -/

/-- The state after all the accesses of a straight line, with no other agent in between. -/
def straightEnd (result : State → Word) : List (State → State) → State → State
  | [], s => s
  | [e], s => advance (e s, .done (result (e s)))
  | e :: rest, s => straightEnd result rest (advance (e s, .next))

/-- The accesses of a straight line leave its place in the micro-program to the sequencer. -/
theorem straight_access_kept {i : Instr} {p : Config.Params} {result : State → Word} {l : List (State → State)}
    {e : State → State} (hs : hasSteps i = true) (hp : programOf p i = straight result l) (he : e ∈ l) (s : State)
    (hcfg : s.cfg = p) :
    (e s).cfg = p ∧ (e s).fg.upc = s.fg.upc ∧ (e s).fg.busy = s.fg.busy := by
  subst hcfg
  obtain ⟨k, hk⟩ := List.mem_iff_getElem?.mp he
  have hm := straight_getElem? result l k
  rw [hk, ← hp, Option.map_some] at hm
  have hmem := List.mem_of_getElem? hm
  obtain ⟨-, hbusy, -⟩ := micro_answers i s _ hs hmem
  have hcfg := congrArg State.cfg (onlyRegsAndFg_programOf s.cfg i _ hmem s)
  have haccess := accessAt_programOf s.cfg i _ (List.mk_mem_zipIdx_iff_le_and_getElem?_sub.mpr
    ⟨Nat.le_add_right _ k, (Nat.add_sub_cancel_left _ k).symm ▸ hm⟩)
  exact ⟨hcfg, (haccess.latchesKept s).upc, hbusy⟩

/-- From the label of the first of the accesses `l` that are left: a step for each, the last with the answer. -/
theorem execTimes_straight {i : Instr} {p : Config.Params} {result : State → Word} (pre l : List (State → State))
    (s : State) (hs : hasSteps i = true) (hb : s.fg.busy = true) (hcfg : s.cfg = p)
    (hp : programOf p i = straight result (pre ++ l)) (hk : s.fg.upc = firstLabel p i + pre.length) (hl : l ≠ []) :
    execTimes l.length i s = .next (straightEnd result l s) := by
  induction l generalizing pre s with
  | nil => exact absurd rfl hl
  | cons e rest ih =>
    have hat : (pre ++ e :: rest)[pre.length]? = some e := by simp
    have hstep := exec_straight hs hb (hcfg ▸ hp) (hcfg ▸ hk) hat
    cases rest with
    | nil =>
      rw [if_pos (by simp)] at hstep
      exact execTimes_succ hstep 0
    | cons e' rest =>
      rw [if_neg (by simp)] at hstep
      obtain ⟨hcfg', hupc', hbusy'⟩ := straight_access_kept hs hp (List.mem_of_getElem? hat) s hcfg
      rw [List.length_cons, execTimes_succ hstep]
      refine ih (pre ++ [e]) _ (hbusy'.trans hb) hcfg' (by rwa [List.append_assoc]) ?_ (List.cons_ne_nil _ _)
      rw [List.length_append, ← Nat.add_assoc, ← hk, ← hupc']
      rfl

theorem begin_busy (p : Config.Params) (i : Instr) (op : Opcode) (base : Nat) (s : State) :
    (begin op base (prepOf p i) s).fg.busy = true := by
  simp only [begin, onFg_fg]
  rw [prepOf_rest]

/-- The issue of a command that is a straight line and all its steps, with no other agent in between. -/
theorem execTimes_issue_straight {i : Instr} {result : State → Word} {l : List (State → State)} {s : State}
    (hs : hasSteps i = true) (hb : s.fg.busy = false) (hp : programOf s.cfg i = straight result l) (hl : l ≠ []) :
    execTimes (l.length + 1) i s =
      .next (straightEnd result l (begin i.opcode (firstLabel s.cfg i) (prepOf s.cfg i) s)) := by
  rw [execTimes_succ (exec_idle i s hs hb)]
  exact execTimes_straight [] l _ hs (begin_busy _ _ _ _ s) rfl hp (begin_upc _ _ _ _ s) hl

/-! ## IRQMODE.ON and INITTICK as wholes -/

theorem tickOf_congr {s s' : State} (h : ∀ k, readByte (.tick k) s' = readByte (.tick k) s) : tickOf s' = tickOf s := by
  simp only [tickOf, h]

theorem countOf_congr {t : Timer} {s s' : State} (hl : readByte (.cl t) s' = readByte (.cl t) s)
    (hh : readByte (.ch t) s' = readByte (.ch t) s) : countOf t s' = countOf t s := by
  rw [countOf, hl, hh, countOf]

/-- What IRQMODE.ON does between the states `s` and `s'`, with the value `r` for the timer `t` that the selector byte
`a` names (41_interrupt_tick.md R86). -/
structure IrqOnDone (a : Byte) (t : Timer) (r : Half) (s s' : State) : Prop where
  idle      : s'.fg.busy = false
  responses : s'.responses = 0 :: s.responses
  mode      : readByte .mode s' =
    (readByte .mode s &&& ~~~(if a = 0 then 0x0F else 0xF0 : Byte)) ||| ((0x01 : Byte) <<< (4 * a.toNat))
  count     : countOf t s' = r
  ien       : readBit (.ien t) s' = true
  run       : readBit (.run t) s' = true
  gie       : readBit .gie s' = true
  bytes     : ∀ c, c ≠ .mode → c ≠ .cl t → c ≠ .ch t → readByte c s' = readByte c s
  bits      : ∀ b, b ≠ .ien t → b ≠ .run t → b ≠ .gie → readBit b s' = readBit b s

/-- The accesses of IRQMODE.ON, wherever the value comes from that they load. -/
theorem irqOnDone_straightEnd {a : Byte} {t : Timer} {v : State → Half} {r : Half} (s : State)
    (ht : timerOf a = some t) (hv : ∀ u, u.fg.r = s.fg.r → v u = r) :
    IrqOnDone a t r s (straightEnd (fun _ => 0) (irqOnAccesses t v) s) := by
  simp only [irqOnAccesses, configAccesses, loadAccesses, List.cons_append, List.nil_append, straightEnd]
  refine ⟨rfl, rfl, ?_, ?_, ?_, ?_, ?_, fun c hmode hcl hch => ?_, fun b hien hrun hgie => ?_⟩
  · simp [orNibble_bit16_timer ht, clearNibble_of_timerOf ht, latchT]
  · simp only [countOf, readByte_advance, readByte_writeBit, readByte_writeByte_same, advance_next, readByte_onFg,
      readByte_writeByte_ne, ne_eq, reduceCtorEq, not_false_eq_true]
    rw [hv, hv, joinHalf_hi_lo] <;> simp
  · simp
  · simp
  · simp
  · simp [hmode, hcl, hch]
  · simp [hien, hrun, hgie]

section IrqOnDone

variable {a : Byte} {t : Timer} {r : Half} {s s' : State}

/-- IRQMODE.ON leaves `TICK` as it was. -/
theorem IrqOnDone.tickOf_eq (h : IrqOnDone a t r s s') : tickOf s' = tickOf s :=
  tickOf_congr fun j => h.bytes (.tick j) nofun nofun nofun

/-- IRQMODE.ON leaves `PRV` as it was. -/
theorem IrqOnDone.prvOf_eq (h : IrqOnDone a t r s s') : prvOf s' = prvOf s := by
  rw [prvOf, h.bytes .prvH nofun nofun nofun, h.bytes .prvL nofun nofun nofun, prvOf]

/-- IRQMODE.ON leaves the other timer and both flags as they were. -/
theorem IrqOnDone.other_eq (h : IrqOnDone a t r s s') :
    countOf t.other s' = countOf t.other s ∧ readBit (.ien t.other) s' = readBit (.ien t.other) s ∧
    readBit (.run t.other) s' = readBit (.run t.other) s ∧ ∀ u, readBit (.ovf u) s' = readBit (.ovf u) s := by
  refine ⟨countOf_congr ?_ ?_, h.bits _ ?_ nofun nofun, h.bits _ nofun ?_ nofun, fun u => h.bits _ nofun nofun nofun⟩
  · exact h.bytes _ nofun (by simp) nofun
  · exact h.bytes _ nofun nofun (by simp)
  · simp
  · simp

end IrqOnDone

/-- Settles O32: the accesses of IRQMODE.ON on the immediate, from the state the issue leaves. -/
theorem irqmodeOnWhole : Obligations.IrqmodeOnWhole := by
  intro a imm t s hat hb
  have ht := (timerOf_eq_some_iff a t).mpr hat
  have hs : hasSteps (.irqmodeOn a imm) = true := validTimer_of_timerOf ht
  have hrun := execTimes_issue_straight hs hb (programOf_irqmodeOn s.cfg imm ht) (List.cons_ne_nil _ _)
  have hdone := irqOnDone_straightEnd (v := fun _ => imm) (begin .irqmodeOn 1 id s) ht fun _ _ => rfl
  exact ⟨_, hrun, hdone.idle, hdone.responses, hdone.mode, hdone.count, hdone.ien, hdone.run, hdone.gie,
    hdone.prvOf_eq, hdone.tickOf_eq, hdone.other_eq⟩

/-- INITTICK right after it has cached the reload value `r` in `PRV`, before the accesses of IRQMODE.ON
(41_interrupt_tick.md R88). -/
def reloadCached (r : Half) (s : State) : State :=
  atLabel 3 (writeByte .prvH (hiByte r) (atLabel 2 (writeByte .prvL (loByte r)
    (begin .inittick 1 (fun fg => { fg with r := some r }) s))))

theorem prvOf_reloadCached (r : Half) (s : State) : prvOf (reloadCached r s) = r := by
  simp [reloadCached, prvOf, atLabel]

/-- Caching the reload value changes no cell but `PRV`. -/
theorem readByte_reloadCached (r : Half) (s : State) (c : ByteCell) (hl : c ≠ .prvL) (hh : c ≠ .prvH) :
    readByte c (reloadCached r s) = readByte c s := by
  simp [reloadCached, atLabel, hl, hh]

theorem readBit_reloadCached (r : Half) (s : State) (b : BitCell) : readBit b (reloadCached r s) = readBit b s := rfl

/-- Settles O33: the reload value goes from the latch `R` into `PRV`, and from there on INITTICK is IRQMODE.ON on it. -/
theorem inittickWhole : Obligations.InittickWhole := by
  intro a c t u s hat hcu hb
  have ht := (timerOf_eq_some_iff a t).mpr hat
  have hu := (unitOf_eq_some_iff c u).mpr hcu
  have hrun := execTimes_issue_straight (hasSteps_inittick ht hu) hb (programOf_inittick s.cfg ht hu)
    (List.cons_ne_nil _ _)
  rw [prepOf_inittick s.cfg a hu] at hrun
  have hdone := irqOnDone_straightEnd (v := latchR) (reloadCached (reload s.cfg u) s) ht fun w hw => latchR_eq hw
  have hbyte := readByte_reloadCached (reload s.cfg u) s
  obtain ⟨hcount, hother⟩ := hdone.other_eq
  refine ⟨_, hrun, hdone.idle, hdone.responses, hdone.prvOf_eq.trans (prvOf_reloadCached _ s), hdone.count, ?_,
    hdone.ien, hdone.run, hdone.gie, ?_, ?_, hother⟩
  · exact hbyte .mode nofun nofun ▸ hdone.mode
  · exact hdone.tickOf_eq.trans (tickOf_congr fun j => hbyte (.tick j) nofun nofun)
  · exact hcount.trans (countOf_congr (hbyte _ nofun nofun) (hbyte _ nofun nofun))

/-! ## RDTICK as a whole -/

/-- Settles O34: with no access in between that writes `TICK`, the four reads join to its value, and `S6` puts back
what `S0` read or a 1. -/
theorem rdtickWhole : Obligations.RdtickWhole := by
  intro s hb
  cases hg : s.cfg.gieRestore with
  | set =>
    have hrun := execTimes_issue_straight rfl hb (programOf_rdtick_set hg) (List.cons_ne_nil _ _)
    rw [labelCount, hg]
    exact ⟨_, hrun, rfl, rfl, rfl⟩
  | saved =>
    have hrun := execTimes_issue_straight rfl hb (programOf_rdtick_saved hg) (List.cons_ne_nil _ _)
    rw [labelCount, hg]
    exact ⟨_, hrun, rfl, rfl, rfl⟩

end Sys2Proof.Machine
end

section
/-! PROOF. RDTICK in every run: while it is in progress from its `S1` on, no handler is in service, `GIE` is 0 and
`TICK` stays, whatever the other agents do (41_interrupt_tick.md R90). -/

namespace Sys2Proof.Machine

open Sys2Proof

/-! ## What keeps the handlers out -/

/-- With no handler in service and interrupts globally masked, no step of any agent enters a handler. -/
theorem runEvent_hs_of_masked (e : Event) (s s' : State) (hh : s.hs = []) (hgie : readBit .gie s = false)
    (h : runEvent e s = .next s') : s'.hs = [] := by
  rcases runEvent_cases e s s' h with ⟨-, rfl⟩ | ⟨-, -, -, w, rest, -, ⟨i, -, hx⟩ | ⟨-, rfl⟩⟩ | ⟨-, -, -, i, -, hx⟩ |
    ⟨t, -, -, hx⟩ | ⟨-, -, rfl⟩ | ⟨t, -, he, -⟩ | ⟨-, f, below, hf, -⟩ | ⟨-, rfl⟩
  · exact hh
  · obtain ⟨hhs, -⟩ := exec_rest i _ s' hx
    exact hhs.trans hh
  · exact hh
  · obtain ⟨hhs, -⟩ := exec_rest i s s' hx
    exact hhs.trans hh
  · obtain ⟨-, -, -, -, hhs, -⟩ := countStep_frame t s s' hx
    exact hhs.trans hh
  · obtain ⟨-, -, -, -, hrest⟩ := count8_spec (.ch .t0) .t1 s
    rw [countHigh, hrest]
    exact hh
  · obtain ⟨-, -, hon, -⟩ := (dispatchReady_iff t s).mp (dispatchReady_of_enabled t s he)
    rw [hgie] at hon
    cases hon
  · rw [hh] at hf
    cases hf
  · rfl

/-- With no handler in service, no step but `Reset` changes `TICK`. -/
theorem runEvent_tick_of_no_handler (e : Event) (s s' : State) (he : e ≠ .reset) (hh : s.hs = [])
    (h : runEvent e s = .next s') (j : Fin 4) : readByte (.tick j) s' = readByte (.tick j) s := by
  by_contra hne
  obtain ⟨-, f, below, hf, -⟩ := (runEvent_mayChangeByte e s s' h he _ hne).of_tick
  rw [hh] at hf
  cases hf

/-- A step never takes an answer back. -/
theorem runEvent_responses (e : Event) (s s' : State) (h : runEvent e s = .next s') :
    s'.responses = s.responses ∨ ∃ v, s'.responses = v :: s.responses := by
  obtain ⟨-, -, hanswers, -⟩ := oneAnswerPerCommand e s s' h
  exact hanswers.imp_right And.left

/-! ## RDTICK in progress -/

/-- RDTICK at one of its labels after `S1`: the bytes of `SNAP` it has read are those that `TICK` held in the state `s₀`
of `S1`. -/
def RdtickLabel (s₀ s : State) : Prop :=
  s.fg.upc = 2 ∨
  s.fg.upc = 3 ∧ s.fg.snap0 = some (readByte (.tick 0) s₀) ∨
  s.fg.upc = 4 ∧ s.fg.snap0 = some (readByte (.tick 0) s₀) ∧ s.fg.snap1 = some (readByte (.tick 1) s₀) ∨
  s.fg.upc = 5 ∧ s.fg.snap0 = some (readByte (.tick 0) s₀) ∧ s.fg.snap1 = some (readByte (.tick 1) s₀) ∧
    s.fg.snap2 = some (readByte (.tick 2) s₀) ∨
  s.fg.upc = 6 ∧ s.fg.snap0 = some (readByte (.tick 0) s₀) ∧ s.fg.snap1 = some (readByte (.tick 1) s₀) ∧
    s.fg.snap2 = some (readByte (.tick 2) s₀) ∧ s.fg.snap3 = some (readByte (.tick 3) s₀)

/-- The RDTICK that was at `S1` in `s₀` is past it and in progress, with nothing answered since. -/
structure RdtickInProgress (s₀ s : State) : Prop where
  busy      : s.fg.busy = true
  instr     : s.fg.instr = some .rdtick
  responses : s.responses = s₀.responses
  hs        : s.hs = []
  gie       : readBit .gie s = false
  tick      : ∀ j, readByte (.tick j) s = readByte (.tick j) s₀
  label     : RdtickLabel s₀ s

/-- The first answer after the state `s₀` is the tick counter of `s₀`. -/
def RdtickAnswered (s₀ s : State) : Prop := ∃ later, s.responses = later ++ tickOf s₀ :: s₀.responses

section RdtickRun

variable {s₀ s s' : State}

/-- `S1` clears `GIE`. -/
theorem rdtickInProgress_of_first (hb : s₀.fg.busy = true) (hi : s₀.fg.instr = some .rdtick) (hk : s₀.fg.upc = 1)
    (hh : s₀.hs = []) (h : runEvent .fgStep s₀ = .next s) : RdtickInProgress s₀ s := by
  rw [runEvent_fgStep_busy .rdtick s₀ hb hh hi, exec_rdtick_next (k := 0) hb rfl rfl hk] at h
  cases h
  exact ⟨hb, hi, rfl, hh, rfl, fun _ => rfl, .inl rfl⟩

/-- The answer is on the host's record for good. -/
theorem RdtickAnswered.of_runEvent (hs : RdtickAnswered s₀ s) (e : Event) (h : runEvent e s = .next s') :
    RdtickAnswered s₀ s' := by
  obtain ⟨later, hlater⟩ := hs
  rcases runEvent_responses e s s' h with hr | ⟨v, hr⟩
  · exact ⟨later, hr.trans hlater⟩
  · exact ⟨v :: later, hr.trans (congrArg (v :: ·) hlater)⟩

/-- Each step of RDTICK reads the next byte, or answers the four of them. -/
theorem RdtickInProgress.of_exec (hs : RdtickInProgress s₀ s) (h : exec .rdtick s = .next s') :
    RdtickInProgress s₀ s' ∨ RdtickAnswered s₀ s' := by
  obtain ⟨-, hrule⟩ := rdtickSteps
  obtain ⟨-, -, hlabels⟩ := hrule s
  obtain ⟨-, -, h2, h3, h4, h5, -⟩ := hlabels hs.busy
  have hread (j : Fin 4) : some (readByte (.tick j) s) = some (readByte (.tick j) s₀) := congrArg some (hs.tick j)
  rcases hs.label with hk | ⟨hk, s0⟩ | ⟨hk, s0, s1⟩ | ⟨hk, s0, s1, s2⟩ | ⟨hk, s0, s1, s2, s3⟩
  · rw [h2 hk] at h
    cases h
    exact .inl { hs with label := .inr (.inl ⟨rfl, hread 0⟩) }
  · rw [h3 hk] at h
    cases h
    exact .inl { hs with label := .inr (.inr (.inl ⟨rfl, s0, hread 1⟩)) }
  · rw [h4 hk] at h
    cases h
    exact .inl { hs with label := .inr (.inr (.inr (.inl ⟨rfl, s0, s1, hread 2⟩))) }
  · rw [h5 hk] at h
    cases h
    exact .inl { hs with label := .inr (.inr (.inr (.inr ⟨rfl, s0, s1, s2, hread 3⟩))) }
  · rw [exec_rdtick_last hs.busy hk, latchSnap_eq s0 s1 s2 s3] at h
    cases h
    exact .inr ⟨[], congrArg (tickOf s₀ :: ·) hs.responses⟩

/-- No step but `Reset` and RDTICK's last one leads out of the states in which it is in progress. -/
theorem RdtickInProgress.of_runEvent (hs : RdtickInProgress s₀ s) (e : Event) (he : e ≠ .reset)
    (h : runEvent e s = .next s') : RdtickInProgress s₀ s' ∨ RdtickAnswered s₀ s' := by
  rcases runEvent_agent e s s' h with hf | ⟨-, hidle, -⟩ | ⟨rfl, -⟩ | ⟨hr, -⟩
  · have htick (j : Fin 4) := (runEvent_tick_of_no_handler e s s' he hs.hs h j).trans (hs.tick j)
    exact .inl ⟨hf.fg ▸ hs.busy, hf.fg ▸ hs.instr, hf.responses.trans hs.responses,
      runEvent_hs_of_masked e s s' hs.hs hs.gie h, (hf.bits .gie nofun).trans hs.gie, htick, by
        simpa only [RdtickLabel, hf.fg] using hs.label⟩
  · rw [hs.busy] at hidle
    cases hidle
  · exact hs.of_exec (runEvent_fgStep_busy .rdtick s hs.busy hs.hs hs.instr ▸ h)
  · exact absurd hr he

end RdtickRun

/-- Settles O37: from `S1` on RDTICK is in progress until it answers, and an answer stays. -/
theorem rdtickIsAtomic : Obligations.RdtickIsAtomic := by
  intro es s s' hb hi hk hh hes hrun
  obtain ⟨u, hfirst, hrest⟩ := runOn_cons _ _ _ _ hrun
  have hend : RdtickInProgress s s' ∨ RdtickAnswered s s' :=
    runOn_induct (fun w => RdtickInProgress s w ∨ RdtickAnswered s w) es u s'
      (fun e he _ _ hw hx => hw.elim (fun hp => hp.of_runEvent e (hes e he) hx) fun ha => .inr (ha.of_runEvent e hx))
      (.inl (rdtickInProgress_of_first hb hi hk hh hfirst)) hrest
  exact hend.imp_left fun hp => ⟨hp.responses, tickOf_congr hp.tick, hp.hs, hp.gie⟩

end Sys2Proof.Machine
end

section
/-! PROOF. The delays: their encodings and ten steps, and what each step leaves unchanged (42_delay.md R95 to R97). -/

namespace Sys2Proof.Machine

open Sys2Proof

/-! ## The delays' micro-program -/

section Delay

variable {i : Instr} {s : State}

theorem isDelay_cases (hd : isDelay i = true) : ∃ n, i = .delayus n ∨ i = .delayms n := by
  cases i with
  | delayus n => exact ⟨n, .inl rfl⟩
  | delayms n => exact ⟨n, .inr rfl⟩
  | cfgmode | loadcnt | start | stop | rdovf | irqmodeOff | irqmodeOn | inittick | rdtick => cases hd

theorem isDelay_of_opcode (h : i.opcode = .delayus ∨ i.opcode = .delayms) : isDelay i = true := by
  cases i with
  | delayus | delayms => rfl
  | cfgmode | loadcnt | start | stop | rdovf | irqmodeOff | irqmodeOn | inittick | rdtick => simp [Instr.opcode] at h

/-- Both delays run the one micro-program, from `S1` on (42_delay.md R95). -/
theorem programOf_of_isDelay (p : Config.Params) (hd : isDelay i = true) :
    programOf p i = delayProgram ∧ firstLabel p i = 1 := by
  obtain ⟨n, rfl | rfl⟩ := isDelay_cases hd <;> exact ⟨rfl, rfl⟩

/-- The step of a delay at the label after the `k`-th. -/
theorem exec_delay {k : Nat} {m : Micro} (hd : isDelay i = true) (hs : hasSteps i = true) (hb : s.fg.busy = true)
    (hm : delayProgram[k]? = some m) (hk : s.fg.upc = k + 1) : exec i s = .next (advance (m s)) := by
  obtain ⟨hprog, hfirst⟩ := programOf_of_isDelay s.cfg hd
  refine exec_busy i s m hs hb ?_ ?_
  · rw [hfirst, hk]
    exact Nat.le_add_left 1 k
  · rwa [hprog, hfirst, hk, Nat.add_sub_cancel]

/-- The step of a delay that only makes an access goes on to the next label. -/
theorem exec_delay_next {k : Nat} {e : State → State} (hd : isDelay i = true) (hs : hasSteps i = true)
    (hb : s.fg.busy = true) (hm : delayProgram[k]? = some fun u => (e u, .next)) (hupc : (e s).fg.upc = s.fg.upc)
    (hk : s.fg.upc = k + 1) : exec i s = .next (atLabel (k + 2) (e s)) := by
  rw [exec_delay hd hs hb hm hk]
  exact congrArg (fun n => Host.Outcome.next (atLabel (n + 1) (e s))) (hupc.trans hk)

end Delay

theorem latchLoop_eq {s : State} {k : Half} (h : s.fg.loop = some k) : latchLoop s = k := by
  rw [latchLoop, h, Option.getD_some]

/-- The poll of `S8` goes on exactly when it reads a 1. -/
theorem advance_delayPoll (s : State) (hk : s.fg.upc = 8) :
    advance (delayPoll s) = { s with fg := { s.fg with
      upc := (if readBit (.ovf .t0) s = true then 9 else 8), f := some (readBit (.ovf .t0) s) } } := by
  cases ho : readBit (.ovf .t0) s <;> simp [delayPoll, ho, onFg, hk]

/-- `S10` goes round again while iterations are left. -/
theorem advance_delayClear_again (s : State) (k : Half) (hl : s.fg.loop = some k) (hk : k ≠ 1) :
    advance (delayClear s) =
      atLabel 5 (onFg (fun fg => { fg with loop := some (k - 1) }) (writeBit (.ovf .t0) false s)) := by
  rw [delayClear, latchLoop_eq hl, if_neg (sub_ne_zero.mpr hk), advance_goto]
  rfl

/-- `S10` of the last iteration answers 0. -/
theorem advance_delayClear_last (s : State) (hl : s.fg.loop = some 1) :
    advance (delayClear s) =
      complete 0 (onFg (fun fg => { fg with loop := some 0 }) (writeBit (.ovf .t0) false s)) := by
  rw [delayClear, latchLoop_eq hl, sub_self, if_pos rfl, advance_done]

/-- Settles O24: a count of 0 is a command without steps; otherwise seven accesses, the poll, one more access, and the
step that counts the iterations. -/
theorem delaySteps : Obligations.DelaySteps := by
  refine ⟨fun w h => ?_, fun w h => ?_, fun i op u n s hi => ?_⟩
  · rw [decode_of_opcodeByte w .delayus h, instrOfFields, immOf_fields]
  · rw [decode_of_opcodeByte w .delayms h, instrOfFields, immOf_fields]
  have hissue : isDelay i = true ∧ hasSteps i = (n != 0) ∧ i.opcode = op ∧ firstLabel s.cfg i = 1 ∧
      prepOf s.cfg i = fun fg => { fg with r := some (reload s.cfg u), loop := some n } := by
    rcases hi with ⟨rfl, rfl, rfl⟩ | ⟨rfl, rfl, rfl⟩ <;> exact ⟨rfl, rfl, rfl, rfl, rfl⟩
  obtain ⟨hd, hsteps, hop, hfirst, hprep⟩ := hissue
  refine ⟨fun hn hb => ?_, fun hn => ?_⟩
  · rw [exec_noSteps i s (by simp [hsteps, hn])]
    simp only [noOp, complete, ← hb]
  have hs : hasSteps i = true := by simpa [hsteps] using hn
  refine ⟨fun hb => hop ▸ hfirst ▸ hprep ▸ exec_idle i s hs hb, fun r k hb hr hl => ?_⟩
  have hnext {j : Nat} {e : State → State} := exec_delay_next (k := j) (e := e) hd hs hb
  refine ⟨hnext (j := 0) rfl rfl, fun v hk hv => ?_, hnext (j := 2) rfl rfl, fun v hk hv => ?_, fun hk => ?_,
    fun hk => ?_, hnext (j := 6) rfl rfl, fun hk => ?_, hnext (j := 8) rfl rfl, fun hk hne => ?_, fun hk hone => ?_⟩
  · have hclear := hnext (j := 1) rfl rfl hk
    rwa [latchT_eq hv] at hclear
  · have hor := hnext (j := 3) rfl rfl hk
    rwa [latchT_eq hv] at hor
  · have hlow := hnext (j := 4) rfl rfl hk
    rwa [latchR_eq hr] at hlow
  · have hhigh := hnext (j := 5) rfl rfl hk
    rwa [latchR_eq hr] at hhigh
  · rw [exec_delay (k := 7) hd hs hb rfl hk, advance_delayPoll s hk]
  · rw [exec_delay (k := 9) hd hs hb rfl hk, advance_delayClear_again s k hl hne]
  · rw [exec_delay (k := 9) hd hs hb rfl hk, advance_delayClear_last s (hone ▸ hl)]

/-! ## What the delays leave unchanged -/

/-- The cells a delay may write (42_delay.md R95). -/
theorem mayWrite_of_isDelay {i : Instr} (hd : isDelay i = true) :
    (∀ c, mayWriteByte i c ↔ c = .mode ∨ c = .cl .t0 ∨ c = .ch .t0) ∧
    ∀ b, mayWriteBit i b ↔ b = .run .t0 ∨ b = .ovf .t0 := by
  obtain ⟨n, rfl | rfl⟩ := isDelay_cases hd <;> exact ⟨fun _ => .rfl, fun _ => .rfl⟩

/-- The delays' micro-steps write only the cells the rule names. -/
theorem cellsKept_delayProgram {i : Instr} (hd : isDelay i = true) :
    ∀ m ∈ delayProgram, CellsKept i fun u => (m u).1 := by
  obtain ⟨hbyte, hbit⟩ := mayWrite_of_isDelay hd
  have hrun (v : Bool) : CellsKept i (writeBit (.run .t0) v) :=
    cellsKept_writeBit (fun _ => v) ((hbit _).mpr (.inl rfl))
  have hovf : CellsKept i (writeBit (.ovf .t0) false) :=
    cellsKept_writeBit (fun _ => false) ((hbit _).mpr (.inr rfl))
  simp only [delayProgram, List.forall_mem_append, List.forall_mem_map, List.forall_mem_cons]
  exact ⟨⟨⟨cellsKept_configAccesses .t0 _ ((hbyte _).mpr (.inl rfl)),
      cellsKept_loadAccesses .t0 _ ((hbyte _).mpr (.inr (.inl rfl))) ((hbyte _).mpr (.inr (.inr rfl)))⟩,
      hrun true, List.forall_mem_nil _⟩,
    cellsKept_onFg i fun s fg => { fg with f := some (readBit (.ovf .t0) s) }, hrun false, hovf, List.forall_mem_nil _⟩

/-- What the step of a delay at label `k` does in the state `s`, `r` being the state it leaves and the sequencer's move:
the latches `T` and `LOOP`, and the cells of Timer 0 with `MODE` (42_delay.md R95). -/
structure DelayAccess (k : Nat) (s : State) (r : State × Seq) : Prop where
  t    : r.1.fg.t = if k = 1 ∨ k = 3 then some (readByte .mode s) else s.fg.t
  mode : readByte .mode r.1 =
    if k = 2 then latchT s &&& 0xF0 else if k = 4 then latchT s ||| 0x01 else readByte .mode s
  low  : readByte (.cl .t0) r.1 = if k = 5 then loByte (latchR s) else readByte (.cl .t0) s
  high : readByte (.ch .t0) r.1 = if k = 6 then hiByte (latchR s) else readByte (.ch .t0) s
  run  : readBit (.run .t0) r.1 = if k = 7 then true else if k = 9 then false else readBit (.run .t0) s
  ovf  : readBit (.ovf .t0) r.1 = if k = 10 then false else readBit (.ovf .t0) s
  loop : r.1.fg.loop = if k = 10 then some (latchLoop s - 1) else s.fg.loop
  seq  : r.2 =
    if k = 8 then if readBit (.ovf .t0) s = true then .next else .goto 8
    else if k = 10 then if latchLoop s - 1 = 0 then .done 0 else .goto 5
    else .next

/-- The ten steps, one by one. -/
theorem delayAccess_delayProgram (s : State) : ∀ x ∈ delayProgram.zipIdx 1, DelayAccess x.2 s (x.1 s) := by
  simp only [delayProgram, configAccesses, loadAccesses, List.cons_append, List.nil_append, List.map_cons,
    List.map_nil, List.zipIdx_cons, List.forall_mem_cons]
  refine ⟨?_, ?_, ?_, ?_, ?_, ?_, ?_, ?_, ?_, ?_, List.forall_mem_nil _⟩ <;> constructor <;>
    simp [clearNibble, orNibble, nibbleMask, nibbleShift, modeField, modeBits, ctBits, delayPoll, delayClear]

/-- What `exec` of a delay in progress answers: the step at the current label, and the sequencer's move. -/
theorem exec_delayAccess {i : Instr} {s s' : State} (hd : isDelay i = true) (hb : s.fg.busy = true)
    (h : exec i s = .next s') :
    hasSteps i = false ∧ s' = complete 0 s ∨
    hasSteps i = true ∧ ∃ m ∈ programOf s.cfg i, AccessAt i s.fg.upc (fun u => (m u).1) ∧
      DelayAccess s.fg.upc s (m s) ∧ s' = advance (m s) := by
  rcases exec_next i s s' h with hno | ⟨-, hidle, -⟩ | ⟨hs, -, hk, m, hm, hadv⟩
  · exact .inl hno
  · rw [hb] at hidle
    cases hidle
  · obtain ⟨hprog, hfirst⟩ := programOf_of_isDelay s.cfg hd
    have hmem := List.mk_mem_zipIdx_iff_le_and_getElem?_sub.mpr ⟨hk, hm⟩
    have hacc := accessAt_programOf s.cfg i _ hmem
    rw [hprog, hfirst] at hmem
    exact .inr ⟨hs, m, List.mem_of_getElem? hm, hacc, delayAccess_delayProgram s _ hmem, hadv⟩

theorem high_nibble_of_cleared (v : Byte) : v &&& 0xF0 &&& 0xF0 = v &&& 0xF0 := by
  rw [BitVec.and_assoc, BitVec.and_self]

theorem high_nibble_of_field_set (v : Byte) : (v ||| 0x01) &&& 0xF0 = v &&& 0xF0 := by
  revert v; decide

/-- A delay writes `MODE` at `S2` and `S4` alone, there from the latch `T` and without touching the high nibble. -/
theorem DelayAccess.high_nibble {k : Nat} {s : State} {r : State × Seq} (ha : DelayAccess k s r)
    (ht : k = 2 ∨ k = 4 → s.fg.t = some (readByte .mode s)) :
    readByte .mode r.1 &&& 0xF0 = readByte .mode s &&& 0xF0 := by
  rw [ha.mode]
  split
  · next h2 => rw [latchT_eq (ht (.inl h2)), high_nibble_of_cleared]
  · split
    · next h4 => rw [latchT_eq (ht (.inr h4)), high_nibble_of_field_set]
    · rfl

/-- Settles O28: every micro-step of a delay writes only its command's cells, and `MODE` only from a latch `T` that
holds what `MODE` holds. -/
theorem delayFrame : Obligations.DelayFrame := by
  intro i s s' hi h
  have hd := isDelay_of_opcode hi
  obtain ⟨hprog, -⟩ := programOf_of_isDelay s.cfg hd
  refine ⟨execFrame_of_cellsKept i s s' (hprog ▸ cellsKept_delayProgram hd) h, fun ht => ?_⟩
  cases hb : s.fg.busy with
  | false => rw [readByte_congr (exec_idle_regs i s s' hb h)]
  | true =>
    rcases exec_delayAccess hd hb h with ⟨-, rfl⟩ | ⟨-, m, -, -, ha, rfl⟩
    · rfl
    · rw [readByte_advance]
      refine ha.high_nibble fun hk => ht ?_
      obtain ⟨n, rfl | rfl⟩ := isDelay_cases hd <;> simpa [writesModeNext] using hk

end Sys2Proof.Machine
end

section
/-! PROOF. A delay in progress in every run: what its own steps do, and what the other agents do to it while Timer 0 is
not in interrupt-tick use (42_delay.md R95, R99). -/

namespace Sys2Proof.Machine

open Sys2Proof

/-- A step that changes the state is enabled. -/
theorem enabled_of_ne (e : Event) (s s' : State) (h : runEvent e s = .next s') (hne : s' ≠ s) : enabled e s = true := by
  by_contra hoff
  rw [runEvent_of_not_enabled e s hoff] at h
  cases h
  exact hne rfl

/-! ## The handlers in service -/

/-- A handler's step leaves in service only handlers of timers that were. -/
theorem handlerStep_timers (f : Frame) (below : List Frame) (s : State) (hh : s.hs = f :: below) :
    ∀ g ∈ (handlerStep f s).hs, ∃ g' ∈ s.hs, g'.t = g.t := by
  have htail (g : Frame) (hg : g ∈ below) : ∃ g' ∈ s.hs, g'.t = g.t := ⟨g, by simp [hh, hg], rfl⟩
  have htop : ∃ g' ∈ s.hs, g'.t = f.t := ⟨f, by simp [hh], rfl⟩
  unfold handlerStep
  split
  all_goals
    simp only [handlerH1, handlerH2, handlerH3, handlerH4, setTop_hs, writeByte_hs, returnFromHandler_hs, setTick_hs,
      hh, List.tail_cons, List.forall_mem_cons, List.forall_mem_map, markRaced_t]
  · exact ⟨hh ▸ htop, hh ▸ htail⟩
  · exact ⟨hh ▸ htop, hh ▸ htail⟩
  · exact ⟨hh ▸ htop, hh ▸ htail⟩
  · exact hh ▸ htail

/-- A handler in service after a step was in service before it, or has just been entered. -/
theorem runEvent_timers (e : Event) (s s' : State) (h : runEvent e s = .next s') (g : Frame) (hg : g ∈ s'.hs) :
    (∃ f ∈ s.hs, f.t = g.t) ∨ dispatchEnabled g.t s = true := by
  have hsame (hhs : s'.hs = s.hs) : (∃ f ∈ s.hs, f.t = g.t) ∨ dispatchEnabled g.t s = true :=
    .inl ⟨g, hhs ▸ hg, rfl⟩
  rcases runEvent_cases e s s' h with ⟨-, rfl⟩ | ⟨-, -, -, w, rest, -, ⟨i, -, hx⟩ | ⟨-, rfl⟩⟩ | ⟨-, -, -, i, -, hx⟩ |
    ⟨t, -, -, hx⟩ | ⟨-, -, rfl⟩ | ⟨t, -, he, rfl⟩ | ⟨-, f, below, hf, rfl⟩ | ⟨-, rfl⟩
  · exact hsame rfl
  · obtain ⟨hhs, -⟩ := exec_rest i _ s' hx
    exact hsame hhs
  · exact hsame rfl
  · obtain ⟨hhs, -⟩ := exec_rest i s s' hx
    exact hsame hhs
  · obtain ⟨-, -, -, -, hhs, -⟩ := countStep_frame t s s' hx
    exact hsame hhs
  · obtain ⟨-, -, -, -, hrest⟩ := count8_spec (.ch .t0) .t1 s
    exact hsame (by rw [countHigh, hrest])
  · rw [takeInterrupt_hs, List.mem_cons] at hg
    rcases hg with rfl | hg
    · exact .inr he
    · exact .inl ⟨g, hg, rfl⟩
  · exact .inl (handlerStep_timers f below s hf g hg)
  · cases hg

/-- A timer whose line is masked, or with interrupts globally masked, is not dispatched. -/
theorem dispatchEnabled_of_masked (t : Timer) (s : State)
    (h : readBit (.ien t) s = false ∨ readBit .gie s = false) : dispatchEnabled t s = false := by
  refine Bool.eq_false_of_not_eq_true fun he => ?_
  obtain ⟨-, hien, hgie, -⟩ := (dispatchReady_iff t s).mp (dispatchReady_of_enabled t s he)
  rcases h with h | h
  · rw [hien] at h
    cases h
  · rw [hgie] at h
    cases h

/-! ## Timer 0 while no agent but the counting hardware touches it -/

/-- With Timer 0 masked, a hardware step that changes its flag is a count event of the running timer that raises it. -/
theorem runEvent_ovf_kept_or_raised (e : Event) (s s' : State) (h : runEvent e s = .next s') (he : e ≠ .reset)
    (hfg : e ≠ .fgStep) (hm : DelayPrecondition s) :
    readBit (.ovf .t0) s' = readBit (.ovf .t0) s ∨
    e = .count .t0 ∧ readBit (.run .t0) s = true ∧ readBit (.ovf .t0) s' = true := by
  refine Decidable.or_iff_not_imp_left.mpr fun hne => ?_
  have hchange := runEvent_mayChangeBit e s s' h he _ hne
  have hon := enabled_of_ne e s s' h fun hsame => hne (hsame ▸ rfl)
  cases e with
  | fgStep => exact absurd rfl hfg
  | count t =>
    obtain ⟨hb, hv⟩ := hchange
    cases hb
    exact ⟨rfl, hon, hv⟩
  | countHigh =>
    obtain ⟨hb, -⟩ := hchange
    cases hb
  | dispatch t =>
    obtain ⟨hb, -⟩ := hchange
    cases hb
    rw [show enabled (.dispatch .t0) s = false from dispatchEnabled_of_masked .t0 s hm] at hon
    cases hon
  | issue | hStep | reset => exact hchange.elim

/-- With Timer 0 in 16-bit mode and no handler of it in service, a hardware step that changes its count registers is a
count event of the running timer. -/
theorem runEvent_count_kept_or_counted (e : Event) (s s' : State) (h : runEvent e s = .next s') (he : e ≠ .reset)
    (hfg : e ≠ .fgStep) (hm : timerMode .t0 s = .bit16) (hs : ∀ f ∈ s.hs, f.t ≠ .t0) (c : ByteCell)
    (hc : c = .cl .t0 ∨ c = .ch .t0) :
    readByte c s' = readByte c s ∨ e = .count .t0 ∧ readBit (.run .t0) s = true := by
  refine Decidable.or_iff_not_imp_left.mpr fun hne => ?_
  have hon := enabled_of_ne e s s' h fun hsame => hne (hsame ▸ rfl)
  rcases (runEvent_mayChangeByte e s s' h he c hne).of_count hc with rfl | rfl | ⟨rfl, -⟩ | ⟨-, f, below, hf, ht⟩
  · exact absurd rfl hfg
  · exact ⟨rfl, hon⟩
  · simp [enabled, countHighEnabled, hm] at hon
  · exact absurd ht (hs f (by simp [hf]))

/-- A count event of a running timer in 16-bit mode. -/
theorem runEvent_count_bit16 (t : Timer) (s : State) (hrun : readBit (.run t) s = true)
    (hm : timerMode t s = .bit16) : runEvent (.count t) s = .next (count16 t s) := by
  rw [runEvent_enabled (.count t) s hrun]
  simp only [effect, countStep, hm]

/-! ## A delay in progress -/

/-- What `MODE` and the latch `T` hold of Timer 0's nibble, by the label of the delay: cleared by `S2`, 16-bit mode with
selector Timer from `S5` on. -/
structure DelayMode (s : State) : Prop where
  cleared    : s.fg.upc = 3 → readByte .mode s &&& 0x0F = 0
  latched    : s.fg.upc = 4 → ∃ v, s.fg.t = some v ∧ v &&& 0x0F = 0
  configured : 5 ≤ s.fg.upc → readByte .mode s &&& 0x0F = 0x01

/-- The iterations left, the present one counted. -/
def delayRounds (s : State) : Nat := (s.fg.loop.getD 0).toNat

theorem delayRounds_congr {s s' : State} (h : s'.fg = s.fg) : delayRounds s' = delayRounds s := by
  rw [delayRounds, h, delayRounds]

theorem delayRounds_eq {s : State} {k : Half} (h : s.fg.loop = some k) : delayRounds s = k.toNat := by
  rw [delayRounds, h, Option.getD_some]

/-- The delay `i` with reload value `r` is in progress, with iterations left, and Timer 0 is not in interrupt-tick
use. -/
structure DelayInProgress (i : Instr) (r : Half) (s : State) : Prop where
  isDelay  : isDelay i = true
  steps    : hasSteps i = true
  busy     : s.fg.busy = true
  instr    : s.fg.instr = some i
  reload   : s.fg.r = some r
  loop     : s.fg.loop.isSome = true
  rounds   : 0 < delayRounds s
  label    : 1 ≤ s.fg.upc ∧ s.fg.upc ≤ 10
  mode     : DelayMode s
  masked   : DelayPrecondition s
  unserved : ∀ f ∈ s.hs, f.t ≠ .t0

/-- The delay polls a flag that is clear: `S8` repeats until a count event of Timer 0 raises it. -/
def awaitsFlag (s : State) : Bool := s.fg.upc == 8 && !readBit (.ovf .t0) s

/-- How many count events of Timer 0 the poll still waits for. -/
def countsToFlag (s : State) : Nat := if awaitsFlag s then 65536 - (countOf .t0 s).toNat else 0

/-- Where a step of a delay that does not complete goes on: the poll of a clear flag stays at `S8`, `S10` goes round to
`S5` with one iteration less, every other step goes to the next label (42_delay.md R95). -/
def DelayGoes (s s' : State) : Prop :=
  awaitsFlag s = true ∧ s'.fg.upc = 8 ∧ delayRounds s' = delayRounds s ∨
  s.fg.upc = 10 ∧ s'.fg.upc = 5 ∧ delayRounds s' + 1 = delayRounds s ∧ 0 < delayRounds s' ∨
  awaitsFlag s = false ∧ s.fg.upc ≠ 10 ∧ s'.fg.upc = s.fg.upc + 1 ∧ delayRounds s' = delayRounds s

theorem timer0_of_low_nibble (v : Byte) (h : v &&& 0x0F = 0x01) : modeIn .t0 v = .bit16 ∧ ctIn .t0 v = .timer := by
  revert v; decide

theorem low_nibble_of_cleared (v : Byte) : v &&& 0xF0 &&& 0x0F = 0 := by
  revert v; decide

theorem low_nibble_of_field_set (v : Byte) (h : v &&& 0x0F = 0) : (v ||| 0x01) &&& 0x0F = 0x01 := by
  revert v; decide

section Sequencer

variable {i : Instr} {r : Half} {s s' : State}

/-- A delay at `S1` with a count that is not 0 is in progress. -/
theorem delayInProgress_of_first {k : Half} (hd : isDelay i = true) (hsteps : hasSteps i = true)
    (hb : s.fg.busy = true) (hi : s.fg.instr = some i) (h1 : s.fg.upc = 1) (hr : s.fg.r = some r)
    (hl : s.fg.loop = some k) (hk : k ≠ 0) (hm : DelayPrecondition s) (hhs : ∀ f ∈ s.hs, f.t ≠ .t0) :
    DelayInProgress i r s where
  isDelay := hd
  steps := hsteps
  busy := hb
  instr := hi
  reload := hr
  loop := by rw [hl, Option.isSome_some]
  rounds := by
    rw [delayRounds_eq hl]
    bv_omega
  label := by omega
  mode := ⟨by omega, by omega, by omega⟩
  masked := hm
  unserved := hhs

/-- `MODE` and `T` after a step that goes on at `j`. -/
theorem DelayMode.of_access {q : State × Seq} {j : Nat} (hs : DelayMode s) (ha : DelayAccess s.fg.upc s q)
    (h1 : 1 ≤ s.fg.upc) (hj : j = s.fg.upc + 1 ∨ 8 ≤ s.fg.upc ∧ 5 ≤ j) : DelayMode (atLabel j q.1) := by
  have hmode : readByte .mode (atLabel j q.1) = _ := ha.mode
  have ht : (atLabel j q.1).fg.t = _ := ha.t
  refine ⟨fun (h3 : j = 3) => ?_, fun (h4 : j = 4) => ?_, fun (h5 : 5 ≤ j) => ?_⟩
  · have hk : s.fg.upc = 2 := by omega
    rw [hmode, if_pos hk]
    exact low_nibble_of_cleared _
  · have hk : s.fg.upc = 3 := by omega
    exact ⟨_, ht.trans (if_pos (.inr hk)), hs.cleared hk⟩
  · rw [hmode, if_neg (by omega)]
    split
    · next hk =>
      obtain ⟨v, hv, hlow⟩ := hs.latched hk
      rw [latchT_eq hv]
      exact low_nibble_of_field_set v hlow
    · exact hs.configured (by omega)

theorem awaitsFlag_iff : awaitsFlag s = true ↔ s.fg.upc = 8 ∧ readBit (.ovf .t0) s = false := by
  simp [awaitsFlag]

/-- `S10` answers 0 in the last iteration, and goes round again in every other. -/
theorem DelayAccess.answers_or_again {q : State × Seq} (ha : DelayAccess s.fg.upc s q) (h10 : s.fg.upc = 10)
    (hl : s.fg.loop.isSome = true) (hk : 0 < delayRounds s) :
    delayRounds s = 1 ∧ advance q = complete 0 q.1 ∨ advance q = atLabel 5 q.1 ∧ DelayGoes s (atLabel 5 q.1) := by
  obtain ⟨k, hl⟩ := Option.isSome_iff_exists.mp hl
  obtain ⟨u, m⟩ := q
  have hloop : (atLabel 5 u).fg.loop = some (k - 1) := by rw [← latchLoop_eq hl]; exact ha.loop.trans (if_pos h10)
  have hseq : m = if k - 1 = 0 then .done 0 else .goto 5 := by rw [← latchLoop_eq hl]; simpa [h10] using ha.seq
  rw [delayRounds_eq hl] at hk
  by_cases hone : k - 1 = 0
  · rw [if_pos hone] at hseq
    exact .inl ⟨by rw [delayRounds_eq hl, sub_eq_zero.mp hone]; rfl, by rw [hseq]; rfl⟩
  · rw [if_neg hone] at hseq
    refine .inr ⟨by rw [hseq]; rfl, .inr (.inl ⟨h10, rfl, ?_⟩)⟩
    rw [delayRounds_eq hl, delayRounds_eq hloop]
    bv_omega

/-- Every other step goes on: `S8` stays while the flag is clear. -/
theorem DelayAccess.goes_on {q : State × Seq} (ha : DelayAccess s.fg.upc s q) (hupc : q.1.fg.upc = s.fg.upc)
    (h10 : s.fg.upc ≠ 10) : ∃ j, advance q = atLabel j q.1 ∧ DelayGoes s (atLabel j q.1) := by
  obtain ⟨u, m⟩ := q
  have hrounds (j : Nat) : delayRounds (atLabel j u) = delayRounds s :=
    congrArg (fun l => (Option.getD l 0).toNat) (ha.loop.trans (if_neg h10))
  have hseq : m = if awaitsFlag s = true then .goto 8 else .next := by
    rw [show m = _ from ha.seq, if_neg h10]
    cases ho : readBit (.ovf .t0) s <;> simp [awaitsFlag, ho]
  cases hw : awaitsFlag s with
  | true =>
    rw [if_pos hw] at hseq
    exact ⟨8, by rw [hseq]; rfl, .inl ⟨hw, rfl, hrounds 8⟩⟩
  | false =>
    rw [hw, if_neg Bool.false_ne_true] at hseq
    exact ⟨u.fg.upc + 1, by rw [hseq]; rfl, .inr (.inr ⟨hw, h10, congrArg (· + 1) hupc, hrounds _⟩)⟩

theorem countsToFlag_of_label (h : s.fg.upc ≠ 8) : countsToFlag s = 0 := by
  rw [countsToFlag, if_neg fun hw => h (awaitsFlag_iff.mp hw).1]

/-- A poll of a clear flag changes nothing that the poll waits for. -/
theorem DelayAccess.poll_kept {q : State × Seq} (ha : DelayAccess s.fg.upc s q) (hw : awaitsFlag s = true)
    (h8 : (advance q).fg.upc = 8) :
    awaitsFlag (advance q) = true ∧ countsToFlag (advance q) = countsToFlag s := by
  obtain ⟨hk, ho⟩ := awaitsFlag_iff.mp hw
  have hovf : readBit (.ovf .t0) (advance q) = readBit (.ovf .t0) s := by
    rw [readBit_advance, ha.ovf, if_neg (by omega)]
  have hlow : readByte (.cl .t0) (advance q) = readByte (.cl .t0) s := by
    rw [readByte_advance, ha.low, if_neg (by omega)]
  have hhigh : readByte (.ch .t0) (advance q) = readByte (.ch .t0) s := by
    rw [readByte_advance, ha.high, if_neg (by omega)]
  have hw' := awaitsFlag_iff.mpr ⟨h8, hovf.trans ho⟩
  exact ⟨hw', by rw [countsToFlag, countsToFlag, hw, hw', countOf_congr hlow hhigh]⟩

/-- A delay's step changes no interrupt enable and no handler in service. -/
theorem exec_delay_masks (hd : isDelay i = true) (h : exec i s = .next s') :
    (∀ b, b ≠ .run .t0 → b ≠ .ovf .t0 → readBit b s' = readBit b s) ∧ s'.hs = s.hs := by
  have hop : i.opcode = .delayus ∨ i.opcode = .delayms := by
    obtain ⟨n, rfl | rfl⟩ := isDelay_cases hd
    · exact .inl rfl
    · exact .inr rfl
  obtain ⟨⟨-, hbits, hhs, -⟩, -⟩ := delayFrame i s s' hop h
  obtain ⟨-, hmay⟩ := mayWrite_of_isDelay hd
  exact ⟨fun b hrun hovf => hbits b ((hmay b).not.mpr (not_or.mpr ⟨hrun, hovf⟩)), hhs⟩

theorem DelayGoes.label (h : DelayGoes s s') :
    s.fg.upc = 8 ∧ s'.fg.upc = 8 ∨ s.fg.upc = 10 ∧ s'.fg.upc = 5 ∨ s.fg.upc ≠ 10 ∧ s'.fg.upc = s.fg.upc + 1 := by
  rcases h with ⟨hw, h8, -⟩ | ⟨h10, h5, -⟩ | ⟨-, h10, hnext, -⟩
  · exact .inl ⟨(awaitsFlag_iff.mp hw).1, h8⟩
  · exact .inr (.inl ⟨h10, h5⟩)
  · exact .inr (.inr ⟨h10, hnext⟩)

theorem DelayGoes.rounds_pos (h : DelayGoes s s') (hs : 0 < delayRounds s) : 0 < delayRounds s' := by
  rcases h with ⟨-, -, hr⟩ | ⟨-, -, -, hr⟩ | ⟨-, -, -, hr⟩
  · exact hr ▸ hs
  · exact hr
  · exact hr ▸ hs

/-- A step of a delay leaves Timer 0 out of interrupt-tick use. -/
theorem undisturbed_of_exec (hd : isDelay i = true) (hm : DelayPrecondition s) (hs : ∀ f ∈ s.hs, f.t ≠ .t0)
    (h : exec i s = .next s') : DelayPrecondition s' ∧ ∀ f ∈ s'.hs, f.t ≠ .t0 := by
  obtain ⟨hbits, hhs⟩ := exec_delay_masks hd h
  refine ⟨?_, hhs ▸ hs⟩
  rwa [DelayPrecondition, hbits (.ien .t0) nofun nofun, hbits .gie nofun nofun]

/-- A step of a delay in progress: the answer 0, or the delay goes on. -/
theorem DelayInProgress.of_exec (hs : DelayInProgress i r s) (h : exec i s = .next s') :
    ∃ q, s' = advance q ∧ DelayAccess s.fg.upc s q ∧
      (s.fg.upc = 10 ∧ delayRounds s = 1 ∧ s'.fg.busy = false ∧ s'.responses = 0 :: s.responses ∨
        DelayInProgress i r s' ∧ s'.responses = s.responses ∧ DelayGoes s s') := by
  rcases exec_delayAccess hs.isDelay hs.busy h with ⟨hno, -⟩ | ⟨-, m, hm, hacc, ha, hadv⟩
  · rw [hs.steps] at hno
    cases hno
  obtain ⟨hresp, hbusy, -⟩ := micro_answers i s m hs.steps hm
  have hkept := hacc.latchesKept s
  refine ⟨m s, hadv, ha, ?_⟩
  have hmove : s.fg.upc = 10 ∧ delayRounds s = 1 ∧ advance (m s) = complete 0 (m s).1 ∨
      ∃ j, advance (m s) = atLabel j (m s).1 ∧ DelayGoes s (atLabel j (m s).1) := by
    by_cases h10 : s.fg.upc = 10
    · exact (ha.answers_or_again h10 hs.loop hs.rounds).imp (⟨h10, ·⟩) fun hagain => ⟨5, hagain⟩
    · exact .inr (ha.goes_on hkept.upc h10)
  rcases hmove with ⟨h10, hone, hdone⟩ | ⟨j, hto, hgoes⟩
  · rw [hadv, hdone]
    exact .inl ⟨h10, hone, rfl, congrArg (0 :: ·) hresp⟩
  · have hj : s.fg.upc = 8 ∧ j = 8 ∨ s.fg.upc = 10 ∧ j = 5 ∨ s.fg.upc ≠ 10 ∧ j = s.fg.upc + 1 := hgoes.label
    obtain ⟨hlow, hhigh⟩ := hs.label
    obtain ⟨hmasked, hunserved⟩ := undisturbed_of_exec hs.isDelay hs.masked hs.unserved h
    rw [hadv, hto] at hmasked hunserved ⊢
    refine .inr ⟨?_, hresp, hgoes⟩
    exact {
      isDelay := hs.isDelay
      steps := hs.steps
      busy := hbusy.trans hs.busy
      instr := hkept.instr.trans hs.instr
      reload := hkept.r.trans hs.reload
      loop := hkept.loop hs.loop
      rounds := hgoes.rounds_pos hs.rounds
      label := ⟨show 1 ≤ j by omega, show j ≤ 10 by omega⟩
      mode := hs.mode.of_access ha hlow (by omega)
      masked := hmasked
      unserved := hunserved }

end Sequencer

/-! ## The other agents while a delay is in progress -/

section Hardware

variable {i : Instr} {r : Half} {s s' : State} {e : Event}

/-- A step while a delay is in progress: its own next step, a foreground step that a handler holds back, or a step of
the hardware. -/
theorem DelayInProgress.runEvent_cases (hs : DelayInProgress i r s) (he : e ≠ .reset) (h : runEvent e s = .next s') :
    e = .fgStep ∧ (s' = s ∨ exec i s = .next s') ∨ e ≠ .fgStep ∧ HardwareFrame s s' := by
  by_cases hfg : e = .fgStep
  · subst hfg
    exact .inl ⟨rfl, runEvent_fgStep_cases i s s' hs.busy hs.instr h⟩
  · rcases runEvent_agent e s s' h with hf | ⟨-, hidle, -⟩ | ⟨hno, -⟩ | ⟨hr, -⟩
    · exact .inr ⟨hfg, hf⟩
    · rw [hs.busy] at hidle
      cases hidle
    · exact absurd hno hfg
    · exact absurd hr he

/-- The hardware moves neither the foreground nor `MODE` nor the masks, and enters no handler of a masked timer. -/
theorem DelayInProgress.of_hardware (hs : DelayInProgress i r s) (h : runEvent e s = .next s')
    (hf : HardwareFrame s s') : DelayInProgress i r s' := by
  have hmode : readByte .mode s' = readByte .mode s := hf.bytes .mode nofun nofun nofun
  have hien : readBit (.ien .t0) s' = readBit (.ien .t0) s := hf.bits _ nofun
  have hgie : readBit .gie s' = readBit .gie s := hf.bits _ nofun
  refine ⟨hs.isDelay, hs.steps, hf.fg ▸ hs.busy, hf.fg ▸ hs.instr, hf.fg ▸ hs.reload, hf.fg ▸ hs.loop,
    delayRounds_congr hf.fg ▸ hs.rounds, hf.fg ▸ hs.label, ?_, ?_, fun g hg ht => ?_⟩
  · exact ⟨hmode ▸ hf.fg ▸ hs.mode.cleared, hf.fg ▸ hs.mode.latched, hmode ▸ hf.fg ▸ hs.mode.configured⟩
  · rw [DelayPrecondition, hien, hgie]
    exact hs.masked
  · rcases runEvent_timers e s s' h g hg with ⟨f, hmem, hft⟩ | hd
    · exact hs.unserved f hmem (hft.trans ht)
    · rw [ht, dispatchEnabled_of_masked .t0 s hs.masked] at hd
      cases hd

/-- From `S5` on Timer 0 is in 16-bit mode with selector Timer. -/
theorem DelayInProgress.timer0 (hs : DelayInProgress i r s) (hk : 5 ≤ s.fg.upc) :
    timerMode .t0 s = .bit16 ∧ timerCt .t0 s = .timer :=
  timer0_of_low_nibble _ (hs.mode.configured hk)

/-- A count event of Timer 0 brings the poll one closer to the flag. -/
theorem countsToFlag_count16 (hw : awaitsFlag s = true) : countsToFlag s = countsToFlag (count16 .t0 s) + 1 := by
  obtain ⟨h8, ho⟩ := awaitsFlag_iff.mp hw
  obtain ⟨hcount, hovf, -, -, hrest⟩ := count16_spec .t0 s
  have hfg : (count16 .t0 s).fg.upc = 8 := by rw [hrest]; exact h8
  have hw' : awaitsFlag (count16 .t0 s) = !(countOf .t0 s == 0xFFFF) := by
    rw [awaitsFlag, hovf, ho, hfg, Bool.false_or]
    rfl
  rw [countsToFlag, if_pos hw, countsToFlag, hw', hcount]
  cases hmax : countOf .t0 s == 0xFFFF with
  | true =>
    rw [eq_of_beq hmax]
    rfl
  | false =>
    have hne : countOf .t0 s ≠ 0xFFFF := by simpa using hmax
    simp only [Bool.not_false, if_true]
    bv_omega

/-- What a step of the hardware does to the poll: nothing, or it is a count event of Timer 0 and brings it closer to the
flag. -/
theorem DelayInProgress.poll_of_hardware (hs : DelayInProgress i r s) (he : e ≠ .reset) (hfg : e ≠ .fgStep)
    (h : runEvent e s = .next s') (hf : HardwareFrame s s') :
    awaitsFlag s' = awaitsFlag s ∧ countsToFlag s' = countsToFlag s ∧
      (e = .count .t0 → readBit (.run .t0) s = true → awaitsFlag s = false) ∨
    e = .count .t0 ∧ readBit (.run .t0) s = true ∧ countsToFlag s = countsToFlag s' + 1 := by
  have hovf := runEvent_ovf_kept_or_raised e s s' h he hfg hs.masked
  cases hw : awaitsFlag s with
  | true =>
    obtain ⟨h8, -⟩ := awaitsFlag_iff.mp hw
    obtain ⟨hmode, -⟩ := hs.timer0 (by omega)
    by_cases hc : e = .count .t0 ∧ readBit (.run .t0) s = true
    · obtain ⟨rfl, hrun⟩ := hc
      rw [runEvent_count_bit16 .t0 s hrun hmode] at h
      cases h
      exact .inr ⟨rfl, hrun, countsToFlag_count16 hw⟩
    · have hflag := hovf.resolve_right fun ⟨h1, h2, _⟩ => hc ⟨h1, h2⟩
      have hbyte (c : ByteCell) (hcell : c = .cl .t0 ∨ c = .ch .t0) :=
        (runEvent_count_kept_or_counted e s s' h he hfg hmode hs.unserved c hcell).resolve_right hc
      have hw' : awaitsFlag s' = true := by rwa [awaitsFlag, hf.fg, hflag]
      refine .inl ⟨hw', ?_, fun h1 h2 => absurd ⟨h1, h2⟩ hc⟩
      rw [countsToFlag, countsToFlag, hw, hw', countOf_congr (hbyte _ (.inl rfl)) (hbyte _ (.inr rfl))]
  | false =>
    have hw' : awaitsFlag s' = false := by
      rcases hovf with hflag | ⟨-, -, hraised⟩
      · rwa [awaitsFlag, hf.fg, hflag]
      · rw [awaitsFlag, hraised, Bool.not_true, Bool.and_false]
    refine .inl ⟨hw', ?_, fun _ _ => rfl⟩
    rw [countsToFlag, countsToFlag, hw, hw']
    rfl

end Hardware

end Sys2Proof.Machine
end

section
/-! PROOF. The lower bound of a delay: what it still owes in count events of Timer 0 goes down by those events alone
(42_delay.md R97, R99). -/

namespace Sys2Proof.Machine

open Sys2Proof

/-- A delay in progress whose Timer 0 counts from the reload value: stopped and with its flag clear until `S7` starts
it, and stopped again by `S9` (42_delay.md R95, R99). -/
structure DelayTimed (i : Instr) (r : Half) (s : State) : Prop extends DelayInProgress i r s where
  stopped : s.fg.upc ≤ 7 ∨ s.fg.upc = 10 → readBit (.run .t0) s = false
  clear   : s.fg.upc ≤ 7 → readBit (.ovf .t0) s = false
  low     : s.fg.upc = 6 ∨ s.fg.upc = 7 → readByte (.cl .t0) s = loByte r
  high    : s.fg.upc = 7 → readByte (.ch .t0) s = hiByte r

/-- How many count events of Timer 0 a delay with reload value `r` still waits for: those of the iterations it has not
begun to count, and those to the flag it polls. -/
def countsOwed (r : Half) (s : State) : Nat :=
  (if s.fg.upc ≤ 7 then delayRounds s else delayRounds s - 1) * (65536 - r.toNat) + countsToFlag s

section LowerBound

variable {i : Instr} {r : Half} {s s' : State} {e : Event}

/-- A step that goes on leaves as many count events to wait for: `S7` exchanges an iteration for the counts to its
flag. -/
theorem countsOwed_of_goes {q : State × Seq} (hs : DelayTimed i r s) (ha : DelayAccess s.fg.upc s q)
    (hgoes : DelayGoes s (advance q)) : countsOwed r (advance q) = countsOwed r s := by
  have hpos := hs.rounds
  rcases hgoes with ⟨hw, h8, hr⟩ | ⟨h10, h5, hr, -⟩ | ⟨hw, h10, hnext, hr⟩
  · obtain ⟨hk, -⟩ := awaitsFlag_iff.mp hw
    obtain ⟨-, hflag⟩ := ha.poll_kept hw h8
    rw [countsOwed, countsOwed, hflag, hr, h8, hk]
  · have hflag : countsToFlag s = 0 := countsToFlag_of_label (by omega)
    have hflag' : countsToFlag (advance q) = 0 := countsToFlag_of_label (by omega)
    simp only [countsOwed, hflag, hflag', h10, h5, ← hr]
    rfl
  · by_cases h7 : s.fg.upc = 7
    · have hclear : readBit (.ovf .t0) (advance q) = false := by
        rw [readBit_advance, ha.ovf, if_neg (by omega)]
        exact hs.clear h7.le
      have hcount : countOf .t0 (advance q) = r := by
        rw [countOf, readByte_advance, readByte_advance, ha.low, ha.high, if_neg (by omega), if_neg (by omega),
          hs.low (.inr h7), hs.high h7, joinHalf_hi_lo]
      have hflag' : countsToFlag (advance q) = 65536 - r.toNat := by
        rw [countsToFlag, if_pos (awaitsFlag_iff.mpr ⟨by omega, hclear⟩), hcount]
      have hflag : countsToFlag s = 0 := countsToFlag_of_label (by omega)
      rw [countsOwed, countsOwed, hflag, hflag', if_neg (by omega), if_pos h7.le, hr, ← Nat.succ_mul]
      congr 1
      omega
    · have hflag : countsToFlag s = 0 := by rw [countsToFlag, if_neg (by simp [hw])]
      have hflag' : countsToFlag (advance q) = 0 := countsToFlag_of_label (by omega)
      have hbegun : (advance q).fg.upc ≤ 7 ↔ s.fg.upc ≤ 7 := by omega
      simp only [countsOwed, hflag, hflag', hbegun, hr]

/-- A step of the delay answers with nothing owed, or leaves as much owed. -/
theorem DelayTimed.of_exec (hs : DelayTimed i r s) (h : exec i s = .next s') :
    s'.responses ≠ s.responses ∧ countsOwed r s = 0 ∨
    DelayTimed i r s' ∧ s'.responses = s.responses ∧ countsOwed r s' = countsOwed r s := by
  obtain ⟨q, rfl, ha, hmove⟩ := hs.toDelayInProgress.of_exec h
  rcases hmove with ⟨h10, hone, -, hresp⟩ | ⟨hp, hresp, hgoes⟩
  · refine .inl ⟨by rw [hresp]; exact List.cons_ne_self _ _, ?_⟩
    rw [countsOwed, countsToFlag_of_label (by omega), if_neg (by omega), hone]
    simp
  · have hto := hgoes.label
    refine .inr ⟨⟨hp, fun hk => ?_, fun hk => ?_, fun hk => ?_, fun hk => ?_⟩, hresp, countsOwed_of_goes hs ha hgoes⟩
    · rw [readBit_advance, ha.run, if_neg (by omega)]
      split
      · rfl
      · exact hs.stopped (by omega)
    · rw [readBit_advance, ha.ovf]
      split
      · rfl
      · exact hs.clear (by omega)
    · rw [readByte_advance, ha.low, latchR_eq hs.reload]
      split
      · rfl
      · exact hs.low (by omega)
    · rw [readByte_advance, ha.high, latchR_eq hs.reload]
      exact if_pos (by omega)

/-- A step of the hardware lowers what is owed by one at most, and only if it is a count event of Timer 0. -/
theorem DelayTimed.of_hardware (hs : DelayTimed i r s) (he : e ≠ .reset) (hfg : e ≠ .fgStep)
    (h : runEvent e s = .next s') (hf : HardwareFrame s s') :
    DelayTimed i r s' ∧ countsOwed r s ≤ (if e == .count .t0 && enabled e s then 1 else 0) + countsOwed r s' := by
  have hrun : readBit (.run .t0) s' = readBit (.run .t0) s := hf.bits _ nofun
  have hk : s'.fg.upc = s.fg.upc := congrArg Fg.upc hf.fg
  have hrounds : delayRounds s' = delayRounds s := delayRounds_congr hf.fg
  have hoff (hk : s.fg.upc ≤ 7) : ¬ readBit (.run .t0) s = true := by simp [hs.stopped (.inl hk)]
  have hbyte (hk : s.fg.upc = 6 ∨ s.fg.upc = 7) (c : ByteCell) (hc : c = .cl .t0 ∨ c = .ch .t0) :
      readByte c s' = readByte c s := by
    obtain ⟨hmode, -⟩ := hs.timer0 (by omega)
    refine (runEvent_count_kept_or_counted e s s' h he hfg hmode hs.unserved c hc).resolve_right ?_
    exact fun hc => hoff (by omega) hc.2
  refine ⟨⟨hs.toDelayInProgress.of_hardware h hf, ?_, fun hle => ?_, fun hle => ?_, fun hle => ?_⟩, ?_⟩
  · rw [hrun, hk]
    exact hs.stopped
  · rw [hk] at hle
    rcases runEvent_ovf_kept_or_raised e s s' h he hfg hs.masked with hflag | ⟨-, hon, -⟩
    · exact hflag.trans (hs.clear hle)
    · exact absurd hon (hoff hle)
  · rw [hk] at hle
    exact (hbyte hle _ (.inl rfl)).trans (hs.low hle)
  · rw [hk] at hle
    exact (hbyte (.inr hle) _ (.inr rfl)).trans (hs.high hle)
  · rw [countsOwed, countsOwed, hk, hrounds]
    rcases hs.toDelayInProgress.poll_of_hardware he hfg h hf with ⟨-, hflag, -⟩ | ⟨rfl, hon, hflag⟩
    · omega
    · have hcounted : (if Event.count .t0 == .count .t0 && enabled (.count .t0) s then 1 else 0) = 1 := if_pos hon
      omega

/-- In a run from a delay in progress to an answer, at least the count events owed are taken. -/
theorem DelayTimed.countsOwed_le (es : List Event) (hs : DelayTimed i r s) (hes : ∀ e ∈ es, e ≠ .reset)
    (hrun : runOn es s = .next s') (hresp : s'.responses ≠ s.responses) :
    countsOwed r s ≤ countTaken (fun e => e == .count .t0) es s := by
  induction es generalizing s with
  | nil =>
    cases hrun
    exact absurd rfl hresp
  | cons e es ih =>
    obtain ⟨u, hu, hrest⟩ := runOn_cons e es s s' hrun
    obtain ⟨he, hes⟩ := List.forall_mem_cons.mp hes
    simp only [countTaken, hu]
    rcases hs.runEvent_cases he hu with ⟨-, rfl | hx⟩ | ⟨hfg, hf⟩
    · exact (ih hs hes hrest hresp).trans (Nat.le_add_left _ _)
    · rcases hs.of_exec hx with ⟨-, howed⟩ | ⟨hs', hsame, howed⟩
      · rw [howed]
        exact Nat.zero_le _
      · rw [← howed]
        exact (ih hs' hes hrest (hsame ▸ hresp)).trans (Nat.le_add_left _ _)
    · obtain ⟨hs', howed⟩ := hs.of_hardware he hfg hu hf
      exact howed.trans (Nat.add_le_add_left (ih hs' hes hrest (hf.responses ▸ hresp)) _)

end LowerBound

/-- Settles O38: at `S1` a delay owes the counts of all its iterations, and a step that is no count event of Timer 0
leaves as many. -/
theorem delayLastsAtLeastItsCounts : Obligations.DelayLastsAtLeastItsCounts := by
  intro i u n es s s' hi hn hb hinstr hk hr hl hm hserved hovf hoff hes hrun hresp
  have hdelay : isDelay i = true ∧ hasSteps i = true := by
    rcases hi with ⟨rfl, -⟩ | ⟨rfl, -⟩ <;> exact ⟨rfl, bne_iff_ne.mpr hn⟩
  obtain ⟨hd, hs⟩ := hdelay
  have hstart : DelayTimed i (reload s.cfg u) s := {
    delayInProgress_of_first hd hs hb hinstr hk hr hl hn hm hserved with
    stopped := fun _ => hoff
    clear := fun _ => hovf
    low := by omega
    high := by omega }
  have hle := hstart.countsOwed_le es hes hrun hresp
  rwa [countsOwed, countsToFlag_of_label (by omega), if_pos (by omega), delayRounds_eq hl] at hle

end Sys2Proof.Machine
end

section
/-! PROOF. A delay completes in every fair run in which no timer interrupt can be dispatched: at each of its states one
step, the poll's count event or the foreground's own step, brings it nearer to its end (42_delay.md R98, R99). -/

namespace Sys2Proof.Machine

open Sys2Proof

/-! ## Runs in which one fair step always helps -/

section Helpful

variable {σ : Nat → State} {ε : Nat → Event} {A D : State → Prop} {rank : State → Nat} {helpful : State → Event}

/-- The rule of the helpful step: from a state of `A` every step leads to `D`, or stays in `A` and lowers the rank, or
keeps the rank and the helpful step, and is not that step; and the helpful step is taken if it stays the same for good.
Then the run comes to `D`. -/
theorem eventually_of_helpful
    (hstep : ∀ n, A (σ n) → D (σ (n + 1)) ∨ A (σ (n + 1)) ∧
      (rank (σ (n + 1)) < rank (σ n) ∨
        rank (σ (n + 1)) = rank (σ n) ∧ helpful (σ (n + 1)) = helpful (σ n) ∧ ε n ≠ helpful (σ n)))
    (hfair : ∀ n, (∀ m, n ≤ m → A (σ m) ∧ helpful (σ m) = helpful (σ n)) → ∃ m, n ≤ m ∧ ε m = helpful (σ n))
    (n : Nat) (hn : A (σ n)) : ∃ m, D (σ m) := by
  induction hr : rank (σ n) using Nat.strong_induction_on generalizing n with
  | h d ih =>
    subst hr
    by_contra! hno
    have hkeep (m : Nat) (hA : A (σ m)) (hm : rank (σ m) = rank (σ n)) : A (σ (m + 1)) ∧
        rank (σ (m + 1)) = rank (σ m) ∧ helpful (σ (m + 1)) = helpful (σ m) ∧ ε m ≠ helpful (σ m) := by
      obtain ⟨hA', hlt | hsame⟩ := (hstep m hA).resolve_left (hno _)
      · obtain ⟨j, hj⟩ := ih _ (hm ▸ hlt) (m + 1) hA' rfl
        exact absurd hj (hno j)
      · exact ⟨hA', hsame⟩
    have hstay (m : Nat) (hm : n ≤ m) :
        A (σ m) ∧ rank (σ m) = rank (σ n) ∧ helpful (σ m) = helpful (σ n) := by
      induction m, hm using Nat.le_induction with
      | base => exact ⟨hn, rfl, rfl⟩
      | succ m _ ihm =>
        obtain ⟨hA, hrank, hhelp⟩ := ihm
        obtain ⟨hA', hrank', hhelp', -⟩ := hkeep m hA hrank
        exact ⟨hA', hrank'.trans hrank, hhelp'.trans hhelp⟩
    obtain ⟨m, hm, he⟩ := hfair n fun m hm => ⟨(hstay m hm).1, (hstay m hm).2.2⟩
    obtain ⟨hA, hrank, hhelp⟩ := hstay m hm
    obtain ⟨-, -, -, hne⟩ := hkeep m hA hrank
    exact hne (he.trans hhelp.symm)

end Helpful

/-! ## The delay's rank and helpful step -/

/-- The step that brings a delay nearer to its end: Timer 0's count event at the poll of a clear flag, else its own. -/
def delayHelpful (s : State) : Event := if awaitsFlag s then .count .t0 else .fgStep

/-- How far a delay is from its end: by the iterations left, the labels left of this one, and the counts to the flag. -/
def delayRank (s : State) : Nat := (delayRounds s * 10 + (10 - s.fg.upc)) * 65537 + countsToFlag s

/-- A delay in progress beside which no handler can be entered, with Timer 0 running at its poll and the answers `rs`
given so far. -/
structure DelayUnattended (i : Instr) (r : Half) (rs : List Word) (s : State) : Prop extends DelayInProgress i r s where
  off       : InterruptsOff s
  noHandler : s.hs = []
  running   : s.fg.upc = 8 → readBit (.run .t0) s = true
  responses : s.responses = rs

/-- The delay has been answered with 0. -/
def DelayAnswered (rs : List Word) (s : State) : Prop := s.fg.busy = false ∧ s.responses = 0 :: rs

/-- A step brings the delay nearer to its end, or it is not the helpful step and leaves it as near. -/
def DelayProgress (e : Event) (s s' : State) : Prop :=
  delayRank s' < delayRank s ∨
  delayRank s' = delayRank s ∧ delayHelpful s' = delayHelpful s ∧ e ≠ delayHelpful s

section Progress

variable {i : Instr} {r : Half} {rs : List Word} {s s' : State} {e : Event}

theorem countsToFlag_le (s : State) : countsToFlag s ≤ 65536 := by
  rw [countsToFlag]
  split <;> omega

/-- A step of the delay that goes on lowers the rank, but for the poll of a clear flag. -/
theorem delayProgress_of_goes {q : State × Seq} (hs : DelayInProgress i r s) (ha : DelayAccess s.fg.upc s q)
    (hgoes : DelayGoes s (advance q)) : DelayProgress .fgStep s (advance q) := by
  have hcounts := countsToFlag_le (advance q)
  have hlabel := hs.label
  rcases hgoes with ⟨hw, h8, hr⟩ | ⟨h10, h5, hr, -⟩ | ⟨-, h10, hnext, hr⟩
  · obtain ⟨hk, -⟩ := awaitsFlag_iff.mp hw
    obtain ⟨hw', hflag⟩ := ha.poll_kept hw h8
    exact .inr ⟨by rw [delayRank, delayRank, hflag, hr, h8, hk], by rw [delayHelpful, delayHelpful, hw, hw'], by
      rw [delayHelpful, if_pos hw]
      nofun⟩
  · left
    rw [delayRank, delayRank]
    omega
  · left
    rw [delayRank, delayRank]
    omega

/-- A step of the hardware lowers the rank if it is the count event the poll waits for, and else leaves it. -/
theorem DelayUnattended.progress_of_hardware (hs : DelayUnattended i r rs s) (he : e ≠ .reset) (hfg : e ≠ .fgStep)
    (h : runEvent e s = .next s') (hf : HardwareFrame s s') : DelayProgress e s s' := by
  have hrounds : delayRounds s' = delayRounds s := delayRounds_congr hf.fg
  rcases hs.poll_of_hardware he hfg h hf with ⟨hw, hflag, hcount⟩ | ⟨-, -, hflag⟩
  · refine .inr ⟨by rw [delayRank, delayRank, hrounds, hf.fg, hflag], by rw [delayHelpful, delayHelpful, hw], ?_⟩
    rw [delayHelpful]
    split
    · next hawaits =>
      rintro rfl
      obtain ⟨h8, -⟩ := awaitsFlag_iff.mp hawaits
      rw [hcount rfl (hs.running h8)] at hawaits
      cases hawaits
    · exact hfg
  · left
    rw [delayRank, delayRank, hrounds, hf.fg]
    omega

/-- A step of the delay answers it or brings it nearer to its end, and lets no handler in. -/
theorem DelayUnattended.of_exec (hs : DelayUnattended i r rs s) (h : exec i s = .next s') :
    DelayAnswered rs s' ∨ DelayUnattended i r rs s' ∧ DelayProgress .fgStep s s' := by
  obtain ⟨hbits, hhs⟩ := exec_delay_masks hs.isDelay h
  obtain ⟨q, rfl, ha, ⟨-, -, hidle, hresp⟩ | ⟨hp, hresp, hgoes⟩⟩ := hs.toDelayInProgress.of_exec h
  · exact .inl ⟨hidle, hresp.trans (congrArg _ hs.responses)⟩
  · refine .inr ⟨⟨hp, fun t => ?_, hhs.trans hs.noHandler, fun h8 => ?_, hresp.trans hs.responses⟩,
      delayProgress_of_goes hs.toDelayInProgress ha hgoes⟩
    · rw [hbits (.ien t) nofun nofun, hbits .gie nofun nofun]
      exact hs.off t
    · have hto := hgoes.label
      rw [readBit_advance, ha.run]
      split
      · rfl
      · rw [if_neg (by omega)]
        exact hs.running (by omega)

/-- A step of the hardware lets no handler in. -/
theorem DelayUnattended.of_hardware (hs : DelayUnattended i r rs s) (h : runEvent e s = .next s')
    (hf : HardwareFrame s s') : DelayUnattended i r rs s' := by
  refine ⟨hs.toDelayInProgress.of_hardware h hf, fun t => ?_, ?_, ?_, hf.responses.trans hs.responses⟩
  · rw [hf.bits (.ien t) nofun, hf.bits .gie nofun]
    exact hs.off t
  · refine List.eq_nil_iff_forall_not_mem.mpr fun g hg => ?_
    rcases runEvent_timers e s s' h g hg with ⟨f, hmem, -⟩ | hd
    · rw [hs.noHandler] at hmem
      cases hmem
    · rw [dispatchEnabled_of_masked g.t s (hs.off g.t)] at hd
      cases hd
  · rw [hf.fg, hf.bits (.run .t0) nofun]
    exact hs.running

/-- Every step answers the delay, or brings it nearer to its end, or is not the step that does. -/
theorem DelayUnattended.of_runEvent (hs : DelayUnattended i r rs s) (he : e ≠ .reset) (h : runEvent e s = .next s') :
    DelayAnswered rs s' ∨ DelayUnattended i r rs s' ∧ DelayProgress e s s' := by
  rcases hs.runEvent_cases he h with ⟨rfl, -⟩ | ⟨hfg, hf⟩
  · exact hs.of_exec (runEvent_fgStep_busy i s hs.busy hs.noHandler hs.instr ▸ h)
  · exact .inr ⟨hs.of_hardware h hf, hs.progress_of_hardware he hfg h hf⟩

/-- A delay that is not answered has its helpful step enabled. -/
theorem DelayUnattended.helpful_enabled (hs : DelayUnattended i r rs s) : enabled (delayHelpful s) s = true := by
  rw [delayHelpful]
  split
  · next hw => exact hs.running (awaitsFlag_iff.mp hw).1
  · exact (enabled_fgStep_iff s).mpr ⟨hs.busy, hs.noHandler⟩

end Progress

/-- The two fairness assumptions are that the helpful step is taken. -/
theorem helpful_taken {i : Instr} {r : Half} {rs : List Word} {σ : Nat → State} {ε : Nat → Event}
    (hfg : WeaklyFair .fgStep σ ε) (hcount : FairCount .t0 σ ε) (n : Nat)
    (h : ∀ m, n ≤ m → DelayUnattended i r rs (σ m) ∧ delayHelpful (σ m) = delayHelpful (σ n)) :
    ∃ m, n ≤ m ∧ ε m = delayHelpful (σ n) := by
  have hon (m : Nat) (hm : n ≤ m) : enabled (delayHelpful (σ n)) (σ m) = true := by
    obtain ⟨hs, he⟩ := h m hm
    exact he ▸ hs.helpful_enabled
  cases hw : awaitsFlag (σ n) with
  | true =>
    have hhelp : delayHelpful (σ n) = .count .t0 := if_pos hw
    rw [hhelp] at h hon ⊢
    refine hcount n fun m hm => ⟨hon m hm, ?_⟩
    obtain ⟨hs, he⟩ := h m hm
    have hk : (σ m).fg.upc = 8 := by
      rw [delayHelpful] at he
      split at he
      · next hwm => exact (awaitsFlag_iff.mp hwm).1
      · cases he
    exact (hs.timer0 (by omega)).2
  | false =>
    have hhelp : delayHelpful (σ n) = .fgStep := if_neg (by simp [hw])
    rw [hhelp] at hon ⊢
    exact hfg n hon

/-- Settles O39, by the rule of the helpful step: the invariant gives a delay at `S1` its latches, and masked interrupts
keep the handlers out. -/
theorem delayCompletesInFairRuns : Obligations.DelayCompletesInFairRuns := by
  intro i σ ε hrun hfg hcount hreset hinv hoff hhs hb hi hd hk
  obtain ⟨j, hj, hsteps, -, ⟨-, hv⟩, -⟩ := hinv.foreground hb
  obtain rfl : i = j := Option.some.inj (hi.symm.trans hj)
  have hready : (σ 0).fg.r.isSome = true ∧ (σ 0).fg.loop.isSome = true ∧ (σ 0).fg.loop ≠ some 0 := by
    obtain ⟨n, rfl | rfl⟩ := isDelay_cases hd <;> exact hv
  obtain ⟨hr, hloop, hne⟩ := hready
  obtain ⟨r, hr⟩ := Option.isSome_iff_exists.mp hr
  obtain ⟨k, hloop⟩ := Option.isSome_iff_exists.mp hloop
  have hstart : DelayUnattended i r (σ 0).responses (σ 0) := {
    delayInProgress_of_first hd hsteps hb hi hk hr hloop (fun h => hne (h ▸ hloop)) (hoff .t0) (by simp [hhs]) with
    off := hoff
    noHandler := hhs
    running := by omega
    responses := rfl }
  exact eventually_of_helpful (fun n hs => hs.of_runEvent (hreset n) (hrun n)) (helpful_taken hfg hcount) 0 hstart

end Sys2Proof.Machine
end

section
/-! PROOF. The counting hardware: when a count event is enabled, the count to the overflow in mode 1, and the other
modes under each value of `OTHER_MODE_COUNT` (60_exceptions.md R101 to R104, 93_implementation_defined.md G3). -/

namespace Sys2Proof.Machine

open Sys2Proof

/-- The run goes on from the state that its first step answers. -/
theorem runOn_cons_next {e : Event} {s u : State} (h : runEvent e s = .next u) (es : List Event) :
    runOn (e :: es) s = runOn es u := by
  simp only [runOn, h]

/-- Settles O41: the guard of a count event is the run bit. -/
theorem countNeedsTheRunBit : Obligations.CountNeedsTheRunBit :=
  fun t s => ⟨Iff.rfl, runEvent_disabled (.count t) s⟩

/-! ## Mode 1 -/

/-- Settles O42: the running timer's event is `count16`. -/
theorem countInMode1 : Obligations.CountInMode1 :=
  fun t s hrun hm => ⟨count16 t s, runEvent_count_bit16 t s hrun hm, count16_spec t s⟩

/-- Timer `t` runs in 16-bit mode from the count `v`, and its flag is clear. -/
structure CountsFrom (t : Timer) (v : Half) (s : State) : Prop where
  running : readBit (.run t) s = true
  mode    : timerMode t s = .bit16
  clear   : readBit (.ovf t) s = false
  count   : countOf t s = v

section CountsFrom

variable {t : Timer} {v : Half} {s : State}

/-- A count event below the last count adds one and leaves the flag clear (60_exceptions.md R102). -/
theorem CountsFrom.counted (h : CountsFrom t v s) (hv : v ≠ 0xFFFF) : CountsFrom t (v + 1) (count16 t s) := by
  obtain ⟨hcount, hovf, hbytes, hbits, -⟩ := count16_spec t s
  refine ⟨(hbits (.run t) nofun).trans h.running, ?_, ?_, hcount.trans (by rw [h.count])⟩
  · rw [timerMode, hbytes .mode nofun nofun, ← timerMode, h.mode]
  · rw [hovf, h.clear, h.count, Bool.false_or, beq_eq_false_iff_ne]
    exact hv

/-- Count events that do not bring the count past `0xFFFF` add up. -/
theorem CountsFrom.runOn_counts (k : Nat) (h : CountsFrom t v s) (hk : v.toNat + k < 65536) :
    ∃ u, runOn (List.replicate k (.count t)) s = .next u ∧ CountsFrom t (v + BitVec.ofNat 16 k) u := by
  induction k generalizing v s with
  | zero => exact ⟨s, rfl, by simpa using h⟩
  | succ k ih =>
    have hv : v ≠ 0xFFFF := by bv_omega
    have hnext : (v + 1).toNat = v.toNat + 1 := by bv_omega
    obtain ⟨u, hrun, hu⟩ := ih (h.counted hv) (by omega)
    refine ⟨u, ?_, ?_⟩
    · rw [List.replicate_succ, runOn_cons_next (runEvent_count_bit16 t s h.running h.mode), hrun]
    · rwa [Nat.add_comm k 1, BitVec.ofNat_add, ← BitVec.add_assoc]

/-- The count event at `0xFFFF` sets the flag and leaves the count 0 (60_exceptions.md R102). -/
theorem CountsFrom.overflows (h : CountsFrom t 0xFFFF s) :
    readBit (.ovf t) (count16 t s) = true ∧ countOf t (count16 t s) = 0 := by
  obtain ⟨hcount, hovf, -⟩ := count16_spec t s
  rw [hovf, hcount, h.count]
  exact ⟨by simp, rfl⟩

end CountsFrom

/-- Settles O43: the count stands at `0xFFFF` after `N - 1` events, and the next one wraps. -/
theorem countToOverflow : Obligations.CountToOverflow := by
  intro t s N hrun hm ho hN
  have hstart : CountsFrom t (countOf t s) s := ⟨hrun, hm, ho, rfl⟩
  have hlt := (countOf t s).isLt
  replace hN : N = 65536 - (countOf t s).toNat := by
    rw [hN]
    split
    · next h0 => rw [h0]; rfl
    · rfl
  refine ⟨fun k hk => ?_, ?_⟩
  · obtain ⟨u, hu, hc⟩ := hstart.runOn_counts k (by omega)
    exact ⟨u, hu, hc.clear, hc.count⟩
  · obtain ⟨n, rfl⟩ : ∃ n, N = n + 1 := ⟨N - 1, by omega⟩
    obtain ⟨u, hu, hc⟩ := hstart.runOn_counts n (by omega)
    have hlast : countOf t s + BitVec.ofNat 16 n = 0xFFFF := by bv_omega
    rw [hlast] at hc
    refine ⟨count16 t u, ?_, hc.overflows⟩
    rw [List.replicate_succ', runOn_append _ _ _ _ hu,
      runOn_cons_next (runEvent_count_bit16 t u hc.running hc.mode)]
    rfl

/-! ## The other modes -/

/-- The event of Timer 0's second 8-bit counter is enabled under `mcs51` in mode 3 while `RUN[1]` is 1
(93_implementation_defined.md G3). -/
theorem enabled_countHigh_iff (s : State) : enabled .countHigh s = true ↔
    s.cfg.otherModeCount = .mcs51 ∧ timerMode .t0 s = .split8 ∧ readBit (.run .t1) s = true := by
  simp [enabled, countHighEnabled, and_assoc]

/-- A count event outside mode 1 is what the parameter says (60_exceptions.md R104). -/
theorem countStep_otherMode {t : Timer} {s : State} (hm : timerMode t s ≠ .bit16) :
    (s.cfg.otherModeCount = .refuse → countStep t s = .refused (.otherModeCount t (timerMode t s))) ∧
    (s.cfg.otherModeCount = .any → countStep t s = .next (countAny t s)) ∧
    (s.cfg.otherModeCount = .mcs51 → countStep t s = .next (countMcs51 t (timerMode t s) s)) := by
  unfold countStep
  split
  · next h => exact absurd h hm
  · refine ⟨fun hc => ?_, fun hc => ?_, fun hc => ?_⟩ <;> rw [hc]

/-- The 13-bit counter of mode 0 (93_implementation_defined.md G3). -/
theorem count13_spec (t : Timer) (s : State) :
    (readByte (.ch t) (count13 t s)).toNat * 32 + (readByte (.cl t) (count13 t s)).toNat % 32 =
      ((readByte (.ch t) s).toNat * 32 + (readByte (.cl t) s).toNat % 32 + 1) % 8192 ∧
    (readByte (.cl t) (count13 t s)).toNat / 32 = (readByte (.cl t) s).toNat / 32 ∧
    readBit (.ovf t) (count13 t s) =
      (readBit (.ovf t) s || (readByte (.ch t) s == 0xFF && readByte (.cl t) s &&& 0x1F == 0x1F)) := by
  obtain ⟨hcount, hupper, hwrap⟩ := inc13_spec (readByte (.ch t) s) (readByte (.cl t) s)
  have hcl : readByte (.cl t) (count13 t s) = (inc13 (readByte (.ch t) s) (readByte (.cl t) s)).1.2 := by
    simp [count13]
  have hch : readByte (.ch t) (count13 t s) = (inc13 (readByte (.ch t) s) (readByte (.cl t) s)).1.1 := by
    simp [count13]
  rw [hcl, hch]
  exact ⟨hcount, hupper, by simp [count13, hwrap]⟩

/-- The 8-bit counter of mode 2, reloaded when it wraps (93_implementation_defined.md G3). -/
theorem countAuto8_spec (t : Timer) (s : State) :
    readByte (.cl t) (countAuto8 t s) =
      (if readByte (.cl t) s = 0xFF then readByte (.ch t) s else readByte (.cl t) s + 1) ∧
    readByte (.ch t) (countAuto8 t s) = readByte (.ch t) s ∧
    readBit (.ovf t) (countAuto8 t s) = (readBit (.ovf t) s || readByte (.cl t) s == 0xFF) := by
  refine ⟨?_, by simp [countAuto8], by simp [countAuto8, inc8_wraps]⟩
  simp only [countAuto8, readByte_raiseOvf, readByte_writeByte_same, inc8_wraps, beq_iff_eq]
  rfl

/-- Settles O44: the second counter of mode 3 by its own event, and the other count events by the parameter and
then, under `mcs51`, by the mode. -/
theorem countInOtherModes : Obligations.CountInOtherModes := by
  refine ⟨enabled_countHigh_iff, fun s he => ?_, fun t s hrun hm => ?_⟩
  · obtain ⟨hcount, hovf, hbytes, hbits, -⟩ := count8_spec (.ch .t0) .t1 s
    exact ⟨countHigh s, runEvent_enabled .countHigh s he, hcount, hovf, hbytes, hbits⟩
  · have hstep : runEvent (.count t) s = countStep t s := runEvent_enabled (.count t) s hrun
    obtain ⟨hrefuse, hany, hmcs51⟩ := countStep_otherMode hm
    rw [hstep]
    refine ⟨hrefuse, fun hc => ?_,
      fun hc => ⟨_, hmcs51 hc, fun h => ?_, fun h => ?_, fun h ht => ?_, fun h ht => ?_⟩⟩
    · obtain ⟨hbytes, hbits, hset, -⟩ := countStep_frame t s _ (hany hc)
      exact ⟨_, hany hc, hset, hbytes, hbits⟩
    · rw [h]
      exact count13_spec t s
    · rw [h]
      exact countAuto8_spec t s
    · rw [h, ht]
      rfl
    · subst ht
      rw [h]
      obtain ⟨hcount, hovf, hbytes, -⟩ := count8_spec (.cl .t0) .t0 s
      exact ⟨hcount, hbytes (.ch .t0) nofun, hovf⟩

end Sys2Proof.Machine
end

section
/-! PROOF. The timer interrupts: when a dispatch is enabled and what it does, the four steps of the reload handler, and
a handler run through (60_exceptions.md R108 to R117). -/

namespace Sys2Proof.Machine

open Sys2Proof

/-- Settles O45: each timer's own condition is `dispatchReady`, and the order concerns Timer 1 alone. -/
theorem dispatchEnabledExactlyWhen : Obligations.DispatchEnabledExactlyWhen := by
  intro s ready hready
  have hr (t : Timer) : ready t ↔ dispatchReady t s = true := (hready t).trans (dispatchReady_iff t s).symm
  rw [hr, hr]
  exact ⟨by simp [enabled, dispatchEnabled], by simp [enabled, dispatchEnabled]⟩

/-- Settles O46: an enabled dispatch is `takeInterrupt`. -/
theorem dispatchEntersTheHandler : Obligations.DispatchEntersTheHandler :=
  fun t s he => runEvent_enabled (.dispatch t) s he

/-! ## The handler's steps -/

section Top

variable {f : Frame} {below : List Frame} {s : State}

/-- With a frame on top of `HS` the handler's step is the step of that frame. -/
theorem runEvent_hStep (hh : s.hs = f :: below) : runEvent .hStep s = .next (handlerStep f s) := by
  rw [runEvent_enabled _ _ ((enabled_hStep_iff s).mpr (by simp [hh]))]
  simp only [effect, hStep, hh]

/-- `H1` (60_exceptions.md R112). -/
theorem runEvent_hStep_h1 (hh : s.hs = f :: below) (hu : f.upc = .h1) : runEvent .hStep s =
    .next (setTop { f with upc := .h2 } (writeByte (.cl f.t) (readByte .prvL s) s)) := by
  simp only [runEvent_hStep hh, handlerStep, hu, handlerH1]

/-- `H2` (60_exceptions.md R112). -/
theorem runEvent_hStep_h2 (hh : s.hs = f :: below) (hu : f.upc = .h2) : runEvent .hStep s =
    .next (setTop { f with upc := .h3 } (writeByte (.ch f.t) (readByte .prvH s) s)) := by
  simp only [runEvent_hStep hh, handlerStep, hu, handlerH2]

/-- The handler's frame before its last step, `TICK` as `s` holds it in its latch. -/
def frameAtH4 (f : Frame) (s : State) : Frame := { f with upc := .h4, tt := some (tickOf s), tickread := true }

/-- `H3` (60_exceptions.md R112, R115). -/
theorem runEvent_hStep_h3 (hh : s.hs = f :: below) (hu : f.upc = .h3) : runEvent .hStep s =
    .next (setTop (frameAtH4 f s) s) := by
  simp only [runEvent_hStep hh, handlerStep, hu, handlerH3, frameAtH4]

/-- `H4` (60_exceptions.md R115 to R117). -/
theorem runEvent_hStep_h4 (hh : s.hs = f :: below) (hu : f.upc = .h4) :
    runEvent .hStep s = .next (handlerH4 f s) := by
  simp only [runEvent_hStep hh, handlerStep, hu]

/-- Only the top frame is another; those below stay. -/
theorem setTop_eq (hh : s.hs = f :: below) (g : Frame) : setTop g s = { s with hs := g :: below } := by
  simp [setTop, hh]

/-- `H4` pops the frame and marks the others. -/
theorem handlerH4_hs (hh : s.hs = f :: below) : (handlerH4 f s).hs = below.map markRaced := by
  simp [handlerH4, hh]

/-- A frame that is not raced writes the value it read plus one (60_exceptions.md R115). -/
theorem tickWritten_of_not_raced {v : Word} (hr : f.raced = false) (ht : f.tt = some v) : tickWritten f s = v + 1 := by
  simp [tickWritten, hr, ht]

/-- A raced frame writes a draw (60_exceptions.md R116). -/
theorem tickWritten_of_raced (hr : f.raced = true) : tickWritten f s = Config.freeWord s.draws := by
  simp [tickWritten, hr]

/-- A frame between its read of `TICK` and its write becomes raced (60_exceptions.md R116). -/
theorem markRaced_of_tickread (h : f.tickread = true) : markRaced f = { f with raced := true } := by
  simp [markRaced, h]

end Top

/-- Settles O47, label by label. -/
theorem handlerSteps : Obligations.HandlerSteps := by
  intro f below s hh
  refine ⟨fun hu => ?_, fun hu => ?_, fun hu => ?_, fun v hu hr ht => ?_⟩
  · rw [runEvent_hStep_h1 hh hu, setTop_eq (s := writeByte _ _ s) hh]
  · rw [runEvent_hStep_h2 hh hu, setTop_eq (s := writeByte _ _ s) hh]
  · rw [runEvent_hStep_h3 hh hu, setTop_eq hh, frameAtH4]
  · obtain ⟨htick, -, hdraws, hbytes, hbits⟩ := handlerH4_spec f s
    exact ⟨handlerH4 f s, runEvent_hStep_h4 hh hu, htick.trans (tickWritten_of_not_raced hr ht), handlerH4_hs hh, rfl,
      hdraws.trans (by simp [hr]), rfl, hbytes, hbits⟩

/-- Settles O48: every frame below is marked, and the marking changes those past `H3` alone. -/
theorem nestedRaceIsADraw : Obligations.NestedRaceIsADraw := by
  intro f below s hh hu
  obtain ⟨htick, -, hdraws, hbytes, hbits⟩ := handlerH4_spec f s
  have hmarked (g : Frame) (hg : g ∈ below) : markRaced g ∈ (handlerH4 f s).hs :=
    handlerH4_hs hh ▸ List.mem_map_of_mem hg
  refine ⟨handlerH4 f s, runEvent_hStep_h4 hh hu, handlerH4_hs hh, rfl, rfl, rfl, fun g hg hread => ?_,
    fun g hg hread => ?_, hbytes, hbits, fun hr => ⟨htick.trans (tickWritten_of_raced hr), ?_⟩⟩
  · exact markRaced_of_tickread hread ▸ hmarked g hg
  · exact markRaced_of_not_tickread g hread ▸ hmarked g hg
  · simp [hdraws, hr]

/-! ## A handler run through -/

/-- What the handler of timer `t` has done between the states `s` and `s'`, once it has returned to the frames `below`
with no other step in between (60_exceptions.md R112 to R117). -/
structure HandlerDone (t : Timer) (below : List Frame) (s s' : State) : Prop where
  hs        : s'.hs = below.map markRaced
  count     : countOf t s' = prvOf s
  tick      : tickOf s' = tickOf s + 1
  bytes     : ∀ c, c ≠ .cl t → c ≠ .ch t → (∀ k, c ≠ .tick k) → readByte c s' = readByte c s
  bits      : ∀ b, readBit b s' = readBit b s
  fg        : s'.fg = s.fg
  responses : s'.responses = s.responses

/-- Writing the top frame and writing a cell do not interfere. -/
theorem writeByte_setTop (c : ByteCell) (v : Byte) (f : Frame) (s : State) :
    writeByte c v (setTop f s) = setTop f (writeByte c v s) := rfl

theorem setTop_setTop (f g : Frame) (s : State) : setTop f (setTop g s) = setTop f s := rfl

theorem tickOf_setTop (f : Frame) (s : State) : tickOf (setTop f s) = tickOf s := rfl

/-- Reloading a count leaves `TICK` alone. -/
theorem tickOf_writeCount (t : Timer) (h l : Byte) (s : State) :
    tickOf (writeByte (.ch t) h (writeByte (.cl t) l s)) = tickOf s :=
  tickOf_congr fun k => by simp

/-- The state before the handler's last step: the count reloaded from `PRV`, and `TICK` in the frame's latch. -/
def reloaded (f : Frame) (s : State) : State :=
  setTop (frameAtH4 f s) (writeByte (.ch f.t) (readByte .prvH s) (writeByte (.cl f.t) (readByte .prvL s) s))

theorem countOf_reloaded (f : Frame) (s : State) : countOf f.t (reloaded f s) = prvOf s := by
  simp [reloaded, countOf, prvOf]

theorem readByte_reloaded (f : Frame) (s : State) (c : ByteCell) (hcl : c ≠ .cl f.t) (hch : c ≠ .ch f.t) :
    readByte c (reloaded f s) = readByte c s := by
  simp [reloaded, hcl, hch]

theorem readBit_reloaded (f : Frame) (s : State) (b : BitCell) : readBit b (reloaded f s) = readBit b s := by
  simp [reloaded]

section RunThrough

variable {f : Frame} {below : List Frame} {s : State}

/-- The handler's steps up to `H4`. -/
theorem runOn_reload (hh : s.hs = f :: below) (hu : f.upc = .h1) :
    runOn [.hStep, .hStep, .hStep] s = .next (reloaded f s) := by
  rw [runOn_cons_next (runEvent_hStep_h1 hh hu), runOn_cons_next (runEvent_hStep_h2 rfl rfl),
    runOn_cons_next (runEvent_hStep_h3 rfl rfl)]
  simp [runOn, reloaded, frameAtH4, writeByte_setTop, setTop_setTop, tickOf_setTop, tickOf_writeCount]

/-- The four steps of a handler from `H1` on. -/
theorem runOn_handler (hh : s.hs = f :: below) (hu : f.upc = .h1) (hr : f.raced = false) :
    ∃ s', runOn [.hStep, .hStep, .hStep, .hStep] s = .next s' ∧ HandlerDone f.t below s s' := by
  have htop : (reloaded f s).hs = frameAtH4 f s :: below := by
    simp [reloaded, hh]
  obtain ⟨htick, -, -, hbytes, hbits⟩ := handlerH4_spec (frameAtH4 f s) (reloaded f s)
  have hlast : runOn [.hStep] (reloaded f s) = .next (handlerH4 (frameAtH4 f s) (reloaded f s)) :=
    runOn_cons_next (runEvent_hStep_h4 htop rfl) []
  exact ⟨_, (runOn_append _ [.hStep] _ _ (runOn_reload hh hu)).trans hlast,
    { hs := handlerH4_hs htop
      count := (countOf_congr (hbytes _ nofun) (hbytes _ nofun)).trans (countOf_reloaded f s)
      tick := htick.trans (tickWritten_of_not_raced hr rfl)
      bytes := fun c hcl hch hc => (hbytes c hc).trans (readByte_reloaded f s c hcl hch)
      bits := fun b => (hbits b).trans (readBit_reloaded f s b)
      fg := rfl
      responses := rfl }⟩

end RunThrough

/-- Settles O49: a dispatch, and the handler it entered run through. -/
theorem dispatchedHandlerRunsThrough : Obligations.DispatchedHandlerRunsThrough := by
  intro t s he hh
  have hdispatch : runEvent (.dispatch t) s = .next (takeInterrupt t s) := runEvent_enabled (.dispatch t) s he
  obtain ⟨s', hrun, hd⟩ := runOn_handler (takeInterrupt_hs t s) rfl rfl
  have hbytes (c : ByteCell) (hcl : c ≠ .cl t) (hch : c ≠ .ch t) (hc : ∀ k, c ≠ .tick k) :
      readByte c s' = readByte c s := (hd.bytes c hcl hch hc).trans (readByte_takeInterrupt c t s)
  have hbits (b : BitCell) : readBit b s' = if b = .ovf t then false else readBit b s :=
    (hd.bits b).trans (readBit_takeInterrupt b t s)
  have hprv : prvOf (takeInterrupt t s) = prvOf s := by simp [prvOf]
  have htick : tickOf (takeInterrupt t s) = tickOf s := tickOf_congr fun k => readByte_takeInterrupt _ t s
  refine ⟨s', (runOn_cons_next hdispatch _).trans hrun, ?_, ?_, hd.count.trans hprv, hd.tick.trans (by rw [htick]),
    fun b hb => ?_, hbytes .mode nofun nofun nofun, ?_, ?_, hd.fg, hd.responses⟩
  · rw [hd.hs, hh, List.map_nil]
  · rw [hbits, if_pos rfl]
  · rw [hbits, if_neg hb]
  · rw [prvOf, hbytes .prvH nofun nofun nofun, hbytes .prvL nofun nofun nofun, prvOf]
  · exact countOf_congr (hbytes _ (by simp) nofun nofun) (hbytes _ nofun (by simp) nofun)

end Sys2Proof.Machine
end

section
/-! PROOF. Where handlers do not nest, `TICK` counts the dispatches served: a handler in service owes it one, and its
read of it is never stale (70_reset_and_hazards.md R153, 60_exceptions.md R114, R115). -/

namespace Sys2Proof.Machine

open Sys2Proof

/-! ## Who changes the handlers in service -/

/-- No step but a dispatch, a handler's step or a `Reset` changes `HS`. -/
theorem runEvent_hs_kept (e : Event) (s s' : State) (h : runEvent e s = .next s') (hd : ∀ t, e ≠ .dispatch t)
    (hh : e ≠ .hStep) (hr : e ≠ .reset) : s'.hs = s.hs := by
  rcases runEvent_cases e s s' h with ⟨-, rfl⟩ | ⟨-, -, -, w, rest, -, ⟨i, -, hx⟩ | ⟨-, rfl⟩⟩ | ⟨-, -, -, i, -, hx⟩ |
    ⟨t, -, -, hx⟩ | ⟨-, -, rfl⟩ | ⟨t, he, -⟩ | ⟨he, -⟩ | ⟨he, -⟩
  · rfl
  · obtain ⟨hhs, -⟩ := exec_rest i _ s' hx
    exact hhs
  · rfl
  · obtain ⟨hhs, -⟩ := exec_rest i s s' hx
    exact hhs
  · obtain ⟨-, -, -, -, hhs, -⟩ := countStep_frame t s s' hx
    exact hhs
  · obtain ⟨-, -, -, -, hrest⟩ := count8_spec (.ch .t0) .t1 s
    rw [countHigh, hrest]
  · exact absurd he (hd t)
  · exact absurd he hh
  · exact absurd he hr

/-- No step but a handler's or a `Reset` changes `TICK`. -/
theorem runEvent_tickOf_kept (e : Event) (s s' : State) (h : runEvent e s = .next s') (hh : e ≠ .hStep)
    (hr : e ≠ .reset) : tickOf s' = tickOf s := by
  obtain ⟨-, -, -, -, -, htick, -⟩ := onlyTheMatrixWrites e s s' h hr
  refine by_contra fun hne => ?_
  obtain ⟨hstep, -⟩ := htick hne
  exact hh hstep

/-! ## What a handler in service owes -/

/-- The frame is not raced, and past `H3` its latch holds `v`. -/
def FrameReads (v : Word) (f : Frame) : Prop := f.raced = false ∧ (f.tickread = true → f.tt = some v)

/-- Every handler past `H3` has read what `TICK` still holds. -/
def ReadsCurrent (s : State) : Prop := ∀ f ∈ s.hs, FrameReads (tickOf s) f

/-- `TICK` once every handler in service has added its one. -/
def tickDue (s : State) : Word := tickOf s + BitVec.ofNat 32 s.hs.length

theorem readsCurrent_congr {s s' : State} (hhs : s'.hs = s.hs) (htick : tickOf s' = tickOf s) (h : ReadsCurrent s) :
    ReadsCurrent s' := by
  rwa [ReadsCurrent, hhs, htick]

theorem tickDue_congr {s s' : State} (hhs : s'.hs = s.hs) (htick : tickOf s' = tickOf s) : tickDue s' = tickDue s := by
  rw [tickDue, hhs, htick, tickDue]

section Handler

variable {f : Frame} {s : State}

/-- A step before `H4` moves the top frame on; where it reads `TICK`, it reads what `TICK` holds. -/
theorem handlerStep_top_reads (hf : FrameOk f) (hr : f.raced = false) (h4 : f.upc ≠ .h4) :
    ∃ f', (handlerStep f s).hs = f' :: s.hs.tail ∧ FrameReads (tickOf s) f' := by
  obtain ⟨hread, -, -⟩ := hf
  have hnot : f.tickread ≠ true := fun h => h4 (hread.mp h)
  unfold handlerStep
  split
  · exact ⟨_, rfl, hr, fun h => absurd h hnot⟩
  · exact ⟨_, rfl, hr, fun h => absurd h hnot⟩
  · exact ⟨_, rfl, hr, fun _ => rfl⟩
  · next h => exact absurd h h4

/-- The step of the one handler in service: before `H4` it stays and `TICK` too, and at `H4` it returns with its one
added. -/
theorem handlerStep_tickDue (hh : s.hs = [f]) (hf : FrameOk f) (hreads : FrameReads (tickOf s) f) :
    ReadsCurrent (handlerStep f s) ∧ tickDue (handlerStep f s) = tickDue s := by
  obtain ⟨hr, htt⟩ := hreads
  by_cases h4 : f.upc = .h4
  · obtain ⟨hread, -, -⟩ := hf
    have hstep : handlerStep f s = handlerH4 f s := by rw [handlerStep, h4]
    have hgone : (handlerH4 f s).hs = [] := handlerH4_hs hh
    obtain ⟨htick, -⟩ := handlerH4_spec f s
    rw [tickWritten_of_not_raced hr (htt (hread.mpr h4))] at htick
    rw [hstep, ReadsCurrent, tickDue, tickDue, hgone, htick, hh]
    exact ⟨List.forall_mem_nil _, BitVec.add_zero _⟩
  · have htick : tickOf (handlerStep f s) = tickOf s := tickOf_congr (handlerStep_tick f s h4)
    obtain ⟨f', hhs, hf'⟩ := handlerStep_top_reads (s := s) hf hr h4
    rw [hh, List.tail_cons] at hhs
    rw [ReadsCurrent, tickDue, tickDue, hhs, htick, hh]
    exact ⟨List.forall_mem_singleton.mpr hf', rfl⟩

end Handler

/-- A dispatch enters a handler that has read nothing, and that owes `TICK` one. -/
theorem takeInterrupt_tickDue (t : Timer) (s : State) (hc : ReadsCurrent s) :
    ReadsCurrent (takeInterrupt t s) ∧ tickDue (takeInterrupt t s) = tickDue s + 1 := by
  have htick : tickOf (takeInterrupt t s) = tickOf s := tickOf_congr fun k => readByte_takeInterrupt _ t s
  rw [ReadsCurrent, tickDue, tickDue, htick, takeInterrupt_hs, List.length_cons, BitVec.ofNat_add, BitVec.add_assoc]
  exact ⟨List.forall_mem_cons.mpr ⟨⟨rfl, nofun⟩, hc⟩, rfl⟩

/-! ## The count of dispatches along a run -/

/-- The event is a dispatch, of either timer. -/
def isDispatch (e : Event) : Bool := e == .dispatch .t0 || e == .dispatch .t1

@[simp] theorem isDispatch_dispatch (t : Timer) : isDispatch (.dispatch t) = true := by cases t <;> rfl

/-- A state in which handlers do not nest and every handler past `H3` has read what `TICK` still holds. -/
structure TickServed (s : State) : Prop where
  frames  : FramesOk s
  nesting : s.cfg.nesting = .none
  reads   : ReadsCurrent s

/-- One step: the value due goes up by one if it is a dispatch that is taken, and stays otherwise. -/
theorem TickServed.of_runEvent {e : Event} {s s' : State} (hs : TickServed s) (he : e ≠ .reset)
    (h : runEvent e s = .next s') :
    TickServed s' ∧
      tickDue s' = tickDue s + BitVec.ofNat 32 (if isDispatch e && enabled e s then 1 else 0) := by
  suffices hdue : ReadsCurrent s' ∧
      tickDue s' = tickDue s + BitVec.ofNat 32 (if isDispatch e && enabled e s then 1 else 0) by
    obtain ⟨hreads, htick⟩ := hdue
    exact ⟨⟨runEvent_framesOk e s s' h hs.frames, (runEvent_cfg e s s' h) ▸ hs.nesting, hreads⟩, htick⟩
  have hquiet (hd : ∀ t, e ≠ .dispatch t) (hh : e ≠ .hStep) : ReadsCurrent s' ∧ tickDue s' = tickDue s := by
    have hhs := runEvent_hs_kept e s s' h hd hh he
    have htick := runEvent_tickOf_kept e s s' h hh he
    exact ⟨readsCurrent_congr hhs htick hs.reads, tickDue_congr hhs htick⟩
  cases e with
  | dispatch t =>
    cases hon : enabled (.dispatch t) s with
    | false =>
      rw [runEvent_disabled _ s hon] at h
      cases h
      simpa using hs.reads
    | true =>
      rw [runEvent_enabled _ s hon] at h
      cases h
      simpa using takeInterrupt_tickDue t s hs.reads
  | hStep =>
    obtain ⟨-, hroom, hframes⟩ := hs.frames
    have hroom := hroom hs.nesting
    cases hh : s.hs with
    | nil =>
      rw [runEvent_of_not_enabled _ s (by simp [enabled_hStep_iff, hh])] at h
      cases h
      simpa [isDispatch] using hs.reads
    | cons f below =>
      obtain rfl : below = [] := by
        rw [hh, List.length_cons] at hroom
        exact List.length_eq_zero_iff.mp (by omega)
      rw [runEvent_hStep hh] at h
      cases h
      have hmem : f ∈ s.hs := by simp [hh]
      simpa [isDispatch] using handlerStep_tickDue hh (hframes f hmem) (hs.reads f hmem)
  | issue | fgStep | count | countHigh => simpa [isDispatch] using hquiet nofun nofun
  | reset => exact absurd rfl he

/-- A run without a reset: the value due goes up by one for each dispatch taken. -/
theorem TickServed.tickDue_runOn {es : List Event} {s s' : State} (hs : TickServed s) (hes : ∀ e ∈ es, e ≠ .reset)
    (h : runOn es s = .next s') : tickDue s' = tickDue s + BitVec.ofNat 32 (countTaken isDispatch es s) := by
  induction es generalizing s with
  | nil =>
    cases h
    exact (BitVec.add_zero _).symm
  | cons e es ih =>
    obtain ⟨u, hu, hrest⟩ := runOn_cons e es s s' h
    obtain ⟨he, hes⟩ := List.forall_mem_cons.mp hes
    obtain ⟨hs', hstep⟩ := hs.of_runEvent he hu
    rw [ih hs' hes hrest, hstep, BitVec.add_assoc, ← BitVec.ofNat_add]
    simp only [countTaken, hu]

/-- Settles O50: both sides are the value due, at the end of the run and at its start. -/
theorem tickCountsTheServedDispatches : Obligations.TickCountsTheServedDispatches :=
  fun _ _ _ hinv hnone hreads hes h => TickServed.tickDue_runOn ⟨hinv.frames, hnone, hreads⟩ hes h

end Sys2Proof.Machine
end

section
/-! PROOF. The operations as wholes: how many steps an operation without a loop takes, STOP followed by RDOVF, and a
delay of count 0 (70_reset_and_hazards.md R154 to R156). -/

namespace Sys2Proof.Machine

open Sys2Proof

/-! ## An operation without a loop -/

/-- The steps left after `n` of them. -/
theorem execTimes_add {i : Instr} {s u : State} {n : Nat} (h : execTimes n i s = .next u) (m : Nat) :
    execTimes (n + m) i s = execTimes m i u := by
  induction n generalizing s with
  | zero =>
    cases h
    rw [Nat.zero_add]
  | succ n ih =>
    rw [execTimes] at h
    split at h
    · next s' hs' => rw [Nat.succ_add, execTimes_succ hs', ih h]
    · cases h
    · cases h

/-- The operation `i`, issued in `s₀`, is in progress at the label after its first `k` steps, with nothing answered. -/
structure InProgressAt (i : Instr) (s₀ : State) (k : Nat) (s : State) : Prop where
  busy      : s.fg.busy = true
  cfg       : s.cfg = s₀.cfg
  responses : s.responses = s₀.responses
  upc       : s.fg.upc = firstLabel s₀.cfg i + k

section Straight

variable {i : Instr} {s₀ s : State} {result : State → Word} {l : List (State → State)} {k : Nat}

/-- A step of a straight line that is not its last leaves it in progress. -/
theorem InProgressAt.exec_next (hs : InProgressAt i s₀ k s) (hsteps : hasSteps i = true)
    (hp : programOf s₀.cfg i = straight result l) (hlt : k + 1 < l.length) :
    ∃ u, exec i s = .next u ∧ InProgressAt i s₀ (k + 1) u := by
  have he := List.getElem?_eq_getElem (Nat.lt_of_succ_lt hlt)
  obtain ⟨hcfg, hupc, hbusy⟩ := straight_access_kept hsteps hp (List.mem_of_getElem? he) s hs.cfg
  have hstep := exec_straight_next hsteps hs.busy (hs.cfg ▸ hp) (hs.cfg ▸ hs.upc) he hlt hupc
  have hb : (atLabel (firstLabel s.cfg i + k + 1) (l[k] s)).fg.busy = true := hbusy.trans hs.busy
  obtain ⟨-, ⟨-, hresp⟩ | ⟨hidle, -⟩⟩ := exec_answers i s _ hstep
  · exact ⟨_, hstep, hb, hcfg, hresp.trans hs.responses, by rw [hs.cfg]; rfl⟩
  · rw [hb] at hidle
    cases hidle

/-- The last step of a straight line answers. -/
theorem InProgressAt.exec_last (hs : InProgressAt i s₀ k s) (hsteps : hasSteps i = true)
    (hp : programOf s₀.cfg i = straight result l) (hlast : k + 1 = l.length) :
    ∃ u v, exec i s = .next u ∧ u.fg.busy = false ∧ u.responses = v :: s₀.responses := by
  have he := List.getElem?_eq_getElem (Nat.lt_of_succ_le hlast.le)
  have hstep := exec_straight_last hsteps hs.busy (hs.cfg ▸ hp) (hs.cfg ▸ hs.upc) he hlast
  obtain ⟨-, ⟨hbusy, -⟩ | ⟨hidle, v, hresp⟩⟩ := exec_answers i s _ hstep
  · cases hbusy
  · exact ⟨_, v, hstep, hidle, hs.responses ▸ hresp⟩

/-- The issue of a straight line and fewer than all its steps leave it in progress. -/
theorem execTimes_inProgressAt (hsteps : hasSteps i = true) (hp : programOf s₀.cfg i = straight result l)
    (hb : s₀.fg.busy = false) (hlt : k < l.length) :
    ∃ u, execTimes (1 + k) i s₀ = .next u ∧ InProgressAt i s₀ k u := by
  induction k with
  | zero =>
    exact ⟨_, execTimes_succ (exec_idle i s₀ hsteps hb) 0, begin_busy _ _ _ _ s₀, rfl, rfl, begin_upc _ _ _ _ s₀⟩
  | succ k ih =>
    obtain ⟨u, hrun, hu⟩ := ih (Nat.lt_of_succ_lt hlt)
    obtain ⟨w, hstep, hw⟩ := hu.exec_next hsteps hp hlt
    exact ⟨w, (execTimes_add hrun 1).trans (execTimes_succ hstep 0), hw⟩

end Straight

/-- Settles O29: every command but the delays is a straight line, in progress until its last step answers. -/
theorem straightOperationTakesItsSteps : Obligations.StraightOperationTakesItsSteps := by
  intro i s hsteps hd hb
  obtain ⟨result, l, hp⟩ := programOf_eq_straight s.cfg i hd
  have hlen : labelCount s.cfg i = l.length := by rw [← programOf_length s.cfg i hsteps, hp, length_straight]
  have hpos := labelCount_pos s.cfg i
  rw [hlen] at hpos ⊢
  refine ⟨fun m hm => ?_, ?_⟩
  · obtain ⟨u, hrun, hu⟩ := execTimes_inProgressAt hsteps hp hb hm
    exact ⟨u, hrun, hu.busy, hu.responses⟩
  · obtain ⟨k, hk⟩ := Nat.exists_eq_add_one.mpr hpos
    obtain ⟨u, hrun, hu⟩ := execTimes_inProgressAt (k := k) hsteps hp hb (by omega)
    obtain ⟨w, v, hstep, hidle, hresp⟩ := hu.exec_last hsteps hp hk.symm
    refine ⟨w, v, ?_, hidle, hresp⟩
    rw [hk]
    exact (execTimes_add hrun 1).trans (execTimes_succ hstep 0)

/-! ## STOP and then RDOVF -/

/-- The issue of a STOP and its two steps, with no other agent in between. -/
theorem execTimes_stop (a : Byte) (t : Timer) (s : State) (hat : a = 0 ∧ t = .t0 ∨ a = 1 ∧ t = .t1)
    (hb : s.fg.busy = false) :
    execTimes 3 (.stop a) s =
      .next (complete 0 (writeBit (.ovf t) false (atLabel 2 (writeBit (.run t) false (begin .stop 1 id s))))) := by
  have ht := (timerOf_eq_some_iff a t).mpr hat
  have hs : hasSteps (.stop a) = true := validTimer_of_timerOf ht
  exact execTimes_issue_straight hs hb (programOf_stop s.cfg ht) (List.cons_ne_nil _ _)

/-- The issue of an RDOVF and its one step, with no other agent in between. -/
theorem execTimes_rdovf (a : Byte) (t : Timer) (s : State) (hat : a = 0 ∧ t = .t0 ∨ a = 1 ∧ t = .t1)
    (hb : s.fg.busy = false) :
    execTimes 2 (.rdovf a) s =
      .next (complete (zextBit (readBit (.ovf t) s))
        (onFg (fun fg => { fg with f := some (readBit (.ovf t) s) }) (begin .rdovf 1 id s))) := by
  have ht := (timerOf_eq_some_iff a t).mpr hat
  have hs : hasSteps (.rdovf a) = true := validTimer_of_timerOf ht
  exact execTimes_issue_straight hs hb (programOf_rdovf s.cfg ht) (List.cons_ne_nil _ _)

/-- Settles O31: STOP's second step clears the flag that RDOVF then reads. -/
theorem stopThenRdovfAnswersZero : Obligations.StopThenRdovfAnswersZero := by
  intro a t s hat hb
  have hstop := execTimes_stop a t s hat hb
  have hovf : readBit (.ovf t) (complete 0 (writeBit (.ovf t) false (atLabel 2 (writeBit (.run t) false
      (begin .stop 1 id s))))) = false := by simp
  refine ⟨_, _, hstop, rfl, ?_, hovf, execTimes_rdovf a t _ hat rfl, rfl, ?_, rfl⟩
  · simp [atLabel]
  · rw [hovf]
    rfl

/-! ## A delay of count 0 -/

/-- Settles O25: each word decodes to a delay of count 0, a command without access steps. -/
theorem zeroDelayChangesNoCell : Obligations.ZeroDelayChangesNoCell := by
  intro w rest es s hw hsched hc hb hh
  have hdelay : ∃ i, decode w = .ok i ∧ hasSteps i = false := by
    rcases hw with rfl | rfl
    · exact ⟨.delayus 0, rfl, rfl⟩
    · exact ⟨.delayms 0, rfl, rfl⟩
  obtain ⟨i, hd, hsteps⟩ := hdelay
  have hstep := stepIssuesTheDecodedCommand w i rest es s hsched hc hb hh hd
  rw [exec_noSteps i _ hsteps] at hstep
  exact ⟨_, hstep, rfl, rfl, rfl, rfl, rfl⟩

end Sys2Proof.Machine
end

section
/-! PROOF. A `Reset` at any time (70_reset_and_hazards.md R130, R132), and the nibble of `MODE` that no step changes but
one of the command that names its timer (70_reset_and_hazards.md R152). -/

namespace Sys2Proof.Machine

open Sys2Proof

/-- Settles O52: the cells read 0 one by one, the rest stands in the definitions. -/
theorem resetAbandonsAll : Obligations.ResetAbandonsAll := fun s =>
  ⟨resetStep s, rfl, readByte_reset, readBit_reset, rfl, rfl, rfl, rfl, rfl, rfl, rfl, rfl, rfl, rfl, rfl, rfl, rfl,
    rfl, rfl, rfl⟩

/-! ## The other timer's nibble of `MODE` -/

theorem clearNibble_other (t : Timer) (v : Byte) :
    clearNibble t.other v &&& nibbleMask t = v &&& nibbleMask t := by
  cases t <;> revert v <;> decide

theorem orNibble_other (t : Timer) (m : TimerMode) (ct : CtSel) (v : Byte) :
    orNibble t.other (modeField m ct) v &&& nibbleMask t = v &&& nibbleMask t := by
  cases t <;> cases m <;> cases ct <;> revert v <;> decide

/-- `MODE` stays at the labels that do not write it. -/
theorem AccessAt.mode_kept {i : Instr} {k : Nat} {e : State → State} (h : AccessAt i k e) (s : State)
    (hw : writesModeNext i k = false) : readByte .mode (e s) = readByte .mode s := by
  cases h with
  | readMode | latch => rfl
  | writeMode _ _ hw' =>
    rw [hw] at hw'
    cases hw'
  | byte c v hmode => exact readByte_writeByte_ne _ _ _ _ hmode.symm
  | bit | countDown => simp

/-- The same of a foreground step. -/
theorem exec_mode_kept {i : Instr} {s s' : State} (hb : s.fg.busy = true) (h : exec i s = .next s')
    (hw : writesModeNext i s.fg.upc = false) : readByte .mode s' = readByte .mode s := by
  rcases exec_busy_access i s s' hb h with rfl | ⟨-, m, -, ha, rfl⟩
  · rfl
  · exact (readByte_advance _ _).trans (ha.mode_kept s hw)

/-- The nine steps of IRQMODE.ON leave the other timer's nibble, where `MODE` is written from what it holds. -/
theorem IrqOnLabels.nibble_kept {i : Instr} {a : Byte} {t : Timer} {r : Half} {n : Nat} {s s' : State}
    (hl : IrqOnLabels i a t.other r n s) (ha : timerOf a = some t.other) (hk : s.fg.upc = n + 2 ∨ s.fg.upc = n + 4)
    (hv : s.fg.t = some (readByte .mode s)) (h : exec i s = .next s') :
    readByte .mode s' &&& nibbleMask t = readByte .mode s &&& nibbleMask t := by
  obtain ⟨-, hclear, -, hor, -⟩ := hl
  rcases hk with hk | hk
  · rw [hclear _ hk hv, ← clearNibble_of_timerOf ha] at h
    cases h
    exact clearNibble_other t _
  · rw [hor _ hk hv, ← orNibble_bit16_timer ha] at h
    cases h
    exact orNibble_other t _ _ _

/-- The command's steps write no nibble of `MODE` but that of the other timer than `t`. -/
def SparesNibble (t : Timer) (i : Instr) : Prop :=
  match i with
  | .cfgmode a _ _ => timerOf a = some t.other
  | .irqmodeOn a _ => timerOf a = some t.other
  | .inittick a _ => timerOf a = some t.other
  | .delayus _ => t = .t1
  | .delayms _ => t = .t1
  | _ => True

theorem exists_unitOf {c : Byte} (h : c.toNat < 2) : ∃ u, unitOf c = some u :=
  Option.isSome_iff_exists.mp (validUnit_eq c ▸ decide_eq_true h)

/-- A step that writes `MODE` from what it holds leaves the nibble of the timer that the command does not name. -/
theorem exec_nibble_kept {i : Instr} {t : Timer} {s s' : State} (hsteps : hasSteps i = true) (hb : s.fg.busy = true)
    (hready : valuesReady i s.fg) (hw : writesModeNext i s.fg.upc = true) (hv : s.fg.t = some (readByte .mode s))
    (hi : SparesNibble t i) (h : exec i s = .next s') :
    readByte .mode s' &&& nibbleMask t = readByte .mode s &&& nibbleMask t := by
  cases i with
  | cfgmode a b c =>
    obtain ⟨hva, hvb, hvc⟩ := (hasSteps_cfgmode_iff a b c).mp hsteps
    obtain ⟨-, hrule⟩ := cfgmodeSteps
    obtain ⟨-, hvalid⟩ := hrule a b c s
    obtain ⟨-, hlabels⟩ := hvalid hva hvb hvc
    obtain ⟨-, hclear, -, hor⟩ := hlabels hb
    have hk : s.fg.upc = 2 ∨ s.fg.upc = 4 := by simpa [writesModeNext] using hw
    obtain ⟨ct, hct⟩ := exists_ctSelOf hvb
    obtain ⟨m, hm⟩ := exists_modeSelOf hvc
    rcases hk with hk | hk
    · rw [hclear _ hk hv, ← clearNibble_of_timerOf hi] at h
      cases h
      exact clearNibble_other t _
    · rw [hor _ hk hv, ← orNibble_of_selectors hi hct hm] at h
      cases h
      exact orNibble_other t _ _ _
  | irqmodeOn a imm =>
    obtain ⟨-, hrule⟩ := irqmodeOnSteps
    obtain ⟨-, hvalid⟩ := hrule a imm s
    obtain ⟨-, hlabels⟩ := hvalid t.other ((timerOf_eq_some_iff a _).mp hi)
    have hl : IrqOnLabels (.irqmodeOn a imm) a t.other imm 0 s := hlabels hb
    exact hl.nibble_kept hi (by simpa [writesModeNext] using hw) hv h
  | inittick a c =>
    obtain ⟨r, hr⟩ := Option.isSome_iff_exists.mp hready
    obtain ⟨-, hu⟩ := (hasSteps_inittick_iff a c).mp hsteps
    obtain ⟨u, hu⟩ := exists_unitOf hu
    have hl : IrqOnLabels (.inittick a c) a t.other r 2 s :=
      irqOnLabels_of_programOf cacheAccesses hsteps hb hi rfl (programOf_inittick s.cfg hi hu) (latchR_eq hr)
    exact hl.nibble_kept hi (by simpa [writesModeNext] using hw) hv h
  | delayus n | delayms n =>
    obtain rfl : t = .t1 := hi
    obtain ⟨-, hhigh⟩ := delayFrame _ s s' (by simp [Instr.opcode]) h
    exact hhigh fun _ => hv
  | loadcnt | start | stop | rdovf | irqmodeOff | rdtick => cases hw

/-- Settles O36: only a foreground step changes `MODE`, only at its writing labels, and there from a latch `T` that
holds what `MODE` holds. -/
theorem nibbleOfTheOtherTimerStays : Obligations.NibbleOfTheOtherTimerStays := by
  intro e t s s' hinv he h hi
  by_cases hmode : readByte .mode s' = readByte .mode s
  · rw [hmode]
  obtain rfl : e = .fgStep := (runEvent_mayChangeByte e s s' h he .mode hmode).eq_fgStep nofun nofun nofun
  obtain ⟨hb, hh⟩ := (enabled_fgStep_iff s).mp (enabled_of_ne _ s s' h fun hsame => hmode (hsame ▸ rfl))
  obtain ⟨i, hinstr, hsteps, -, ⟨-, hready⟩, hv, -⟩ := hinv.foreground hb
  rw [runEvent_fgStep_busy i s hb hh hinstr] at h
  have hw : writesModeNext i s.fg.upc = true :=
    Bool.eq_true_of_not_eq_false fun hno => hmode (exec_mode_kept hb h hno)
  have hspares : SparesNibble t i := by
    have := hi i hinstr rfl
    cases i <;> exact this
  exact exec_nibble_kept hsteps hb hready hw (hv hw) hspares h

end Sys2Proof.Machine
end
